-- ==== Sys2Proof/Word.lean ====
section
/-! DEFINITION. The word types of the block: command and CSR words, field elements, polynomials, vectors. -/

namespace Sys2Proof

/-- A command word or a CSR word, 32 bits, bit 0 the least significant (R7, R80). -/
abbrev Word := BitVec 32

/-- An element of GF(2^N) as its integer in 0 … 2^N − 1; bit i is the coefficient of α^i (R61, R100). The bound by
2^N depends on the parameter N, so it is an invariant (`Machine.Memory.wf`), not part of the type. -/
abbrev Elem := Nat

/-- A polynomial by its coefficient list from degree 0 upward, `[]` the zero polynomial (R9, R21). Canonical form
(R120) is an invariant, not part of the type. -/
abbrev Poly := List Elem

/-- A buffer's value, element 0 first; its length is the buffer's length (R24, R180). -/
abbrev Vec := List Elem

end Sys2Proof
end

