-- ==== Sys2Proof/Config.lean ====
section
/-! DEFINITION. The implementation parameters of R5 and their concrete instance. -/

namespace Sys2Proof

/-- The parameters the model takes as an argument (R5). NF and NP are fixed at 16 and are not among them; LMAX is
2·RMAX (`Params.lmax`). The constraints of R5 are `Machine.Params.Ok`, in Safety.lean. -/
structure Params where
  /-- N: the field is GF(2^N). -/
  n : Nat
  /-- POLY: the (N+1)-bit integer of the reduction polynomial, bit i the coefficient of α^i. -/
  poly : Nat
  /-- NZ: the fixed enumeration order of the non-zero elements. -/
  nz : List Elem
  /-- RMAX: the largest block size. -/
  rmax : Nat
  deriving DecidableEq, Repr

/-- The number of field elements, 2^N (R100). -/
def Params.card (P : Params) : Nat := 2 ^ P.n

/-- LMAX = 2·RMAX, the coefficient capacity of a polynomial register (R5). -/
def Params.lmax (P : Params) : Nat := 2 * P.rmax

/-- The concrete instance, the value this hardware takes when nothing else is said (R5): GF(4) with α² = α + 1,
NZ ascending, RMAX = 4096. -/
def Params.gf4 : Params := { n := 2, poly := 7, nz := [1, 2, 3], rmax := 4096 }

end Sys2Proof
end

