-- ==== Sys2Proof/Syntax.lean ====
section
/-! DEFINITION. The commands: one constructor per row of the opcode map (R85). -/

namespace Sys2Proof

/-- The seven vector buffers, in the order of their ids 0 … 6 (R24). -/
inductive Buf where
  | msg | cw | sy | ev | h0 | h1 | g
  deriving DecidableEq, Repr

/-- The number of a field register f0 … f15 (R20, R83). -/
abbrev FReg := Fin 16

/-- The number of a polynomial register p0 … p15 (R21, R83). -/
abbrev PReg := Fin 16

/-- The commands. Operand order is the assembler's (R87): destinations, sources, immediate. An immediate is the
mathematical integer of the 16-bit field (R84), so that a term with a larger one is ill formed
(`Instr.wellFormed`). ENCODE and DECODE are named `encodeMsg` and `decodeCw`, to keep them apart from the encoder
and the decoder of command words. -/
inductive Instr where
  | nop
  | sreset
  | fli (rd : FReg) (imm : Nat)
  | fmov (rd ra : FReg)
  | fadd (rd ra rb : FReg)
  | fsub (rd ra rb : FReg)
  | fmul (rd ra rb : FReg)
  | fdiv (rd ra rb : FReg)
  | finv (rd ra : FReg)
  | ftst (ra : FReg)
  | fnze (rd : FReg) (imm : Nat)
  | fmax
  | fget (ra : FReg)
  | pclr (rd : PReg)
  | pmov (rd ra : PReg)
  | psetc (rd : PReg) (ra : FReg) (imm : Nat)
  | pgetc (rd : FReg) (ra : PReg) (imm : Nat)
  | pdeg (ra : PReg)
  | ptst (ra : PReg)
  | padd (rd ra rb : PReg)
  | psub (rd ra rb : PReg)
  | pmul (rd ra rb : PReg)
  | pscl (rd ra : PReg) (rb : FReg)
  | pdivrem (rd rc ra rb : PReg)
  | pshr (rd ra : PReg) (imm : Nat)
  | phgcd (ra rb : PReg)
  | pfgcd (rd ra rb : PReg)
  | mapply (rd rc ra rb : PReg)
  | mget (rd : PReg) (imm : Nat)
  | qget (rd : PReg) (imm : Nat)
  | pinv (rd ra rb : PReg)
  | ksetr (imm : Nat)
  | pmodf (rd : PReg)
  | rmul (rd ra rb : PReg)
  | rinv (rd ra : PReg)
  | ksetw (imm : Nat)
  | vinit (b : Buf) (imm : Nat)
  | vsete (b : Buf) (ra : FReg) (imm : Nat)
  | vgete (rd : FReg) (b : Buf) (imm : Nat)
  | vwt (b : Buf)
  | p2v (b : Buf) (ra : PReg) (imm : Nat)
  | v2p (rd : PReg) (b : Buf)
  | kder
  | encodeMsg
  | synd
  | dstep
  | decodeCw (imm : Nat)
  deriving DecidableEq, Repr

end Sys2Proof
end

