-- ==== Sys2Proof/Machine/State.lean ====
section
/-! DEFINITION. The state of the block (10_state.md), the host's pending actions, the reasons a step can stop. -/

namespace Sys2Proof.Machine

/-- A 2×2 matrix of polynomials (R22). -/
structure Mat where
  m00 : Poly
  m01 : Poly
  m10 : Poly
  m11 : Poly
  deriving DecidableEq, Repr

/-- The error kinds (R240), codes 1 to 8 in this order. -/
inductive ErrorKind where
  /-- Code 1: polynomial or field division by zero. -/
  | divisionByZero
  /-- Code 2: encoder, decoder or key derivation given a vector of wrong length. -/
  | incorrectInputVectorLength
  /-- Code 3: field constructor given an integer ≥ 2^N. -/
  | incorrectValueRange
  /-- Code 4: weight greater than length. -/
  | impossibleHammingWeight
  /-- Code 5: the post-inversion sanity check failed. -/
  | inverterBug
  /-- Code 6: the word is no command. -/
  | illegalCommand
  /-- Code 7: a result or a requested length does not fit its container. -/
  | capacityExceeded
  /-- Code 8: an operand value outside the command's domain. -/
  | illegalOperand
  deriving DecidableEq, Repr

/-- What the host can do, each only between commands (R232). -/
inductive HostAction where
  /-- Issue(w): hand the engine one command word. -/
  | issue (w : Word)
  /-- ReadCSR(n): read the CSR numbered n. -/
  | readCsr (n : BitVec 8)
  /-- Reset: assert the hardware reset. -/
  | reset
  deriving DecidableEq, Repr

/-- The machine never stops with a fault: the spec's errors are the halted state, a next state (R241, R242), and no
behaviour is undefined (93_implementation_defined.md). So there is no fault, and nobody raises one: safe. -/
inductive Fault where
  deriving DecidableEq, Repr

/-- Why the model would have no answer. -/
inductive Refusal where
  /-- Raised by an arm of `exec` whose command has no meaning yet; safe. No arm does: every command is modelled. -/
  | notModelled (mnemonic : String)
  deriving DecidableEq, Repr

/-- The state: every item of 10_state.md, the parameters (R5, R36; log entry 1) and the host's side of the command port
(R232; log entries 2 and 3). QCNT and LEN[b] are views (R34, R37), computed where they are read. -/
structure State where
  /-- The parameters N, POLY, NZ, RMAX (R5); changed by no command and no reset (R36). -/
  cfg : Params
  /-- Field registers f0 … f15 (R20). -/
  f : Vector Elem 16
  /-- Polynomial registers p0 … p15 (R21). -/
  p : Vector Poly 16
  /-- The transform matrix M (R22). -/
  m : Mat
  /-- The quotient sequence QSEQ (R23). -/
  qseq : List Poly
  /-- Buffer MSG, the message (R24). -/
  msg : Vec
  /-- Buffer CW, the codeword or received word (R24). -/
  cw : Vec
  /-- Buffer SY, the syndrome (R24). -/
  sy : Vec
  /-- Buffer EV, the error vector (R24). -/
  ev : Vec
  /-- Buffer H0, private row h0 (R24). -/
  h0 : Vec
  /-- Buffer H1, private row h1 (R24). -/
  h1 : Vec
  /-- Buffer G, public row g (R24). -/
  g : Vec
  /-- STATUS.ERR (R27): none is code 0; the engine is halted exactly when it is not none (R242). -/
  err : Option ErrorKind
  /-- STATUS.Z (R27): the last tested value was zero. -/
  z : Bool
  /-- STATUS.O (R27): the last tested value was one. -/
  o : Bool
  /-- STATUS.NOINV (R27). -/
  noinv : Bool
  /-- STATUS.DFAIL (R27). -/
  dfail : Bool
  /-- STATUS.KREJ (R27). -/
  krej : Bool
  /-- DOUT (R28). -/
  dout : Word
  /-- R, the block size, 0 while not set (R30). -/
  r : BitVec 16
  /-- W, the block weight (R31). -/
  w : BitVec 16
  /-- OMEGA (R32). -/
  omega : BitVec 16
  /-- ITER (R33). -/
  iter : BitVec 16
  /-- ERRCMD (R29). -/
  errcmd : Word
  /-- JSTAR (R35). -/
  jstar : BitVec 16
  /-- ASTAR (R35). -/
  astar : BitVec 16
  /-- SIGMA, two's complement (R35). -/
  sigma : Word
  /-- The command index: command words accepted since reset (R40). -/
  cix : Nat
  /-- The host's actions not yet taken, the next one first. DESIGN CHOICE, log entry 2. -/
  pending : List HostAction
  /-- The word the last ReadCSR returned (R234). DESIGN CHOICE, log entry 3. -/
  rdata : Word
  deriving DecidableEq, Repr

/-- The state after reset for given parameters (R42), no host action pending. -/
def State.resetWith (P : Params) : State where
  cfg := P
  f := Vector.replicate 16 0
  p := Vector.replicate 16 []
  m := { m00 := [1], m01 := [], m10 := [], m11 := [1] }
  qseq := []
  msg := []
  cw := []
  sy := []
  ev := []
  h0 := []
  h1 := []
  g := []
  err := none
  z := false
  o := false
  noinv := false
  dfail := false
  krej := false
  dout := 0
  r := 0
  w := 0
  omega := 0
  iter := 0
  errcmd := 0
  jstar := 0
  astar := 0
  sigma := 0
  cix := 0
  pending := []
  rdata := 0

/-- The state after reset (R42, R270) of the concrete instance (R5). -/
def State.reset : State := State.resetWith Params.gf4

end Sys2Proof.Machine
end

