-- ==== Sys2Proof/Machine/Flags.lean ====
section
/-! DEFINITION. The STATUS flags and the error codes (10_state.md R27, R41; 60_exceptions.md R240). -/

namespace Sys2Proof.Machine

/-- code(E) (R240). -/
def ErrorKind.code : ErrorKind → Nat
  | .divisionByZero => 1
  | .incorrectInputVectorLength => 2
  | .incorrectValueRange => 3
  | .impossibleHammingWeight => 4
  | .inverterBug => 5
  | .illegalCommand => 6
  | .capacityExceeded => 7
  | .illegalOperand => 8

/-- STATUS.ERR, 0 for no error (R27). -/
def errCode : Option ErrorKind → Nat
  | none => 0
  | some e => e.code

/-- Z and O from a test (R113, R132). -/
def State.setZO (s : State) (isZero isOne : Bool) : State := { s with z := isZero, o := isOne }

/-- NOINV <- b (R161, R174). -/
def State.setNoinv (s : State) (b : Bool) : State := { s with noinv := b }

/-- DFAIL <- b (R211). -/
def State.setDfail (s : State) (b : Bool) : State := { s with dfail := b }

/-- KREJ <- b (R207). -/
def State.setKrej (s : State) (b : Bool) : State := { s with krej := b }

/-- The STATUS word (R27): ERR in [3:0], Z, O, NOINV, DFAIL, KREJ in bits 4 … 8, the rest 0. -/
def State.status (s : State) : Word :=
  BitVec.ofNat 32 (errCode s.err + s.z.toNat * 2 ^ 4 + s.o.toNat * 2 ^ 5 + s.noinv.toNat * 2 ^ 6 +
    s.dfail.toNat * 2 ^ 7 + s.krej.toNat * 2 ^ 8)

end Sys2Proof.Machine
end

