-- ==== Sys2Proof/WellFormed.lean ====
section
/-! DEFINITION. The check on a command's operands: the immediate fits its 16-bit field (R82, R84). Register numbers
and buffer ids are in range by their types (R83). -/

namespace Sys2Proof

/-- imm16 is an unsigned 16-bit integer, 0 … 65535 (R82, R84). -/
def immOk (imm : Nat) : Bool := decide (imm < 65536)

/-- A command is well formed when some command word encodes it: every immediate fits 16 bits. -/
def Instr.wellFormed : Instr → Bool
  | .nop => true
  | .sreset => true
  | .fli _ imm => immOk imm
  | .fmov _ _ => true
  | .fadd _ _ _ => true
  | .fsub _ _ _ => true
  | .fmul _ _ _ => true
  | .fdiv _ _ _ => true
  | .finv _ _ => true
  | .ftst _ => true
  | .fnze _ imm => immOk imm
  | .fmax => true
  | .fget _ => true
  | .pclr _ => true
  | .pmov _ _ => true
  | .psetc _ _ imm => immOk imm
  | .pgetc _ _ imm => immOk imm
  | .pdeg _ => true
  | .ptst _ => true
  | .padd _ _ _ => true
  | .psub _ _ _ => true
  | .pmul _ _ _ => true
  | .pscl _ _ _ => true
  | .pdivrem _ _ _ _ => true
  | .pshr _ _ imm => immOk imm
  | .phgcd _ _ => true
  | .pfgcd _ _ _ => true
  | .mapply _ _ _ _ => true
  | .mget _ imm => immOk imm
  | .qget _ imm => immOk imm
  | .pinv _ _ _ => true
  | .ksetr imm => immOk imm
  | .pmodf _ => true
  | .rmul _ _ _ => true
  | .rinv _ _ => true
  | .ksetw imm => immOk imm
  | .vinit _ imm => immOk imm
  | .vsete _ _ imm => immOk imm
  | .vgete _ _ imm => immOk imm
  | .vwt _ => true
  | .p2v _ _ imm => immOk imm
  | .v2p _ _ => true
  | .kder => true
  | .encodeMsg => true
  | .synd => true
  | .dstep => true
  | .decodeCw imm => immOk imm

end Sys2Proof
end

