-- ==== Sys2Proof/Decode.lean ====
section
/-! DEFINITION. Decoding a command word (R80–R86, R89) and encoding a command (R81, R82, R85). -/

namespace Sys2Proof

/-- Why a word is illegal (R86). All three raise IllegalCommand. -/
inductive DecodeError where
  /-- R86 (a): the opcode is not one of the 47. -/
  | unassignedOpcode
  /-- R86 (b): a must-be-zero field, or bits [7:0] of format R, is not zero. -/
  | nonzeroField
  /-- R86 (c): a buffer field holds 7 … 15. -/
  | badBuffer
  deriving DecidableEq, Repr

/-! ## Fields of a word, read as unsigned integers (R7, R81, R82) -/

/-- w[31:24] -/
def opField (w : Word) : Nat := w.toNat / 2 ^ 24

/-- A four-bit field whose lowest bit is `lo`. -/
def nibble (w : Word) (lo : Nat) : Fin 16 := ⟨w.toNat / 2 ^ lo % 16, Nat.mod_lt _ (by decide)⟩

/-- w[23:20] -/
def rdField (w : Word) : Fin 16 := nibble w 20

/-- w[19:16] -/
def raField (w : Word) : Fin 16 := nibble w 16

/-- w[15:12] -/
def rbField (w : Word) : Fin 16 := nibble w 12

/-- w[11:8] -/
def rcField (w : Word) : Fin 16 := nibble w 8

/-- w[15:0], zero-extended (R84). -/
def immField (w : Word) : Nat := w.toNat % 2 ^ 16

/-- The buffer of an id, none for 7 … 15 (R83). -/
def bufOfId : Nat → Option Buf
  | 0 => some .msg
  | 1 => some .cw
  | 2 => some .sy
  | 3 => some .ev
  | 4 => some .h0
  | 5 => some .h1
  | 6 => some .g
  | _ => none

/-- The id of a buffer (R24). -/
def bufId : Buf → Nat
  | .msg => 0
  | .cw => 1
  | .sy => 2
  | .ev => 3
  | .h0 => 4
  | .h1 => 5
  | .g => 6

/-! ## The must-be-zero fields of each operand shape, then the command (R81–R83, R89 step 2) -/

/-- The command when its must-be-zero fields are zero. -/
def whenZero (zeros : Bool) (i : Except DecodeError Instr) : Except DecodeError Instr :=
  if zeros then i else .error .nonzeroField

/-- No operand: bits [23:0] zero. -/
def shapeNone (w : Word) (i : Instr) : Except DecodeError Instr :=
  whenZero (w.toNat % 2 ^ 24 == 0) (.ok i)

/-- Format R with rd: bits [19:0] zero. -/
def shapeD (w : Word) (k : Fin 16 → Instr) : Except DecodeError Instr :=
  whenZero (w.toNat % 2 ^ 20 == 0) (.ok (k (rdField w)))

/-- Format R with ra: bits [23:20] and [15:0] zero. -/
def shapeA (w : Word) (k : Fin 16 → Except DecodeError Instr) : Except DecodeError Instr :=
  whenZero (rdField w == 0 && w.toNat % 2 ^ 16 == 0) (k (raField w))

/-- Format R with rd, ra: bits [15:0] zero. -/
def shapeDA (w : Word) (k : Fin 16 → Fin 16 → Except DecodeError Instr) : Except DecodeError Instr :=
  whenZero (w.toNat % 2 ^ 16 == 0) (k (rdField w) (raField w))

/-- Format R with ra, rb: bits [23:20] and [11:0] zero. -/
def shapeAB (w : Word) (k : Fin 16 → Fin 16 → Instr) : Except DecodeError Instr :=
  whenZero (rdField w == 0 && w.toNat % 2 ^ 12 == 0) (.ok (k (raField w) (rbField w)))

/-- Format R with rd, ra, rb: bits [11:0] zero. -/
def shapeDAB (w : Word) (k : Fin 16 → Fin 16 → Fin 16 → Instr) : Except DecodeError Instr :=
  whenZero (w.toNat % 2 ^ 12 == 0) (.ok (k (rdField w) (raField w) (rbField w)))

/-- Format R with rd, rc, ra, rb: bits [7:0] zero. -/
def shapeDCAB (w : Word) (k : Fin 16 → Fin 16 → Fin 16 → Fin 16 → Instr) : Except DecodeError Instr :=
  whenZero (w.toNat % 2 ^ 8 == 0) (.ok (k (rdField w) (rcField w) (raField w) (rbField w)))

/-- Format I with imm16 alone: bits [23:16] zero. -/
def shapeI (w : Word) (k : Nat → Instr) : Except DecodeError Instr :=
  whenZero (rdField w == 0 && raField w == 0) (.ok (k (immField w)))

/-- Format I with rd and imm16: bits [19:16] zero. -/
def shapeDI (w : Word) (k : Fin 16 → Nat → Except DecodeError Instr) : Except DecodeError Instr :=
  whenZero (raField w == 0) (k (rdField w) (immField w))

/-- Format I with rd, ra and imm16: no must-be-zero field. -/
def shapeDAI (w : Word) (k : Fin 16 → Fin 16 → Nat → Except DecodeError Instr) : Except DecodeError Instr :=
  k (rdField w) (raField w) (immField w)

/-- A field of kind b (R83, R89 step 4). -/
def withBuf (x : Fin 16) (k : Buf → Instr) : Except DecodeError Instr :=
  match bufOfId x.val with
  | some b => .ok (k b)
  | none => .error .badBuffer

/-- Decode a command word (R85, R89). Total; reads no state. -/
def decode (w : Word) : Except DecodeError Instr :=
  match opField w with
  | 0x00 => shapeNone w .nop
  | 0x01 => shapeNone w .sreset
  | 0x10 => shapeDI w fun d i => .ok (.fli d i)
  | 0x11 => shapeDA w fun d a => .ok (.fmov d a)
  | 0x12 => shapeDAB w .fadd
  | 0x13 => shapeDAB w .fsub
  | 0x14 => shapeDAB w .fmul
  | 0x15 => shapeDAB w .fdiv
  | 0x16 => shapeDA w fun d a => .ok (.finv d a)
  | 0x17 => shapeA w fun a => .ok (.ftst a)
  | 0x18 => shapeDI w fun d i => .ok (.fnze d i)
  | 0x19 => shapeNone w .fmax
  | 0x1A => shapeA w fun a => .ok (.fget a)
  | 0x20 => shapeD w .pclr
  | 0x21 => shapeDA w fun d a => .ok (.pmov d a)
  | 0x22 => shapeDAI w fun d a i => .ok (.psetc d a i)
  | 0x23 => shapeDAI w fun d a i => .ok (.pgetc d a i)
  | 0x24 => shapeA w fun a => .ok (.pdeg a)
  | 0x25 => shapeA w fun a => .ok (.ptst a)
  | 0x26 => shapeDAB w .padd
  | 0x27 => shapeDAB w .psub
  | 0x28 => shapeDAB w .pmul
  | 0x29 => shapeDAB w .pscl
  | 0x2A => shapeDCAB w .pdivrem
  | 0x2B => shapeDAI w fun d a i => .ok (.pshr d a i)
  | 0x30 => shapeAB w .phgcd
  | 0x31 => shapeDAB w .pfgcd
  | 0x32 => shapeDCAB w .mapply
  | 0x33 => shapeDI w fun d i => .ok (.mget d i)
  | 0x34 => shapeDI w fun d i => .ok (.qget d i)
  | 0x35 => shapeDAB w .pinv
  | 0x40 => shapeI w .ksetr
  | 0x41 => shapeD w .pmodf
  | 0x42 => shapeDAB w .rmul
  | 0x43 => shapeDA w fun d a => .ok (.rinv d a)
  | 0x50 => shapeI w .ksetw
  | 0x51 => shapeDI w fun d i => withBuf d fun b => .vinit b i
  | 0x52 => shapeDAI w fun d a i => withBuf d fun b => .vsete b a i
  | 0x53 => shapeDAI w fun d a i => withBuf a fun b => .vgete d b i
  | 0x54 => shapeA w fun a => withBuf a fun b => .vwt b
  | 0x55 => shapeDAI w fun d a i => withBuf d fun b => .p2v b a i
  | 0x56 => shapeDA w fun d a => withBuf a fun b => .v2p d b
  | 0x58 => shapeNone w .kder
  | 0x59 => shapeNone w .encodeMsg
  | 0x5A => shapeNone w .synd
  | 0x5B => shapeNone w .dstep
  | 0x5C => shapeI w .decodeCw
  | _ => .error .unassignedOpcode

/-! ## The encoder -/

/-- A format R word: opcode ‖ rd ‖ ra ‖ rb ‖ rc ‖ 0x00 (R81). -/
def wordR (op rd ra rb rc : Nat) : Word :=
  BitVec.ofNat 32 (op * 2 ^ 24 + rd * 2 ^ 20 + ra * 2 ^ 16 + rb * 2 ^ 12 + rc * 2 ^ 8)

/-- A format I word: opcode ‖ rd ‖ ra ‖ imm16 (R82). -/
def wordI (op rd ra imm : Nat) : Word :=
  BitVec.ofNat 32 (op * 2 ^ 24 + rd * 2 ^ 20 + ra * 2 ^ 16 + imm % 2 ^ 16)

/-- The command word of a command (R85). For a well-formed command it is the one word that decodes to it, so it is
also what ERRCMD records when the command raises (R29, R241). -/
def encode : Instr → Word
  | .nop => wordR 0x00 0 0 0 0
  | .sreset => wordR 0x01 0 0 0 0
  | .fli rd imm => wordI 0x10 rd 0 imm
  | .fmov rd ra => wordR 0x11 rd ra 0 0
  | .fadd rd ra rb => wordR 0x12 rd ra rb 0
  | .fsub rd ra rb => wordR 0x13 rd ra rb 0
  | .fmul rd ra rb => wordR 0x14 rd ra rb 0
  | .fdiv rd ra rb => wordR 0x15 rd ra rb 0
  | .finv rd ra => wordR 0x16 rd ra 0 0
  | .ftst ra => wordR 0x17 0 ra 0 0
  | .fnze rd imm => wordI 0x18 rd 0 imm
  | .fmax => wordR 0x19 0 0 0 0
  | .fget ra => wordR 0x1A 0 ra 0 0
  | .pclr rd => wordR 0x20 rd 0 0 0
  | .pmov rd ra => wordR 0x21 rd ra 0 0
  | .psetc rd ra imm => wordI 0x22 rd ra imm
  | .pgetc rd ra imm => wordI 0x23 rd ra imm
  | .pdeg ra => wordR 0x24 0 ra 0 0
  | .ptst ra => wordR 0x25 0 ra 0 0
  | .padd rd ra rb => wordR 0x26 rd ra rb 0
  | .psub rd ra rb => wordR 0x27 rd ra rb 0
  | .pmul rd ra rb => wordR 0x28 rd ra rb 0
  | .pscl rd ra rb => wordR 0x29 rd ra rb 0
  | .pdivrem rd rc ra rb => wordR 0x2A rd ra rb rc
  | .pshr rd ra imm => wordI 0x2B rd ra imm
  | .phgcd ra rb => wordR 0x30 0 ra rb 0
  | .pfgcd rd ra rb => wordR 0x31 rd ra rb 0
  | .mapply rd rc ra rb => wordR 0x32 rd ra rb rc
  | .mget rd imm => wordI 0x33 rd 0 imm
  | .qget rd imm => wordI 0x34 rd 0 imm
  | .pinv rd ra rb => wordR 0x35 rd ra rb 0
  | .ksetr imm => wordI 0x40 0 0 imm
  | .pmodf rd => wordR 0x41 rd 0 0 0
  | .rmul rd ra rb => wordR 0x42 rd ra rb 0
  | .rinv rd ra => wordR 0x43 rd ra 0 0
  | .ksetw imm => wordI 0x50 0 0 imm
  | .vinit b imm => wordI 0x51 (bufId b) 0 imm
  | .vsete b ra imm => wordI 0x52 (bufId b) ra imm
  | .vgete rd b imm => wordI 0x53 rd (bufId b) imm
  | .vwt b => wordR 0x54 0 (bufId b) 0 0
  | .p2v b ra imm => wordI 0x55 (bufId b) ra imm
  | .v2p rd b => wordR 0x56 rd (bufId b) 0 0
  | .kder => wordR 0x58 0 0 0 0
  | .encodeMsg => wordR 0x59 0 0 0 0
  | .synd => wordR 0x5A 0 0 0 0
  | .dstep => wordR 0x5B 0 0 0 0
  | .decodeCw imm => wordI 0x5C 0 0 imm

/-- The word whose low `nbits` bits are those of `w`, all above zero (numbered as the opcode table numbers them). -/
def tableWord (nbits w : Nat) : Word := BitVec.ofNat 32 (w % 2 ^ nbits)

/-- The command the decoder reads from a word of the opcode table, none where it refuses. -/
def decodeTableWord (nbits w : Nat) : Option Instr :=
  match decode (tableWord nbits w) with
  | .ok i => some i
  | .error _ => none

end Sys2Proof
end

