-- ==== Sys2Proof/Machine/FieldUnit.lean ====
section
/-! DEFINITION. The field GF(2^N): addition, multiplication, inverse, division (40_field.md section 1). -/

namespace Sys2Proof.Machine

/-- a + b = a − b = a xor b (R101). -/
def fplus (a b : Elem) : Elem := a ^^^ b

/-- The carry-less product of `a` with the low `k` bits of `b` (R104, first loop). -/
def clmul (a b : Nat) : Nat → Nat
  | 0 => 0
  | k + 1 => clmul a b k ^^^ (if b.testBit k then a <<< k else 0)

/-- Reduction modulo POLY of bits n+k−1 down to n, highest first (R104, second loop). -/
def reduceBits (n poly : Nat) : Nat → Nat → Nat
  | 0, v => v
  | k + 1, v => reduceBits n poly k (if v.testBit (n + k) then v ^^^ (poly <<< k) else v)

/-- a · b (R104); for N = 2, POLY = 7 it is the table of R102. -/
def fmul (P : Params) (a b : Elem) : Elem := reduceBits P.n P.poly (P.n - 1) (clmul a b P.n)

/-- The unique c in 1 … 2^N − 1 with c · b = 1 (R104). For b = 0, where the spec defines none, every caller has
raised DivisionByZero before. -/
def finvOf (P : Params) (b : Elem) : Elem :=
  ((List.range P.card).find? fun c => fmul P c b == 1).getD 0

/-- a / b for b ≠ 0 (R103, R104). -/
def fquot (P : Params) (a b : Elem) : Elem := fmul P a (finvOf P b)

/-- Σ over a list of terms, in F. -/
def fsum (terms : List Elem) : Elem := terms.foldr fplus 0

end Sys2Proof.Machine
end

