-- ==== Sys2Proof/Machine/PolyUnit.lean ====
section
/-! DEFINITION. Polynomials over F: canonical form, ring operations, Euclidean division (41_poly.md section 1). -/

namespace Sys2Proof.Machine

/-- The canonical form of a coefficient list: trailing zeros dropped (R120). -/
def canon : List Elem → Poly
  | [] => []
  | c :: cs =>
    match canon cs with
    | [] => if c = 0 then [] else [c]
    | d :: ds => c :: d :: ds

/-- The coefficient of x^i, 0 above the degree (R9). -/
def coef (a : Poly) (i : Nat) : Elem := a.getD i 0

/-- The degree, with deg [] = 0 (R121). -/
def deg (a : Poly) : Nat := a.length - 1

/-- The leading coefficient of a canonical polynomial. -/
def lead (a : Poly) : Elem := coef a (deg a)

/-- Coefficientwise sum of two lists, the longer one's tail kept. -/
def addRaw : List Elem → List Elem → List Elem
  | [], b => b
  | a, [] => a
  | x :: a, y :: b => fplus x y :: addRaw a b

/-- P + Q = P − Q (R122). -/
def polyAdd (a b : Poly) : Poly := canon (addRaw a b)

/-- s · P (R124). -/
def polyScale (P : Params) (s : Elem) (a : Poly) : Poly := canon (a.map (fmul P s))

/-- The list of the sums Σ_{i + j = k} a_i · b_j, not yet canonical. -/
def mulRaw (P : Params) : List Elem → List Elem → List Elem
  | [], _ => []
  | x :: a, b => addRaw (b.map (fmul P x)) (0 :: mulRaw P a b)

/-- P · Q (R123). -/
def polyMul (P : Params) (a b : Poly) : Poly := canon (mulRaw P a b)

/-- x^k · P. -/
def polyShl (k : Nat) (a : Poly) : Poly := if a = [] then [] else List.replicate k 0 ++ a

/-- P div x^k: the first k coefficients dropped (R126). -/
def polyShr (k : Nat) (a : Poly) : Poly := a.drop k

/-- P with its coefficient of x^i replaced by v, canonical (R129). -/
def setCoef (a : Poly) (i : Nat) (v : Elem) : Poly :=
  canon ((a ++ List.replicate (i + 1 - a.length) 0).set i v)

/-- Schoolbook long division by b (R125): `q` the quotient so far, `r` the remainder so far; the first argument bounds
the turns, and the degree of `r` drops every turn. -/
def divLoop (P : Params) (b : Poly) : Nat → Poly → Poly → Poly × Poly
  | 0, q, r => (q, r)
  | k + 1, q, r =>
    if r = [] ∨ deg r < deg b then (q, r)
    else
      divLoop P b k (setCoef q (deg r - deg b) (fquot P (lead r) (lead b)))
        (polyAdd r (polyShl (deg r - deg b) (polyScale P (fquot P (lead r) (lead b)) b)))

/-- div_rem(a, b) for b ≠ [] (R125): quotient and remainder. -/
def divRem (P : Params) (a b : Poly) : Poly × Poly := divLoop P b a.length [] a

/-- x^r + 1 = x^r − 1, the ring modulus: `[1, 0, …, 0, 1]` of length r + 1 (R170); x^0 + 1 = 0. -/
def ringModulus : Nat → Poly
  | 0 => []
  | r + 1 => 1 :: (List.replicate r 0 ++ [1])

/-- The polynomial of a vector (R180). -/
def polyOfVec (v : Vec) : Poly := canon v

/-- The vector of a polynomial at a length: coefficients 0 … len − 1 (R180). -/
def vecOfPoly (a : Poly) (len : Nat) : Vec := (List.range len).map (coef a)

end Sys2Proof.Machine
end

