-- ==== Sys2Proof/Machine/GcdUnit.lean ====
section
/-! DEFINITION. Euclidean remainder sequence, half-GCD, full extended GCD, modular inverse (42_gcd.md section 1). -/

namespace Sys2Proof.Machine

/-- The identity matrix, P₀ (R151). -/
def matId : Mat := { m00 := [1], m01 := [], m10 := [], m11 := [1] }

/-- Q(q) = ((q, 1), (1, 0)) (R151). -/
def stepMat (q : Poly) : Mat := { m00 := q, m01 := [1], m10 := [1], m11 := [] }

/-- The matrix product over F[x] (R151). -/
def matMul (P : Params) (x y : Mat) : Mat where
  m00 := polyAdd (polyMul P x.m00 y.m00) (polyMul P x.m01 y.m10)
  m01 := polyAdd (polyMul P x.m00 y.m01) (polyMul P x.m01 y.m11)
  m10 := polyAdd (polyMul P x.m10 y.m00) (polyMul P x.m11 y.m10)
  m11 := polyAdd (polyMul P x.m10 y.m01) (polyMul P x.m11 y.m11)

/-- The adjugate in characteristic 2 (R151). -/
def matAdj (x : Mat) : Mat := { m00 := x.m11, m01 := x.m01, m10 := x.m10, m11 := x.m00 }

/-- X · (A, B)ᵀ. -/
def matApply (P : Params) (x : Mat) (a b : Poly) : Poly × Poly :=
  (polyAdd (polyMul P x.m00 a) (polyMul P x.m01 b), polyAdd (polyMul P x.m10 a) (polyMul P x.m11 b))

/-- apply_adj(M, A, B) = (m11·A + m01·B, m10·A + m00·B) (R151). -/
def applyAdj (P : Params) (x : Mat) (a b : Poly) : Poly × Poly := matApply P (matAdj x) a b

/-- det M = m00·m11 + m01·m10 (R162). -/
def matDet (P : Params) (x : Mat) : Poly := polyAdd (polyMul P x.m00 x.m11) (polyMul P x.m01 x.m10)

/-- The forward matrix P_j = Q(q₁) · … · Q(q_j) of a quotient sequence (R151). -/
def forwardMat (P : Params) (qs : List Poly) : Mat := qs.foldl (fun x q => matMul P x (stepMat q)) matId

/-- The Euclidean sequence of (a, b): its quotients and the last non-zero remainder (R150). The first argument bounds
the number of quotients, at most deg b + 1. -/
def euclidLoop (P : Params) : Nat → Poly → Poly → List Poly × Poly
  | 0, a, _ => ([], a)
  | k + 1, a, b =>
    if b = [] then ([], a)
    else
      ((divRem P a b).1 :: (euclidLoop P k b (divRem P a b).2).1, (euclidLoop P k b (divRem P a b).2).2)

/-- The whole Euclidean sequence of (a, b) (R150). -/
def euclid (P : Params) (a b : Poly) : List Poly × Poly := euclidLoop P b.length a b

/-- The shortest prefix of the quotient sequence of (a, b) after which the second remainder has degree below m
(R152). The first argument bounds the number of quotients. -/
def halfLoop (P : Params) (m : Nat) : Nat → Poly → Poly → List Poly
  | 0, _, _ => []
  | k + 1, a, b =>
    if deg b < m then [] else (divRem P a b).1 :: halfLoop P m k b (divRem P a b).2

/-- m = ⌈(deg A + 1) / 2⌉ (R152). -/
def halfBound (a : Poly) : Nat := (deg a + 2) / 2

/-- half_gcd(A, B): quotient prefix and forward matrix (R152). -/
def halfGcd (P : Params) (a b : Poly) : List Poly × Mat :=
  (halfLoop P (halfBound a) b.length a b, forwardMat P (halfLoop P (halfBound a) b.length a b))

/-- The result of full_gcd (R154). -/
structure FullGcd where
  seq : List Poly
  t : Mat
  gcd : Poly
  deriving DecidableEq, Repr

/-- full_gcd(A, B): whole quotient sequence, reducing matrix adj(P_n), gcd (R154). -/
def fullGcd (P : Params) (a b : Poly) : FullGcd where
  seq := (euclid P a b).1
  t := matAdj (forwardMat P (euclid P a b).1)
  gcd := (euclid P a b).2

/-- invert(p, mod) for mod ≠ [] (R155): none when there is no inverse. -/
def invert (P : Params) (a modulus : Poly) : Option Poly :=
  let b := (divRem P a modulus).2
  if b = [] then none
  else
    let e := fullGcd P modulus b
    if 0 < deg e.gcd then none else some (polyScale P (finvOf P (coef e.gcd 0)) e.t.m01)

end Sys2Proof.Machine
end

