-- ==== Sys2Proof/Machine/CodecUnit.lean ====
section
/-! DEFINITION. Key derivation, encoder, syndrome, gain, selection and flip on vectors (45_codec.md section 1). -/

namespace Sys2Proof.Machine

/-- wt(v), the number of non-zero entries (R9, R180). -/
def weight (v : Vec) : Nat := v.countP (· ≠ 0)

/-- v[i]; the callers' length tests keep i below the length. -/
def elemAt (v : Vec) (i : Nat) : Elem := v.getD i 0

/-- (j − p) mod r, non-negative, for p ≤ r (R7). -/
def subMod (j p r : Nat) : Nat := (j + r - p) % r

/-- The zero vector of a length. -/
def zeroVec (len : Nat) : Vec := List.replicate len 0

/-- What `derive` returns (R200). -/
inductive Derived where
  | reject
  | inverterBug
  | key (g : Vec)
  deriving DecidableEq, Repr

/-- derive(h0, h1, r): the deterministic part of key generation, sanity check included (R200). -/
def derive (P : Params) (h0 h1 : Vec) (r : Nat) : Derived :=
  if fsum h1 = 0 then .reject
  else
    match invert P (polyOfVec h1) (ringModulus r) with
    | none => .reject
    | some inv =>
      if (divRem P (polyMul P (polyOfVec h1) inv) (ringModulus r)).2 ≠ [1] then .inverterBug
      else .key (vecOfPoly (divRem P (polyMul P (polyOfVec h0) inv) (ringModulus r)).2 r)

/-- c[r + p] = Σ_j m[j] · g[(j − p) mod r] (R201). -/
def parityAt (P : Params) (msg g : Vec) (r p : Nat) : Elem :=
  fsum ((List.range r).map fun j => fmul P (elemAt msg j) (elemAt g (subMod j p r)))

/-- encode(m, g): the message, then the parity part (R201). -/
def encodeVec (P : Params) (msg g : Vec) (r : Nat) : Vec :=
  (List.range r).map (elemAt msg) ++ (List.range r).map (parityAt P msg g r)

/-- S[p], the syndrome element s_{r−p} (R202). -/
def syndromeAt (P : Params) (h0 h1 v : Vec) (r p : Nat) : Elem :=
  fplus (fsum ((List.range r).map fun j => fmul P (elemAt h0 (subMod j p r)) (elemAt v j)))
    (fsum ((List.range r).map fun j => fmul P (elemAt h1 (subMod j p r)) (elemAt v (r + j))))

/-- syndrome(v) (R202). -/
def syndromeVec (P : Params) (h0 h1 v : Vec) (r : Nat) : Vec :=
  (List.range r).map (syndromeAt P h0 h1 v r)

/-- hcol(j, p) = h_block[(k − p) mod r] (R203). -/
def hcol (h0 h1 : Vec) (r j p : Nat) : Elem :=
  if j < r then elemAt h0 (subMod j p r) else elemAt h1 (subMod (j - r) p r)

/-- S after adding a to position j: S[p] − a · hcol(j, p) for every p (R203, R205). -/
def flipSyndrome (P : Params) (h0 h1 : Vec) (r : Nat) (s : Vec) (j : Nat) (a : Elem) : Vec :=
  (List.range r).map fun p => fplus (elemAt s p) (fmul P a (hcol h0 h1 r j p))

/-- The number of zero elements among the first r. -/
def zeroCount (r : Nat) (s : Vec) : Nat := (List.range r).countP fun p => elemAt s p = 0

/-- σ(j, a): zeros of the flipped syndrome less zeros of the syndrome (R203). -/
def gain (P : Params) (h0 h1 : Vec) (r : Nat) (s : Vec) (j : Nat) (a : Elem) : Int :=
  (zeroCount r (flipSyndrome P h0 h1 r s j a) : Int) - (zeroCount r s : Int)

/-- A selected pair with its gain (R204, R205). -/
structure Selection where
  j : Nat
  a : Elem
  sigma : Int
  deriving DecidableEq, Repr

/-- The pairs in scan order: j ascending outer, a through NZ inner (R204). -/
def scanPairs (P : Params) (r : Nat) : List (Nat × Elem) :=
  (List.range (2 * r)).flatMap fun j => P.nz.map fun a => (j, a)

/-- One turn of the scan: the new pair is taken when there is none yet or its gain is at least the best's (R204). -/
def keepBest (P : Params) (h0 h1 : Vec) (r : Nat) (s : Vec) (best : Option Selection) (x : Nat × Elem) :
    Option Selection :=
  let cand : Selection := { j := x.1, a := x.2, sigma := gain P h0 h1 r s x.1 x.2 }
  match best with
  | none => some cand
  | some b => if b.sigma ≤ cand.sigma then some cand else some b

/-- (j*, a*): the last-scanned pair of greatest gain (R204); none only when there is no pair at all. -/
def select (P : Params) (h0 h1 : Vec) (r : Nat) (s : Vec) : Option Selection :=
  (scanPairs P r).foldl (keepBest P h0 h1 r s) none

/-- e[j] <- e[j] + a (R205). -/
def flipError (e : Vec) (j : Nat) (a : Elem) : Vec := e.set j (fplus (elemAt e j) a)

end Sys2Proof.Machine
end

