-- ==== Sys2Proof/Machine/Operands.lean ====
section
/-! DEFINITION. Operand forms (R83, R84, R236): registers, buffers, matrix entries, quotient entries, and the updates
that write them. -/

namespace Sys2Proof.Machine

/-- Read field register i (R8, R20). -/
def State.fr (s : State) (i : FReg) : Elem := s.f[i.val]

/-- f[i] <- v (R8, R20). -/
def State.setF (s : State) (i : FReg) (v : Elem) : State := { s with f := s.f.set i.val v }

/-- Read polynomial register i (R8, R21). -/
def State.pr (s : State) (i : PReg) : Poly := s.p[i.val]

/-- p[i] <- v (R8, R21). -/
def State.setP (s : State) (i : PReg) (v : Poly) : State := { s with p := s.p.set i.val v }

/-- BUF[b] (R8, R24). -/
def State.buf (s : State) : Buf → Vec
  | .msg => s.msg
  | .cw => s.cw
  | .sy => s.sy
  | .ev => s.ev
  | .h0 => s.h0
  | .h1 => s.h1
  | .g => s.g

/-- BUF[b] <- list, length and contents (R8, R24). -/
def State.setBuf (s : State) (b : Buf) (v : Vec) : State :=
  match b with
  | .msg => { s with msg := v }
  | .cw => { s with cw := v }
  | .sy => { s with sy := v }
  | .ev => { s with ev := v }
  | .h0 => { s with h0 := v }
  | .h1 => { s with h1 := v }
  | .g => { s with g := v }

/-- The capacity of a buffer (R24, R180). -/
def bufCap (P : Params) : Buf → Nat
  | .msg => P.rmax
  | .cw => 2 * P.rmax
  | .sy => P.rmax
  | .ev => 2 * P.rmax
  | .h0 => P.rmax
  | .h1 => P.rmax
  | .g => P.rmax

/-- M[imm], row-major, none above 3 (R159). -/
def Mat.entry (x : Mat) : Nat → Option Poly
  | 0 => some x.m00
  | 1 => some x.m01
  | 2 => some x.m10
  | 3 => some x.m11
  | _ => none

/-- M <- x and QSEQ <- qs (and with it QCNT, a view) (R156, R157). -/
def State.setMQ (s : State) (x : Mat) (qs : List Poly) : State := { s with m := x, qseq := qs }

/-- DOUT <- zext_32(v) (R28). -/
def State.setDout (s : State) (v : Nat) : State := { s with dout := BitVec.ofNat 32 v }

/-- R <- v (R30). -/
def State.setR (s : State) (v : Nat) : State := { s with r := BitVec.ofNat 16 v }

/-- W <- v (R31). -/
def State.setW (s : State) (v : Nat) : State := { s with w := BitVec.ofNat 16 v }

/-- OMEGA <- v (R32). -/
def State.setOmega (s : State) (v : Nat) : State := { s with omega := BitVec.ofNat 16 v }

/-- ITER <- v (R33). -/
def State.setIter (s : State) (v : Nat) : State := { s with iter := BitVec.ofNat 16 v }

/-- JSTAR, ASTAR <- the pair, SIGMA <- sext_32 of its gain (R35). -/
def State.setSel (s : State) (x : Selection) : State :=
  { s with jstar := BitVec.ofNat 16 x.j, astar := BitVec.ofNat 16 x.a, sigma := BitVec.ofInt 32 x.sigma }

/-- The block size as an integer (R30). -/
def State.bsize (s : State) : Nat := s.r.toNat

/-- The block weight as an integer (R31). -/
def State.bweight (s : State) : Nat := s.w.toNat

/-- Whether a polynomial fits a polynomial register: no coefficient at LMAX or above (R139). -/
def fits (P : Params) (a : Poly) : Bool := decide (a.length ≤ P.lmax)

end Sys2Proof.Machine
end

