-- ==== Sys2Proof/Machine/Ops.lean ====
section
/-! DEFINITION. The shared operations: raising an error, the halted state and leaving it, the CSR read port, one decoder
iteration. -/

namespace Sys2Proof.Machine

/-- The answer of a meaning or of a step. -/
abbrev Answer := Host.Outcome State Fault Refusal

/-- `raise E` by the command word w (R241): STATUS.ERR and ERRCMD, nothing else. Nothing is saved and control goes
nowhere, for there is no program counter, vector or mode. -/
def State.raise (s : State) (e : ErrorKind) (w : Word) : State := { s with err := some e, errcmd := w }

/-- A meaning's raise: the command `i` raises E (R241). -/
def raised (e : ErrorKind) (i : Instr) (s : State) : Answer := .next (s.raise e (encode i))

/-- Halted exactly when STATUS.ERR ≠ 0 (R242). -/
def State.halted (s : State) : Bool := s.err.isSome

/-- reset_state() (R42, R231, R271): every item of state at its reset value, for the same parameters (R36). The
host's own side of the port, its pending actions and the word it last read, is not the block's (log entries 2, 3). The
one way out of the halted state (R248). -/
def State.resetState (s : State) : State :=
  { State.resetWith s.cfg with pending := s.pending, rdata := s.rdata }

/-- cix <- cix + 1 (R40, R233). -/
def State.tick (s : State) : State := { s with cix := s.cix + 1 }

/-- The host's next action taken off the list (log entry 2). -/
def State.setPending (s : State) (l : List HostAction) : State := { s with pending := l }

/-- The word returned to the host on csr_rdata (R234; log entry 3). -/
def State.setRdata (s : State) (v : Word) : State := { s with rdata := v }

/-- A value in the low bits of a CSR, the bits above read as 0 (R26). -/
def csrField (width v : Nat) : Word := (BitVec.ofNat width v).setWidth 32

/-- ReadCSR(n) (R25, R26, R38, R234): the CSR map; 0 for a number not in it. -/
def readCsr (s : State) (n : Nat) : Word :=
  match n with
  | 0x00 => s.status
  | 0x01 => s.dout
  | 0x02 => s.r.setWidth 32
  | 0x03 => s.w.setWidth 32
  | 0x04 => s.omega.setWidth 32
  | 0x05 => s.iter.setWidth 32
  | 0x06 => csrField 17 s.qseq.length
  | 0x07 => s.errcmd
  | 0x08 => s.jstar.setWidth 32
  | 0x09 => s.astar.setWidth 32
  | 0x0A => s.sigma
  | 0x10 => csrField 5 s.cfg.n
  | 0x11 => csrField 17 s.cfg.poly
  | 0x12 => csrField 17 s.cfg.lmax
  | 0x13 => csrField 16 s.cfg.rmax
  | 0x20 => csrField 17 s.msg.length
  | 0x21 => csrField 17 s.cw.length
  | 0x22 => csrField 17 s.sy.length
  | 0x23 => csrField 17 s.ev.length
  | 0x24 => csrField 17 s.h0.length
  | 0x25 => csrField 17 s.h1.length
  | 0x26 => csrField 17 s.g.length
  | _ => 0

/-- invert into a polynomial register (R161, R174): NOINV tells whether there was an inverse; without one the register
keeps its value. M and QSEQ are not touched. -/
def State.putInverse (s : State) (rd : PReg) (res : Option Poly) : State :=
  match res with
  | none => s.setNoinv true
  | some q => (s.setNoinv false).setP rd q

/-- SY, OMEGA <- a syndrome and its weight (R209, R211). -/
def State.setSyndrome (s : State) (v : Vec) : State := (s.setBuf .sy v).setOmega (weight v)

/-- SY <- syndrome(CW), OMEGA <- wt(SY) (R209, R211). -/
def State.syndrome (s : State) : State :=
  s.setSyndrome (syndromeVec s.cfg s.h0 s.h1 s.cw s.bsize)

/-- The flip of a selected pair (R205): SY, EV, OMEGA, JSTAR, ASTAR, SIGMA. -/
def State.flipAt (s : State) (x : Selection) : State :=
  ((s.setSyndrome (flipSyndrome s.cfg s.h0 s.h1 s.bsize s.sy x.j x.a)).setBuf .ev (flipError s.ev x.j x.a)).setSel x

/-- One decoder iteration on SY and EV (R205, R210). There is always a selection when R ≥ 1 (R204). -/
def State.iterate (s : State) : State :=
  match select s.cfg s.h0 s.h1 s.bsize s.sy with
  | none => s
  | some x => s.flipAt x

/-- `repeat k times: iterate; ITER <- ITER + 1` (R211). No early exit (R206). -/
def State.iterateTimes : Nat → State → State
  | 0, s => s
  | k + 1, s => State.iterateTimes k (s.iterate.setIter (s.iter.toNat + 1))

end Sys2Proof.Machine
end

