-- ==== Sys2Proof/Machine/CodecCmds.lean ====
section
/-! DEFINITION. Codec commands (45_codec.md section 2). -/

namespace Sys2Proof.Machine

/-- KDER (R207). -/
def execKder (s : State) : Answer :=
  if s.bsize = 0 then raised .illegalOperand .kder s
  else if s.h0.length ≠ s.bsize ∨ s.h1.length ≠ s.bsize then raised .incorrectInputVectorLength .kder s
  else
    match derive s.cfg s.h0 s.h1 s.bsize with
    | .reject => .next (s.setKrej true)
    | .inverterBug => raised .inverterBug .kder s
    | .key g => .next ((s.setKrej false).setBuf .g g)

/-- ENCODE (R208). -/
def execEncode (s : State) : Answer :=
  if s.bsize = 0 then raised .illegalOperand .encodeMsg s
  else if s.g.length ≠ s.bsize ∨ s.msg.length ≠ s.bsize then raised .incorrectInputVectorLength .encodeMsg s
  else .next (s.setBuf .cw (encodeVec s.cfg s.msg s.g s.bsize))

/-- SYND (R209). -/
def execSynd (s : State) : Answer :=
  if s.bsize = 0 then raised .illegalOperand .synd s
  else if s.h0.length ≠ s.bsize ∨ s.h1.length ≠ s.bsize ∨ s.cw.length ≠ 2 * s.bsize then
    raised .incorrectInputVectorLength .synd s
  else .next s.syndrome

/-- DSTEP (R210). -/
def execDstep (s : State) : Answer :=
  if s.bsize = 0 then raised .illegalOperand .dstep s
  else if s.h0.length ≠ s.bsize ∨ s.h1.length ≠ s.bsize ∨ s.sy.length ≠ s.bsize ∨ s.ev.length ≠ 2 * s.bsize then
    raised .incorrectInputVectorLength .dstep s
  else .next s.iterate

/-- The start of DECODE: syndrome, zero error vector, ITER 0 (R211). -/
def State.decodeStart (s : State) : State :=
  (s.syndrome.setBuf .ev (zeroVec (2 * s.bsize))).setIter 0

/-- DECODE imm (R211). -/
def execDecode (imm : Nat) (s : State) : Answer :=
  if s.bsize = 0 then raised .illegalOperand (.decodeCw imm) s
  else if s.h0.length ≠ s.bsize ∨ s.h1.length ≠ s.bsize ∨ s.cw.length ≠ 2 * s.bsize then
    raised .incorrectInputVectorLength (.decodeCw imm) s
  else if s.decodeStart.omega = 0 then .next (s.decodeStart.setDfail false)
  else
    let t := State.iterateTimes imm s.decodeStart
    .next (t.setDfail (t.omega != 0))

end Sys2Proof.Machine
end

