-- ==== Sys2Proof/Machine/FieldCmds.lean ====
section
/-! DEFINITION. Field commands (40_field.md section 2). -/

namespace Sys2Proof.Machine

/-- FLI fd, imm (R106). -/
def execFli (rd : FReg) (imm : Nat) (s : State) : Answer :=
  if s.cfg.card ≤ imm then raised .incorrectValueRange (.fli rd imm) s
  else .next (s.setF rd imm)

/-- FMOV fd, fa (R107). -/
def execFmov (rd ra : FReg) (s : State) : Answer := .next (s.setF rd (s.fr ra))

/-- FADD fd, fa, fb (R108). -/
def execFadd (rd ra rb : FReg) (s : State) : Answer := .next (s.setF rd (fplus (s.fr ra) (s.fr rb)))

/-- FSUB fd, fa, fb: the same sum, in characteristic 2 (R109). -/
def execFsub (rd ra rb : FReg) (s : State) : Answer := .next (s.setF rd (fplus (s.fr ra) (s.fr rb)))

/-- FMUL fd, fa, fb (R110). -/
def execFmul (rd ra rb : FReg) (s : State) : Answer := .next (s.setF rd (fmul s.cfg (s.fr ra) (s.fr rb)))

/-- FDIV fd, fa, fb (R111). -/
def execFdiv (rd ra rb : FReg) (s : State) : Answer :=
  if s.fr rb = 0 then raised .divisionByZero (.fdiv rd ra rb) s
  else .next (s.setF rd (fquot s.cfg (s.fr ra) (s.fr rb)))

/-- FINV fd, fa: 1 / f[ra] (R112). -/
def execFinv (rd ra : FReg) (s : State) : Answer :=
  if s.fr ra = 0 then raised .divisionByZero (.finv rd ra) s
  else .next (s.setF rd (fquot s.cfg 1 (s.fr ra)))

/-- FTST fa: Z and O (R113). -/
def execFtst (ra : FReg) (s : State) : Answer := .next (s.setZO (s.fr ra == 0) (s.fr ra == 1))

/-- FNZE fd, imm: NZ[imm] (R114). -/
def execFnze (rd : FReg) (imm : Nat) (s : State) : Answer :=
  if s.cfg.card - 1 ≤ imm then raised .illegalOperand (.fnze rd imm) s
  else .next (s.setF rd (s.cfg.nz.getD imm 0))

/-- FMAX: DOUT <- 2^N − 1 (R115). -/
def execFmax (s : State) : Answer := .next (s.setDout (s.cfg.card - 1))

/-- FGET fa: DOUT <- f[ra] (R116). -/
def execFget (ra : FReg) (s : State) : Answer := .next (s.setDout (s.fr ra))

end Sys2Proof.Machine
end

