-- ==== Sys2Proof/Machine/GcdCmds.lean ====
section
/-! DEFINITION. GCD commands (42_gcd.md section 2). -/

namespace Sys2Proof.Machine

/-- PHGCD pa, pb: quotient prefix and forward matrix (R156). -/
def execPhgcd (ra rb : PReg) (s : State) : Answer :=
  if deg (s.pr ra) < deg (s.pr rb) then raised .illegalOperand (.phgcd ra rb) s
  else
    .next (s.setMQ (halfGcd s.cfg (s.pr ra) (s.pr rb)).2 (halfGcd s.cfg (s.pr ra) (s.pr rb)).1)

/-- PFGCD pg, pa, pb: whole quotient sequence, reducing matrix, gcd (R157). -/
def execPfgcd (rd ra rb : PReg) (s : State) : Answer :=
  if deg (s.pr ra) < deg (s.pr rb) then raised .illegalOperand (.pfgcd rd ra rb) s
  else
    let e := fullGcd s.cfg (s.pr ra) (s.pr rb)
    .next ((s.setMQ e.t e.seq).setP rd e.gcd)

/-- MAPPLY pd, pc, pa, pb: adj(M)·(A, B), first component first (R158, R139, R275). -/
def execMapply (rd rc ra rb : PReg) (s : State) : Answer :=
  let x := applyAdj s.cfg s.m (s.pr ra) (s.pr rb)
  if fits s.cfg x.1 && fits s.cfg x.2 then .next ((s.setP rd x.1).setP rc x.2)
  else raised .capacityExceeded (.mapply rd rc ra rb) s

/-- MGET pd, imm (R159). -/
def execMget (rd : PReg) (imm : Nat) (s : State) : Answer :=
  match s.m.entry imm with
  | none => raised .illegalOperand (.mget rd imm) s
  | some x => .next (s.setP rd x)

/-- QGET pd, imm (R160). -/
def execQget (rd : PReg) (imm : Nat) (s : State) : Answer :=
  match s.qseq[imm]? with
  | none => raised .illegalOperand (.qget rd imm) s
  | some x => .next (s.setP rd x)

/-- PINV pd, pa, pm (R161). -/
def execPinv (rd ra rb : PReg) (s : State) : Answer :=
  if s.pr rb = [] then raised .divisionByZero (.pinv rd ra rb) s
  else .next (s.putInverse rd (invert s.cfg (s.pr ra) (s.pr rb)))

end Sys2Proof.Machine
end

