-- ==== Sys2Proof/Machine/PolyCmds.lean ====
section
/-! DEFINITION. Polynomial commands (41_poly.md section 2). -/

namespace Sys2Proof.Machine

/-- PCLR pd (R127). -/
def execPclr (rd : PReg) (s : State) : Answer := .next (s.setP rd [])

/-- PMOV pd, pa (R128). -/
def execPmov (rd ra : PReg) (s : State) : Answer := .next (s.setP rd (s.pr ra))

/-- PSETC pd, fa, imm (R129). -/
def execPsetc (rd : PReg) (ra : FReg) (imm : Nat) (s : State) : Answer :=
  if s.cfg.lmax ≤ imm then raised .capacityExceeded (.psetc rd ra imm) s
  else .next (s.setP rd (setCoef (s.pr rd) imm (s.fr ra)))

/-- PGETC fd, pa, imm (R130). -/
def execPgetc (rd : FReg) (ra : PReg) (imm : Nat) (s : State) : Answer :=
  .next (s.setF rd (coef (s.pr ra) imm))

/-- PDEG pa (R131). -/
def execPdeg (ra : PReg) (s : State) : Answer := .next (s.setDout (deg (s.pr ra)))

/-- PTST pa: is_zero and is_one (R121, R132). -/
def execPtst (ra : PReg) (s : State) : Answer := .next (s.setZO (s.pr ra == []) (s.pr ra == [1]))

/-- PADD pd, pa, pb (R133). -/
def execPadd (rd ra rb : PReg) (s : State) : Answer := .next (s.setP rd (polyAdd (s.pr ra) (s.pr rb)))

/-- PSUB pd, pa, pb: the same sum, in characteristic 2 (R134). -/
def execPsub (rd ra rb : PReg) (s : State) : Answer := .next (s.setP rd (polyAdd (s.pr ra) (s.pr rb)))

/-- PMUL pd, pa, pb (R135, R139). -/
def execPmul (rd ra rb : PReg) (s : State) : Answer :=
  if fits s.cfg (polyMul s.cfg (s.pr ra) (s.pr rb)) then
    .next (s.setP rd (polyMul s.cfg (s.pr ra) (s.pr rb)))
  else raised .capacityExceeded (.pmul rd ra rb) s

/-- PSCL pd, pa, fb (R136). -/
def execPscl (rd ra : PReg) (rb : FReg) (s : State) : Answer :=
  .next (s.setP rd (polyScale s.cfg (s.fr rb) (s.pr ra)))

/-- PDIVREM pq, pr, pa, pb: quotient first, remainder second (R137, R275). -/
def execPdivrem (rd rc ra rb : PReg) (s : State) : Answer :=
  if s.pr rb = [] then raised .divisionByZero (.pdivrem rd rc ra rb) s
  else
    .next ((s.setP rd (divRem s.cfg (s.pr ra) (s.pr rb)).1).setP rc (divRem s.cfg (s.pr ra) (s.pr rb)).2)

/-- PSHR pd, pa, imm (R138). -/
def execPshr (rd ra : PReg) (imm : Nat) (s : State) : Answer := .next (s.setP rd (polyShr imm (s.pr ra)))

end Sys2Proof.Machine
end

