-- ==== Sys2Proof/Machine/RingCmds.lean ====
section
/-! DEFINITION. Ring commands, modulus x^R + 1 (43_ring.md). -/

namespace Sys2Proof.Machine

/-- KSETR imm (R171). -/
def execKsetr (imm : Nat) (s : State) : Answer :=
  if imm = 0 ∨ s.cfg.rmax < imm then raised .illegalOperand (.ksetr imm) s
  else if imm < s.bweight then raised .impossibleHammingWeight (.ksetr imm) s
  else .next (s.setR imm)

/-- PMODF pd (R172). -/
def execPmodf (rd : PReg) (s : State) : Answer :=
  if s.bsize = 0 then raised .illegalOperand (.pmodf rd) s
  else .next (s.setP rd (ringModulus s.bsize))

/-- RMUL pd, pa, pb (R173): the full product is internal and unbounded (R139). -/
def execRmul (rd ra rb : PReg) (s : State) : Answer :=
  if s.bsize = 0 then raised .illegalOperand (.rmul rd ra rb) s
  else
    .next (s.setP rd (divRem s.cfg (polyMul s.cfg (s.pr ra) (s.pr rb)) (ringModulus s.bsize)).2)

/-- RINV pd, pa (R174). -/
def execRinv (rd ra : PReg) (s : State) : Answer :=
  if s.bsize = 0 then raised .illegalOperand (.rinv rd ra) s
  else .next (s.putInverse rd (invert s.cfg (s.pr ra) (ringModulus s.bsize)))

end Sys2Proof.Machine
end

