-- ==== Sys2Proof/Machine/SystemCmds.lean ====
section
/-! DEFINITION. System commands: NOP, SRESET (46_system.md). -/

namespace Sys2Proof.Machine

/-- NOP: nothing (R230). -/
def execNop (s : State) : Answer := .next s

/-- SRESET: reset_state() (R231). -/
def execSreset (s : State) : Answer := .next s.resetState

end Sys2Proof.Machine
end

