-- ==== Sys2Proof/Machine/VectorCmds.lean ====
section
/-! DEFINITION. Vector buffer commands (44_vector.md section 2). -/

namespace Sys2Proof.Machine

/-- KSETW imm (R181). -/
def execKsetw (imm : Nat) (s : State) : Answer :=
  if s.bsize < imm then raised .impossibleHammingWeight (.ksetw imm) s
  else .next (s.setW imm)

/-- VINIT B, imm (R182). -/
def execVinit (b : Buf) (imm : Nat) (s : State) : Answer :=
  if bufCap s.cfg b < imm then raised .capacityExceeded (.vinit b imm) s
  else .next (s.setBuf b (zeroVec imm))

/-- VSETE B, fa, imm (R183). -/
def execVsete (b : Buf) (ra : FReg) (imm : Nat) (s : State) : Answer :=
  if (s.buf b).length ≤ imm then raised .illegalOperand (.vsete b ra imm) s
  else .next (s.setBuf b ((s.buf b).set imm (s.fr ra)))

/-- VGETE fd, B, imm (R184). -/
def execVgete (rd : FReg) (b : Buf) (imm : Nat) (s : State) : Answer :=
  if (s.buf b).length ≤ imm then raised .illegalOperand (.vgete rd b imm) s
  else .next (s.setF rd (elemAt (s.buf b) imm))

/-- VWT B (R185). -/
def execVwt (b : Buf) (s : State) : Answer := .next (s.setDout (weight (s.buf b)))

/-- P2V B, pa, imm (R186). -/
def execP2v (b : Buf) (ra : PReg) (imm : Nat) (s : State) : Answer :=
  if bufCap s.cfg b < imm then raised .capacityExceeded (.p2v b ra imm) s
  else if imm < (s.pr ra).length then raised .illegalOperand (.p2v b ra imm) s
  else .next (s.setBuf b (vecOfPoly (s.pr ra) imm))

/-- V2P pd, B (R187). -/
def execV2p (rd : PReg) (b : Buf) (s : State) : Answer := .next (s.setP rd (polyOfVec (s.buf b)))

end Sys2Proof.Machine
end

