-- ==== Sys2Proof/Machine/Dispatch.lean ====
section
/-! DEFINITION. The dispatch: one arm per command, the Operation of its rule (R233). -/

namespace Sys2Proof.Machine

def exec (i : Instr) (s : State) : Host.Outcome State Fault Refusal :=
  match i with
  | .nop => Sys2Proof.Machine.execNop s
  | .sreset => Sys2Proof.Machine.execSreset s
  | .fli rd imm => Sys2Proof.Machine.execFli rd imm s
  | .fmov rd ra => Sys2Proof.Machine.execFmov rd ra s
  | .fadd rd ra rb => Sys2Proof.Machine.execFadd rd ra rb s
  | .fsub rd ra rb => Sys2Proof.Machine.execFsub rd ra rb s
  | .fmul rd ra rb => Sys2Proof.Machine.execFmul rd ra rb s
  | .fdiv rd ra rb => Sys2Proof.Machine.execFdiv rd ra rb s
  | .finv rd ra => Sys2Proof.Machine.execFinv rd ra s
  | .ftst ra => Sys2Proof.Machine.execFtst ra s
  | .fnze rd imm => Sys2Proof.Machine.execFnze rd imm s
  | .fmax => Sys2Proof.Machine.execFmax s
  | .fget ra => Sys2Proof.Machine.execFget ra s
  | .pclr rd => Sys2Proof.Machine.execPclr rd s
  | .pmov rd ra => Sys2Proof.Machine.execPmov rd ra s
  | .psetc rd ra imm => Sys2Proof.Machine.execPsetc rd ra imm s
  | .pgetc rd ra imm => Sys2Proof.Machine.execPgetc rd ra imm s
  | .pdeg ra => Sys2Proof.Machine.execPdeg ra s
  | .ptst ra => Sys2Proof.Machine.execPtst ra s
  | .padd rd ra rb => Sys2Proof.Machine.execPadd rd ra rb s
  | .psub rd ra rb => Sys2Proof.Machine.execPsub rd ra rb s
  | .pmul rd ra rb => Sys2Proof.Machine.execPmul rd ra rb s
  | .pscl rd ra rb => Sys2Proof.Machine.execPscl rd ra rb s
  | .pdivrem rd rc ra rb => Sys2Proof.Machine.execPdivrem rd rc ra rb s
  | .pshr rd ra imm => Sys2Proof.Machine.execPshr rd ra imm s
  | .phgcd ra rb => Sys2Proof.Machine.execPhgcd ra rb s
  | .pfgcd rd ra rb => Sys2Proof.Machine.execPfgcd rd ra rb s
  | .mapply rd rc ra rb => Sys2Proof.Machine.execMapply rd rc ra rb s
  | .mget rd imm => Sys2Proof.Machine.execMget rd imm s
  | .qget rd imm => Sys2Proof.Machine.execQget rd imm s
  | .pinv rd ra rb => Sys2Proof.Machine.execPinv rd ra rb s
  | .ksetr imm => Sys2Proof.Machine.execKsetr imm s
  | .pmodf rd => Sys2Proof.Machine.execPmodf rd s
  | .rmul rd ra rb => Sys2Proof.Machine.execRmul rd ra rb s
  | .rinv rd ra => Sys2Proof.Machine.execRinv rd ra s
  | .ksetw imm => Sys2Proof.Machine.execKsetw imm s
  | .vinit b imm => Sys2Proof.Machine.execVinit b imm s
  | .vsete b ra imm => Sys2Proof.Machine.execVsete b ra imm s
  | .vgete rd b imm => Sys2Proof.Machine.execVgete rd b imm s
  | .vwt b => Sys2Proof.Machine.execVwt b s
  | .p2v b ra imm => Sys2Proof.Machine.execP2v b ra imm s
  | .v2p rd b => Sys2Proof.Machine.execV2p rd b s
  | .kder => Sys2Proof.Machine.execKder s
  | .encodeMsg => Sys2Proof.Machine.execEncode s
  | .synd => Sys2Proof.Machine.execSynd s
  | .dstep => Sys2Proof.Machine.execDstep s
  | .decodeCw imm => Sys2Proof.Machine.execDecode imm s

end Sys2Proof.Machine
end

