-- ==== Sys2Proof/Machine/Engine.lean ====
section
/-! DEFINITION. One engine step for an issued word, and the host's three actions (46_system.md R232, R233). -/

namespace Sys2Proof.Machine

/-- SRESET's word, the only one obeyed while halted (R242). -/
def sresetWord : Word := 0x01000000

/-- One engine step for an issued word (R233): count it; halted, obey SRESET alone; else decode, raise IllegalCommand
on an illegal word, or run the command. -/
def engineStep (w : Word) (s : State) : Answer :=
  if s.tick.halted then
    if w = sresetWord then .next s.tick.resetState else .next s.tick
  else
    match decode w with
    | .error _ => .next (s.tick.raise .illegalCommand w)
    | .ok i => exec i s.tick

/-- A host action (R232): Issue(w) is one engine step; ReadCSR(n) returns the CSR's value and has no side effect on the
block (R234); Reset is the hardware reset (R271). -/
def hostStep (a : HostAction) (s : State) : Answer :=
  match a with
  | .issue w => engineStep w s
  | .readCsr n => .next (s.setRdata (readCsr s n.toNat))
  | .reset => .next s.resetState

/-- One step: the host's next action, taken off the list; with none pending the engine stays between commands. -/
def stepPending (s : State) : Answer :=
  match s.pending with
  | [] => .next s
  | a :: rest => hostStep a (s.setPending rest)

end Sys2Proof.Machine
end

