-- ==== Sys2Proof/Machine/Step.lean ====
section
/-! DEFINITION. The step, and where it takes its next command word from. -/

namespace Sys2Proof.Machine

/-- One step of the machine. -/
def step (s : State) : Host.Outcome State Fault Refusal := stepPending s

/-- The state in which the host's next action is to issue the table word `w` (R232; log entry 2): the block fetches
nothing itself. -/
def State.withFetchWord (s : State) (nbits w : Nat) : State :=
  s.setPending (.issue (tableWord nbits w) :: s.pending)

end Sys2Proof.Machine
end

