-- ==== Sys2Proof/Safety.lean ====
section
/-! DEFINITION. What a good state is: the parameters' constraints, the storage invariant, the matrix invariant, the
block-size invariant; and what it is for two states to differ only in named components. -/

namespace Sys2Proof.Machine

/-! ## The parameters (R5, R117) -/

/-- The field laws of R117 for the product and inverse of R104, with associativity (F is a field, R1). R104 lets a
model generic in N assume them of its parameters. -/
structure FieldLaws (P : Params) : Prop where
  /-- Every result is again an element of F. -/
  mul_lt : ∀ a < P.card, ∀ b < P.card, fmul P a b < P.card
  mul_comm : ∀ a < P.card, ∀ b < P.card, fmul P a b = fmul P b a
  mul_assoc : ∀ a < P.card, ∀ b < P.card, ∀ c < P.card, fmul P (fmul P a b) c = fmul P a (fmul P b c)
  mul_plus : ∀ a < P.card, ∀ b < P.card, ∀ c < P.card, fmul P a (fplus b c) = fplus (fmul P a b) (fmul P a c)
  mul_one : ∀ a < P.card, fmul P a 1 = a
  mul_zero : ∀ a < P.card, fmul P a 0 = 0
  /-- Every non-zero element has its inverse. -/
  inv_lt : ∀ a < P.card, a ≠ 0 → finvOf P a < P.card
  inv_mul : ∀ a < P.card, a ≠ 0 → fmul P (finvOf P a) a = 1

/-- POLY is irreducible over GF(2) (R5): no product of two binary polynomials but the trivial one. -/
def Irreducible2 (n poly : Nat) : Prop :=
  ∀ a < 2 ^ (n + 1), ∀ b < 2 ^ (n + 1), clmul a b (n + 1) = poly → a = 1 ∨ b = 1

/-- The constraints of R5 on the parameters, and the laws R104 allows to assume of them. -/
structure ParamsOk (P : Params) : Prop where
  n_pos : 1 ≤ P.n
  n_le : P.n ≤ 16
  poly_top : P.poly.testBit P.n = true
  poly_low : P.poly.testBit 0 = true
  poly_lt : P.poly < 2 ^ (P.n + 1)
  poly_irreducible : Irreducible2 P.n P.poly
  nz_nodup : P.nz.Nodup
  nz_all : ∀ a, a ∈ P.nz ↔ a ≠ 0 ∧ a < P.card
  rmax_pos : 1 ≤ P.rmax
  rmax_le : P.rmax ≤ 32767
  laws : FieldLaws P

/-! ## Storage (R20–R24, R120, R139) -/

/-- Canonical form: no trailing zero coefficient (R120). -/
abbrev canonical (a : Poly) : Prop := a.getLast? ≠ some 0

/-- Every coefficient is an element of F. -/
abbrev elemsOk (P : Params) (a : List Elem) : Prop := ∀ c ∈ a, c < P.card

/-- What a polynomial container may hold: a canonical polynomial over F of degree below LMAX (R21, R120, R139). -/
abbrev polyOk (P : Params) (a : Poly) : Prop := canonical a ∧ elemsOk P a ∧ a.length ≤ P.lmax

/-- What a buffer may hold (R24). -/
abbrev bufOk (P : Params) (b : Buf) (v : Vec) : Prop := elemsOk P v ∧ v.length ≤ bufCap P b

/-- What M may hold (R22). -/
abbrev matOk (P : Params) (x : Mat) : Prop :=
  polyOk P x.m00 ∧ polyOk P x.m01 ∧ polyOk P x.m10 ∧ polyOk P x.m11

/-- What QSEQ may hold (R23): at most LMAX canonical polynomials, the sum of (deg q + 1) at most 2·LMAX. -/
abbrev qseqOk (P : Params) (qs : List Poly) : Prop :=
  (∀ q ∈ qs, polyOk P q) ∧ qs.length ≤ P.lmax ∧ (qs.map fun q => deg q + 1).sum ≤ 2 * P.lmax

/-- The one canonical form of the block's storage: every cell an element, every polynomial canonical, every container
within its capacity (R20–R24, R60, R120, R139). -/
abbrev Memory.wf (s : State) : Prop :=
  (∀ i : FReg, s.fr i < s.cfg.card) ∧ (∀ i : PReg, polyOk s.cfg (s.pr i)) ∧ matOk s.cfg s.m ∧
    qseqOk s.cfg s.qseq ∧ bufOk s.cfg .msg s.msg ∧ bufOk s.cfg .cw s.cw ∧ bufOk s.cfg .sy s.sy ∧
    bufOk s.cfg .ev s.ev ∧ bufOk s.cfg .h0 s.h0 ∧ bufOk s.cfg .h1 s.h1 ∧ bufOk s.cfg .g s.g

/-- W ≤ R ≤ RMAX (R30, R31). -/
abbrev sizesOk (s : State) : Prop := s.bweight ≤ s.bsize ∧ s.bsize ≤ s.cfg.rmax

/-- The storage invariant: sound parameters, well-formed storage, sizes in range. -/
structure State.Inv (s : State) : Prop where
  params : ParamsOk s.cfg
  storage : Memory.wf s
  sizes : sizesOk s

/-- det M = [1] (R22, R162). -/
def State.detOk (s : State) : Prop := matDet s.cfg s.m = [1]

/-! ## Components of the state, for frames -/

/-- The components of the state. -/
inductive Comp where
  | cfg
  | f (i : FReg)
  | p (i : PReg)
  | m
  | qseq
  | buf (b : Buf)
  | err | z | o | noinv | dfail | krej
  | dout | r | w | omega | iter | errcmd | jstar | astar | sigma
  | cix | pending | rdata
  deriving DecidableEq, Repr

/-- Two states hold the same in a component. -/
def Comp.same (s t : State) : Comp → Prop
  | .cfg => t.cfg = s.cfg
  | .f i => t.fr i = s.fr i
  | .p i => t.pr i = s.pr i
  | .m => t.m = s.m
  | .qseq => t.qseq = s.qseq
  | .buf b => t.buf b = s.buf b
  | .err => t.err = s.err
  | .z => t.z = s.z
  | .o => t.o = s.o
  | .noinv => t.noinv = s.noinv
  | .dfail => t.dfail = s.dfail
  | .krej => t.krej = s.krej
  | .dout => t.dout = s.dout
  | .r => t.r = s.r
  | .w => t.w = s.w
  | .omega => t.omega = s.omega
  | .iter => t.iter = s.iter
  | .errcmd => t.errcmd = s.errcmd
  | .jstar => t.jstar = s.jstar
  | .astar => t.astar = s.astar
  | .sigma => t.sigma = s.sigma
  | .cix => t.cix = s.cix
  | .pending => t.pending = s.pending
  | .rdata => t.rdata = s.rdata

/-- The frame: `t` holds what `s` holds in every component but those named. -/
def SameExcept (named : List Comp) (s t : State) : Prop := ∀ c : Comp, c ∉ named → c.same s t

/-! ## What the rules of division and of the Euclidean sequence say of their results -/

/-- (q, r) is the quotient and remainder of a by b: a = q·b + r, and r is zero or deg r < deg b, both canonical
polynomials over F (R125). -/
def IsDivRem (P : Params) (a b q r : Poly) : Prop :=
  a = polyAdd (polyMul P q b) r ∧ (r = [] ∨ deg r < deg b) ∧ canonical q ∧ canonical r ∧ elemsOk P q ∧ elemsOk P r

/-- `qs` are the first quotients of the Euclidean sequence of (a, b), after which the pair is (a', b') (R150). -/
inductive EuclidSteps (P : Params) : Poly → Poly → List Poly → Poly → Poly → Prop where
  | done (a b : Poly) : EuclidSteps P a b [] a b
  | turn (a b q r : Poly) (qs : List Poly) (a' b' : Poly) :
      b ≠ [] → IsDivRem P a b q r → EuclidSteps P b r qs a' b' → EuclidSteps P a b (q :: qs) a' b'

/-- q is the reduced inverse of p modulo `modulus` (R155). -/
def IsInverse (P : Params) (p modulus q : Poly) : Prop :=
  (divRem P (polyMul P p q) modulus).2 = [1] ∧ canonical q ∧ elemsOk P q ∧ deg q < deg modulus

end Sys2Proof.Machine
end

