-- ==== Sys2Proof/Certificates/Slice0/Obligations.lean ====
section
/-! DEFINITION. The statements for the provers, and the small vocabulary they are written in. -/

namespace Sys2Proof.Statements

open Sys2Proof.Machine

/-! ## Vocabulary -/

/-- The command runs: exec answers a next state, which differs from `s` only in the components named and of which
`post` holds. -/
def Runs (i : Instr) (s : State) (named : List Comp) (post : State → Prop) : Prop :=
  ∃ t, exec i s = .next t ∧ SameExcept named s t ∧ post t

/-- The command raises E (R241): STATUS.ERR and ERRCMD, the command's own word, and nothing else. -/
def Raises (i : Instr) (s : State) (e : ErrorKind) : Prop :=
  Runs i s [.err, .errcmd] fun t => t.err = some e ∧ t.errcmd = encode i

/-- The command's word is the format R word of R81 with these fields. -/
def FormatR (i : Instr) (op rd ra rb rc : Nat) : Prop :=
  (encode i).toNat = op * 2 ^ 24 + rd * 2 ^ 20 + ra * 2 ^ 16 + rb * 2 ^ 12 + rc * 2 ^ 8

/-- The command's word is the format I word of R82 with these fields, when the immediate fits it. -/
def FormatI (i : Instr) (op rd ra imm : Nat) : Prop :=
  imm < 2 ^ 16 → (encode i).toNat = op * 2 ^ 24 + rd * 2 ^ 20 + ra * 2 ^ 16 + imm

/-- A row of the opcode map (R85): mnemonic, mask, match, and the lowest bit of its field of kind b if it has one. -/
structure MapRow where
  mnemonic : String
  mask : Word
  pattern : Word
  bufLow : Option Nat

/-- A word encodes the row's command: (w & mask) == match, and the field of kind b is at most 6 (R85). -/
def MapRow.accepts (row : MapRow) (w : Word) : Prop :=
  w &&& row.mask = row.pattern ∧ ∀ lo, row.bufLow = some lo → w.toNat / 2 ^ lo % 16 ≤ 6

/-- The opcode map of R85. -/
def opcodeMap : List MapRow :=
  [⟨"NOP", 0xFFFFFFFF, 0x00000000, none⟩, ⟨"SRESET", 0xFFFFFFFF, 0x01000000, none⟩,
   ⟨"FLI", 0xFF0F0000, 0x10000000, none⟩, ⟨"FMOV", 0xFF00FFFF, 0x11000000, none⟩,
   ⟨"FADD", 0xFF000FFF, 0x12000000, none⟩, ⟨"FSUB", 0xFF000FFF, 0x13000000, none⟩,
   ⟨"FMUL", 0xFF000FFF, 0x14000000, none⟩, ⟨"FDIV", 0xFF000FFF, 0x15000000, none⟩,
   ⟨"FINV", 0xFF00FFFF, 0x16000000, none⟩, ⟨"FTST", 0xFFF0FFFF, 0x17000000, none⟩,
   ⟨"FNZE", 0xFF0F0000, 0x18000000, none⟩, ⟨"FMAX", 0xFFFFFFFF, 0x19000000, none⟩,
   ⟨"FGET", 0xFFF0FFFF, 0x1A000000, none⟩, ⟨"PCLR", 0xFF0FFFFF, 0x20000000, none⟩,
   ⟨"PMOV", 0xFF00FFFF, 0x21000000, none⟩, ⟨"PSETC", 0xFF000000, 0x22000000, none⟩] ++
  [⟨"PGETC", 0xFF000000, 0x23000000, none⟩, ⟨"PDEG", 0xFFF0FFFF, 0x24000000, none⟩,
   ⟨"PTST", 0xFFF0FFFF, 0x25000000, none⟩, ⟨"PADD", 0xFF000FFF, 0x26000000, none⟩,
   ⟨"PSUB", 0xFF000FFF, 0x27000000, none⟩, ⟨"PMUL", 0xFF000FFF, 0x28000000, none⟩,
   ⟨"PSCL", 0xFF000FFF, 0x29000000, none⟩, ⟨"PDIVREM", 0xFF0000FF, 0x2A000000, none⟩,
   ⟨"PSHR", 0xFF000000, 0x2B000000, none⟩, ⟨"PHGCD", 0xFFF00FFF, 0x30000000, none⟩,
   ⟨"PFGCD", 0xFF000FFF, 0x31000000, none⟩, ⟨"MAPPLY", 0xFF0000FF, 0x32000000, none⟩,
   ⟨"MGET", 0xFF0F0000, 0x33000000, none⟩, ⟨"QGET", 0xFF0F0000, 0x34000000, none⟩,
   ⟨"PINV", 0xFF000FFF, 0x35000000, none⟩, ⟨"KSETR", 0xFFFF0000, 0x40000000, none⟩] ++
  [⟨"PMODF", 0xFF0FFFFF, 0x41000000, none⟩, ⟨"RMUL", 0xFF000FFF, 0x42000000, none⟩,
   ⟨"RINV", 0xFF00FFFF, 0x43000000, none⟩, ⟨"KSETW", 0xFFFF0000, 0x50000000, none⟩,
   ⟨"VINIT", 0xFF0F0000, 0x51000000, some 20⟩, ⟨"VSETE", 0xFF000000, 0x52000000, some 20⟩,
   ⟨"VGETE", 0xFF000000, 0x53000000, some 16⟩, ⟨"VWT", 0xFFF0FFFF, 0x54000000, some 16⟩,
   ⟨"P2V", 0xFF000000, 0x55000000, some 20⟩, ⟨"V2P", 0xFF00FFFF, 0x56000000, some 16⟩,
   ⟨"KDER", 0xFFFFFFFF, 0x58000000, none⟩, ⟨"ENCODE", 0xFFFFFFFF, 0x59000000, none⟩,
   ⟨"SYND", 0xFFFFFFFF, 0x5A000000, none⟩, ⟨"DSTEP", 0xFFFFFFFF, 0x5B000000, none⟩,
   ⟨"DECODE", 0xFFFF0000, 0x5C000000, none⟩]

/-- The mnemonic of a command (R85). -/
def mnemonicOf : Instr → String
  | .nop => "NOP"
  | .sreset => "SRESET"
  | .fli _ _ => "FLI"
  | .fmov _ _ => "FMOV"
  | .fadd _ _ _ => "FADD"
  | .fsub _ _ _ => "FSUB"
  | .fmul _ _ _ => "FMUL"
  | .fdiv _ _ _ => "FDIV"
  | .finv _ _ => "FINV"
  | .ftst _ => "FTST"
  | .fnze _ _ => "FNZE"
  | .fmax => "FMAX"
  | .fget _ => "FGET"
  | .pclr _ => "PCLR"
  | .pmov _ _ => "PMOV"
  | .psetc _ _ _ => "PSETC"
  | .pgetc _ _ _ => "PGETC"
  | .pdeg _ => "PDEG"
  | .ptst _ => "PTST"
  | .padd _ _ _ => "PADD"
  | .psub _ _ _ => "PSUB"
  | .pmul _ _ _ => "PMUL"
  | .pscl _ _ _ => "PSCL"
  | .pdivrem _ _ _ _ => "PDIVREM"
  | .pshr _ _ _ => "PSHR"
  | .phgcd _ _ => "PHGCD"
  | .pfgcd _ _ _ => "PFGCD"
  | .mapply _ _ _ _ => "MAPPLY"
  | .mget _ _ => "MGET"
  | .qget _ _ => "QGET"
  | .pinv _ _ _ => "PINV"
  | .ksetr _ => "KSETR"
  | .pmodf _ => "PMODF"
  | .rmul _ _ _ => "RMUL"
  | .rinv _ _ => "RINV"
  | .ksetw _ => "KSETW"
  | .vinit _ _ => "VINIT"
  | .vsete _ _ _ => "VSETE"
  | .vgete _ _ _ => "VGETE"
  | .vwt _ => "VWT"
  | .p2v _ _ _ => "P2V"
  | .v2p _ _ => "V2P"
  | .kder => "KDER"
  | .encodeMsg => "ENCODE"
  | .synd => "SYND"
  | .dstep => "DSTEP"
  | .decodeCw _ => "DECODE"

/-- The components a command writes when it does not raise: the 'written by' columns of R20–R24, R26, R27. SRESET
writes everything and is stated apart. -/
def writtenBy : Instr → List Comp
  | .nop => []
  | .sreset => []
  | .fli rd _ => [.f rd]
  | .fmov rd _ => [.f rd]
  | .fadd rd _ _ => [.f rd]
  | .fsub rd _ _ => [.f rd]
  | .fmul rd _ _ => [.f rd]
  | .fdiv rd _ _ => [.f rd]
  | .finv rd _ => [.f rd]
  | .ftst _ => [.z, .o]
  | .fnze rd _ => [.f rd]
  | .fmax => [.dout]
  | .fget _ => [.dout]
  | .pclr rd => [.p rd]
  | .pmov rd _ => [.p rd]
  | .psetc rd _ _ => [.p rd]
  | .pgetc rd _ _ => [.f rd]
  | .pdeg _ => [.dout]
  | .ptst _ => [.z, .o]
  | .padd rd _ _ => [.p rd]
  | .psub rd _ _ => [.p rd]
  | .pmul rd _ _ => [.p rd]
  | .pscl rd _ _ => [.p rd]
  | .pdivrem rd rc _ _ => [.p rd, .p rc]
  | .pshr rd _ _ => [.p rd]
  | .phgcd _ _ => [.m, .qseq]
  | .pfgcd rd _ _ => [.m, .qseq, .p rd]
  | .mapply rd rc _ _ => [.p rd, .p rc]
  | .mget rd _ => [.p rd]
  | .qget rd _ => [.p rd]
  | .pinv rd _ _ => [.noinv, .p rd]
  | .ksetr _ => [.r]
  | .pmodf rd => [.p rd]
  | .rmul rd _ _ => [.p rd]
  | .rinv rd _ => [.noinv, .p rd]
  | .ksetw _ => [.w]
  | .vinit b _ => [.buf b]
  | .vsete b _ _ => [.buf b]
  | .vgete rd _ _ => [.f rd]
  | .vwt _ => [.dout]
  | .p2v b _ _ => [.buf b]
  | .v2p rd _ => [.p rd]
  | .kder => [.krej, .buf .g]
  | .encodeMsg => [.buf .cw]
  | .synd => [.buf .sy, .omega]
  | .dstep => [.buf .sy, .buf .ev, .omega, .jstar, .astar, .sigma]
  | .decodeCw _ => [.buf .sy, .buf .ev, .omega, .iter, .jstar, .astar, .sigma, .dfail]

/-- v is the carry-less product of a and b reduced modulo POLY (R104): below 2^N, and differing from the product by a
multiple of POLY. -/
def IsReducedProduct (P : Params) (a b v : Elem) : Prop :=
  v < 2 ^ P.n ∧ ∃ k < 2 ^ P.n, clmul a b P.n = v ^^^ clmul P.poly k P.n

/-- The multiplication table of GF(4), row the left operand (R102). -/
def gf4Product : List (List Elem) := [[0, 0, 0, 0], [0, 1, 2, 3], [0, 2, 3, 1], [0, 3, 1, 2]]

/-- The division table of GF(4), row a, column b − 1 (R103). -/
def gf4Quotient : List (List Elem) := [[0, 0, 0], [1, 3, 2], [2, 1, 3], [3, 2, 1]]

/-- coef(P · Q, k) = Σ_{i + j = k} coef(P, i) · coef(Q, j) (R123). -/
def productCoef (P : Params) (a b : Poly) (k : Nat) : Elem :=
  fsum ((List.range (k + 1)).map fun i => fmul P (coef a i) (coef b (k - i)))

/-- coef(C mod (x^r − 1), i) = Σ_{k ≡ i (mod r)} coef(C, k) (R175). -/
def foldedCoef (c : Poly) (r i : Nat) : Elem :=
  fsum (((List.range c.length).filter fun k => k % r = i).map (coef c))

/-- Σ_{j=0..r−1} row[(i + j) mod r] · v[j], as R201 and R202 print it. -/
def correlation (P : Params) (row v : Nat → Elem) (r i : Nat) : Elem :=
  fsum ((List.range r).map fun j => fmul P (row ((i + j) % r)) (v j))

/-- `k` DSTEP commands in a row, each answering a next state (R206, R211). -/
inductive Dsteps : Nat → State → State → Prop where
  | none (s : State) : Dsteps 0 s s
  | more (k : Nat) (s t u : State) : exec .dstep s = .next t → Dsteps k t u → Dsteps (k + 1) s u

/-- The lengths DSTEP asks for (R210), with a block size set. -/
abbrev DstepReady (s : State) : Prop :=
  s.bsize ≠ 0 ∧ s.h0.length = s.bsize ∧ s.h1.length = s.bsize ∧ s.sy.length = s.bsize ∧ s.ev.length = 2 * s.bsize

/-- The lengths SYND and DECODE ask for (R209, R211), with a block size set. -/
abbrev SyndReady (s : State) : Prop :=
  s.bsize ≠ 0 ∧ s.h0.length = s.bsize ∧ s.h1.length = s.bsize ∧ s.cw.length = 2 * s.bsize

end Sys2Proof.Statements

open Sys2Proof Sys2Proof.Machine Sys2Proof.Statements

/-! ## Encoding -/

/-- Words written out from the spec's encodings (R85; the examples of the command rules; R86) decode as written. -/
def Obligations.SpecWordsDecodeAsWritten : Prop :=
  decode 0x00000000 = .ok .nop ∧ decode 0x01000000 = .ok .sreset ∧ decode 0x10100002 = .ok (.fli 1 2) ∧
  decode 0x12412000 = .ok (.fadd 4 1 2) ∧ decode 0x22110002 = .ok (.psetc 1 1 2) ∧
  decode 0x2A312400 = .ok (.pdivrem 3 4 1 2) ∧ decode 0x30012000 = .ok (.phgcd 1 2) ∧
  decode 0x32512600 = .ok (.mapply 5 6 1 2) ∧ decode 0x42324000 = .ok (.rmul 3 2 4) ∧
  decode 0x52410002 = .ok (.vsete .h0 1 2) ∧ decode 0x53540002 = .ok (.vgete 5 .h0 2) ∧
  decode 0x5C000064 = .ok (.decodeCw 100) ∧ decode 0xFFFFFFFF = .error .unassignedOpcode ∧
  decode 0x00000001 = .error .nonzeroField ∧ decode 0x51700003 = .error .badBuffer

/-- Decoding the word of a well-formed command gives the command back, with every operand (R81, R82, R85, R89). -/
def Obligations.DecodeOfEncodeIsTheCommand : Prop :=
  ∀ i : Instr, i.wellFormed = true → decode (encode i) = .ok i

/-- A word that decodes is the one word of its command, and the command is well formed (R85, R89): so ERRCMD, which
the meanings take from the encoder, is the command word the host issued (R29). -/
def Obligations.EncodeOfDecodeIsTheWord : Prop :=
  ∀ (w : Word) (i : Instr), decode w = .ok i → i.wellFormed = true ∧ encode i = w

/-- A word is a command exactly when it matches a row of the opcode map of R85, it then matches only one, and decodes
to that row's command; every other word is illegal (R86). -/
def Obligations.OpcodeMapDecidesEveryWord : Prop :=
  (∀ w : Word, (∃ i, decode w = .ok i) ↔ ∃ row ∈ opcodeMap, row.accepts w) ∧
  (∀ (w : Word) (i : Instr), decode w = .ok i → ∃ row ∈ opcodeMap, row.mnemonic = mnemonicOf i ∧ row.accepts w) ∧
  (∀ w : Word, ∀ x ∈ opcodeMap, ∀ y ∈ opcodeMap, x.accepts w → y.accepts w → x.mnemonic = y.mnemonic)

/-! ## Reset -/

/-- The values of R42, at State.reset, with the parameters of the concrete instance (R5). -/
def Obligations.ResetValuesAreThoseOfTheTable : Prop :=
  State.reset.cfg = Params.gf4 ∧
  (∀ i : FReg, State.reset.fr i = 0) ∧ (∀ i : PReg, State.reset.pr i = []) ∧
  State.reset.m = { m00 := [1], m01 := [], m10 := [], m11 := [1] } ∧ State.reset.qseq = [] ∧
  (∀ b : Buf, State.reset.buf b = []) ∧ State.reset.status = 0 ∧ State.reset.err = none ∧
  State.reset.z = false ∧ State.reset.o = false ∧ State.reset.noinv = false ∧ State.reset.dfail = false ∧
  State.reset.krej = false ∧ State.reset.dout = 0 ∧ State.reset.r = 0 ∧ State.reset.w = 0 ∧
  State.reset.omega = 0 ∧ State.reset.iter = 0 ∧ State.reset.errcmd = 0 ∧ State.reset.jstar = 0 ∧
  State.reset.astar = 0 ∧ State.reset.sigma = 0 ∧ State.reset.cix = 0

/-- SRESET, and the hardware reset by the same operation, put every item of state at its value of R42 whatever the
state before, halted or not, and leave the parameters and the host's own side of the port (R231, R270, R271). The
last two components, pending and rdata, are the model's own (log entries 2, 3). -/
def Obligations.SoftAndHardResetGiveTheResetState : Prop :=
  ∀ s : State, FormatR .sreset 0x01 0 0 0 0 ∧ ∃ t, exec .sreset s = .next t ∧
    (∀ i : FReg, t.fr i = 0) ∧ (∀ i : PReg, t.pr i = []) ∧
    t.m = { m00 := [1], m01 := [], m10 := [], m11 := [1] } ∧ t.qseq = [] ∧ (∀ b : Buf, t.buf b = []) ∧
    t.status = 0 ∧ t.err = none ∧ t.dout = 0 ∧ t.r = 0 ∧ t.w = 0 ∧ t.omega = 0 ∧ t.iter = 0 ∧ t.errcmd = 0 ∧
    t.jstar = 0 ∧ t.astar = 0 ∧ t.sigma = 0 ∧ t.cix = 0 ∧ t.cfg = s.cfg ∧ t.pending = s.pending ∧ t.rdata = s.rdata ∧
    (∀ rest, s.pending = .reset :: rest → step s = .next { t with pending := rest }) ∧
    (∀ rest, s.pending = .issue 0x01000000 :: rest → step s = .next { t with pending := rest })

/-! ## The engine step -/

/-- Not halted, a step whose pending word decodes runs the command, on the state with the word taken off and counted
(R233). -/
def Obligations.StepRunsTheDecodedCommand : Prop :=
  ∀ (s : State) (w : Word) (rest : List HostAction) (i : Instr),
    s.pending = .issue w :: rest → s.err = none → decode w = .ok i →
    step s = exec i { s with pending := rest, cix := s.cix + 1 }

/-- Not halted, a word that is no command raises IllegalCommand and changes nothing else (R86, R233). -/
def Obligations.IllegalWordRaisesIllegalCommand : Prop :=
  ∀ (s : State) (w : Word) (rest : List HostAction),
    s.pending = .issue w :: rest → s.err = none → (∀ row ∈ opcodeMap, ¬ row.accepts w) →
    ∃ t, step s = .next t ∧ t.err = some .illegalCommand ∧ t.errcmd = w ∧ t.cix = s.cix + 1 ∧ t.pending = rest ∧
      SameExcept [.err, .errcmd, .cix, .pending] s t

/-- Halted, every issued word but SRESET's is accepted and ignored: counted, and nothing else (R242, R233). -/
def Obligations.HaltedEngineIgnoresEveryOtherWord : Prop :=
  ∀ (s : State) (w : Word) (rest : List HostAction),
    s.pending = .issue w :: rest → s.err ≠ none → w ≠ 0x01000000 →
    ∃ t, step s = .next t ∧ t.cix = s.cix + 1 ∧ t.pending = rest ∧ SameExcept [.cix, .pending] s t

/-- The halted state is left only by SRESET or the hardware reset, and until then the first error stays: ERR and
ERRCMD are never overwritten (R248). -/
def Obligations.HaltedStateIsLeftOnlyByReset : Prop :=
  ∀ s t : State, s.err ≠ none → step s = .next t →
    (t.err = s.err ∧ t.errcmd = s.errcmd) ∨
      ∃ rest, s.pending = .issue 0x01000000 :: rest ∨ s.pending = .reset :: rest

/-- ReadCSR returns the CSR's value, with no side effect, halted or not (R25, R234). -/
def Obligations.ReadCsrHasNoSideEffect : Prop :=
  ∀ (s : State) (n : BitVec 8) (rest : List HostAction), s.pending = .readCsr n :: rest →
    ∃ t, step s = .next t ∧ t.rdata = readCsr s n.toNat ∧ t.pending = rest ∧ SameExcept [.rdata, .pending] s t

/-- The CSR map: what each number reads as, every bit not named 0 (R26, R27, R34, R36, R37, R38). -/
def Obligations.CsrMapReadsAsListed : Prop :=
  ∀ s : State, s.Inv →
    (readCsr s 0x00).toNat = errCode s.err + s.z.toNat * 16 + s.o.toNat * 32 + s.noinv.toNat * 64 +
      s.dfail.toNat * 128 + s.krej.toNat * 256 ∧
    readCsr s 0x01 = s.dout ∧ (readCsr s 0x02).toNat = s.r.toNat ∧ (readCsr s 0x03).toNat = s.w.toNat ∧
    (readCsr s 0x04).toNat = s.omega.toNat ∧ (readCsr s 0x05).toNat = s.iter.toNat ∧
    (readCsr s 0x06).toNat = s.qseq.length ∧ readCsr s 0x07 = s.errcmd ∧
    (readCsr s 0x08).toNat = s.jstar.toNat ∧ (readCsr s 0x09).toNat = s.astar.toNat ∧
    readCsr s 0x0A = s.sigma ∧ (readCsr s 0x10).toNat = s.cfg.n ∧ (readCsr s 0x11).toNat = s.cfg.poly ∧
    (readCsr s 0x12).toNat = 2 * s.cfg.rmax ∧ (readCsr s 0x13).toNat = s.cfg.rmax ∧
    (∀ b : Buf, (readCsr s (0x20 + bufId b)).toNat = (s.buf b).length) ∧
    ∀ n, 0x0A < n → n ∉ [0x10, 0x11, 0x12, 0x13, 0x20, 0x21, 0x22, 0x23, 0x24, 0x25, 0x26] → readCsr s n = 0

/-- cix advances by exactly 1 for every accepted word, one that raises and one ignored while halted included; SRESET
puts it to 0 (R40, R42). -/
def Obligations.EveryAcceptedWordIsCounted : Prop :=
  ∀ (s t : State) (w : Word) (rest : List HostAction), s.pending = .issue w :: rest → step s = .next t →
    t.cix = if w = 0x01000000 then 0 else s.cix + 1

/-- Every step from every state answers a next state: every word has exactly one outcome in every state
(93_implementation_defined.md), and a command is executed to completion (R2). -/
def Obligations.EveryStepAnswersANextState : Prop :=
  ∀ s : State, ∃ t, step s = .next t

/-- `raise E` puts E's code of R240 into STATUS.ERR, keeps the other STATUS bits, puts the command word into ERRCMD,
changes nothing else, and halts the engine (R241). -/
def Obligations.RaiseRecordsTheCodeAndTheWord : Prop :=
  ∀ (s : State) (w : Word) (e : ErrorKind) (n : Nat),
    (e, n) ∈ [(ErrorKind.divisionByZero, 1), (.incorrectInputVectorLength, 2), (.incorrectValueRange, 3),
      (.impossibleHammingWeight, 4), (.inverterBug, 5), (.illegalCommand, 6), (.capacityExceeded, 7),
      (.illegalOperand, 8)] →
    (s.raise e w).status.toNat % 16 = n ∧ (s.raise e w).status.toNat / 16 = s.status.toNat / 16 ∧
    (s.raise e w).errcmd = w ∧ SameExcept [.err, .errcmd] s (s.raise e w) ∧ (s.raise e w).halted = true

/-- Errors are precise: a word that raises leaves ERR and ERRCMD, the word itself, and no other change but its count
(R241, R243). -/
def Obligations.ErrorsArePrecise : Prop :=
  ∀ (s t : State) (w : Word) (rest : List HostAction), s.pending = .issue w :: rest → s.err = none →
    step s = .next t → t.err ≠ none →
    t.errcmd = w ∧ t.cix = s.cix + 1 ∧ t.pending = rest ∧ SameExcept [.err, .errcmd, .cix, .pending] s t

/-- Each command but SRESET writes only what the 'written by' columns give it (R20–R24, R26, R27): in particular no
arithmetic command writes a flag (R41). -/
def Obligations.CommandsWriteOnlyWhatTheTablesSay : Prop :=
  ∀ (i : Instr) (s t : State), i ≠ .sreset → s.err = none → exec i s = .next t → t.err = none →
    SameExcept (writtenBy i) s t

/-! ## Invariants that every step keeps -/

/-- No command and no reset changes the parameters (R36). -/
def Obligations.ParametersNeverChange : Prop :=
  ∀ s t : State, step s = .next t → t.cfg = s.cfg

/-- The storage invariant is kept by every step: every cell an element of F, every polynomial canonical, every
container within its capacity, W ≤ R ≤ RMAX (R20–R24, R30, R31, R120, R139). -/
def Obligations.EveryStepKeepsTheStorageInvariant : Prop :=
  ∀ s t : State, s.Inv → step s = .next t → t.Inv

/-- The storage invariant and det M = [1] hold at reset, for the concrete instance (R5, R42). -/
def Obligations.ResetStateMeetsTheInvariants : Prop :=
  State.reset.Inv ∧ State.reset.detOk

/-- det M = [1] is kept by every step from a state with the storage invariant (R22, R162). -/
def Obligations.EveryStepKeepsTheDeterminantOne : Prop :=
  ∀ s t : State, s.Inv → s.detOk → step s = .next t → t.detOk

/-- W ≤ R and R ≤ RMAX are kept by every step from every state that has them (R30, R31). -/
def Obligations.EveryStepKeepsWeightWithinBlockSize : Prop :=
  ∀ s t : State, sizesOk s → step s = .next t → sizesOk t

/-! ## System commands -/

/-- NOP changes nothing, the zero word is its only word, and a word with opcode 0x00 and any other bit set is illegal
(R230). -/
def Obligations.NopChangesNothing : Prop :=
  (∀ s : State, Runs .nop s [] fun t => t = s) ∧ (∀ w : Word, decode w = .ok .nop ↔ w = 0x00000000) ∧
    ∀ w : Word, opField w = 0 → w ≠ 0x00000000 → ∃ e, decode w = .error e

/-! ## Field commands -/

/-- FLI loads an integer below 2^N and raises IncorrectValueRange on any other (R106). -/
def Obligations.FliLoadsAnElement : Prop :=
  ∀ (s : State) (rd : FReg) (imm : Nat), FormatI (.fli rd imm) 0x10 rd 0 imm ∧
    (imm < 2 ^ s.cfg.n → Runs (.fli rd imm) s [.f rd] fun t => t.fr rd = imm) ∧
    (2 ^ s.cfg.n ≤ imm → Raises (.fli rd imm) s .incorrectValueRange)

/-- FMOV copies; FADD and FSUB are the bitwise exclusive-or (R107, R108, R109). -/
def Obligations.FieldCopyAddSubtract : Prop :=
  ∀ (s : State) (rd ra rb : FReg),
    (FormatR (.fmov rd ra) 0x11 rd ra 0 0 ∧ Runs (.fmov rd ra) s [.f rd] fun t => t.fr rd = s.fr ra) ∧
    (FormatR (.fadd rd ra rb) 0x12 rd ra rb 0 ∧
      Runs (.fadd rd ra rb) s [.f rd] fun t => t.fr rd = s.fr ra ^^^ s.fr rb) ∧
    (FormatR (.fsub rd ra rb) 0x13 rd ra rb 0 ∧
      Runs (.fsub rd ra rb) s [.f rd] fun t => t.fr rd = s.fr ra ^^^ s.fr rb)

/-- FMUL writes the carry-less product modulo POLY, for GF(4) the table's entry; an operand 0 gives 0, an operand 1
the other operand (R102, R104, R110). -/
def Obligations.FmulIsTheFieldProduct : Prop :=
  ∀ (s : State) (rd ra rb : FReg), s.Inv → FormatR (.fmul rd ra rb) 0x14 rd ra rb 0 ∧
    Runs (.fmul rd ra rb) s [.f rd] fun t =>
      IsReducedProduct s.cfg (s.fr ra) (s.fr rb) (t.fr rd) ∧
      (s.cfg = Params.gf4 → (gf4Product.getD (s.fr ra) []).getD (s.fr rb) 0 = t.fr rd) ∧
      (s.fr ra = 0 ∨ s.fr rb = 0 → t.fr rd = 0) ∧ (s.fr ra = 1 → t.fr rd = s.fr rb) ∧
      (s.fr rb = 1 → t.fr rd = s.fr ra)

/-- FDIV writes the one element whose product with the divisor is the dividend, for GF(4) the table's entry; a zero
divisor raises DivisionByZero, whatever the dividend (R103, R111). -/
def Obligations.FdivIsTheFieldQuotient : Prop :=
  ∀ (s : State) (rd ra rb : FReg), s.Inv → FormatR (.fdiv rd ra rb) 0x15 rd ra rb 0 ∧
    (s.fr rb = 0 → Raises (.fdiv rd ra rb) s .divisionByZero) ∧
    (s.fr rb ≠ 0 → Runs (.fdiv rd ra rb) s [.f rd] fun t =>
      t.fr rd < s.cfg.card ∧ fmul s.cfg (t.fr rd) (s.fr rb) = s.fr ra ∧
      (∀ c < s.cfg.card, fmul s.cfg c (s.fr rb) = s.fr ra → c = t.fr rd) ∧
      (s.cfg = Params.gf4 → (gf4Quotient.getD (s.fr ra) []).getD (s.fr rb - 1) 0 = t.fr rd))

/-- FINV writes the multiplicative inverse, the one element whose product with the operand is 1; it raises
DivisionByZero on 0, and is an involution (R112). -/
def Obligations.FinvIsTheMultiplicativeInverse : Prop :=
  ∀ (s : State) (rd ra : FReg), s.Inv → FormatR (.finv rd ra) 0x16 rd ra 0 0 ∧
    (s.fr ra = 0 → Raises (.finv rd ra) s .divisionByZero) ∧
    (s.fr ra ≠ 0 → Runs (.finv rd ra) s [.f rd] fun t =>
      t.fr rd < s.cfg.card ∧ fmul s.cfg (t.fr rd) (s.fr ra) = 1 ∧
      (∀ c < s.cfg.card, fmul s.cfg c (s.fr ra) = 1 → c = t.fr rd) ∧
      Runs (.finv rd rd) t [.f rd] fun u => u.fr rd = s.fr ra)

/-- FNZE writes NZ[imm], imm + 1 for the ascending order the spec fixes, and raises IllegalOperand beyond the 2^N − 1
non-zero elements (R105, R114). -/
def Obligations.FnzeEnumeratesTheNonZeroElements : Prop :=
  ∀ (s : State) (rd : FReg) (imm : Nat), s.Inv → FormatI (.fnze rd imm) 0x18 rd 0 imm ∧
    (imm < 2 ^ s.cfg.n - 1 → Runs (.fnze rd imm) s [.f rd] fun t =>
      s.cfg.nz[imm]? = some (t.fr rd) ∧ t.fr rd ≠ 0 ∧
      (s.cfg.nz = (List.range (2 ^ s.cfg.n - 1)).map (· + 1) → t.fr rd = imm + 1)) ∧
    (2 ^ s.cfg.n - 1 ≤ imm → Raises (.fnze rd imm) s .illegalOperand)

/-- FTST sets Z and O from the element; FMAX and FGET put the maximum value and the element into DOUT
(R113, R115, R116). -/
def Obligations.FieldTestAndReadOut : Prop :=
  ∀ (s : State) (ra : FReg), s.Inv →
    (FormatR (.ftst ra) 0x17 0 ra 0 0 ∧ Runs (.ftst ra) s [.z, .o] fun t =>
      (t.z = true ↔ s.fr ra = 0) ∧ (t.o = true ↔ s.fr ra = 1)) ∧
    (FormatR .fmax 0x19 0 0 0 0 ∧ Runs .fmax s [.dout] fun t => t.dout.toNat = 2 ^ s.cfg.n - 1) ∧
    (FormatR (.fget ra) 0x1A 0 ra 0 0 ∧ Runs (.fget ra) s [.dout] fun t => t.dout.toNat = s.fr ra)

/-! ## Polynomial commands -/

/-- PCLR makes the zero polynomial; PMOV copies (R127, R128). -/
def Obligations.PolyClearAndCopy : Prop :=
  ∀ (s : State) (rd ra : PReg),
    (FormatR (.pclr rd) 0x20 rd 0 0 0 ∧ Runs (.pclr rd) s [.p rd] fun t => t.pr rd = []) ∧
    (FormatR (.pmov rd ra) 0x21 rd ra 0 0 ∧ Runs (.pmov rd ra) s [.p rd] fun t => t.pr rd = s.pr ra)

/-- PSETC replaces one coefficient and keeps all others, in canonical form; an index at LMAX or above raises
CapacityExceeded, whatever the value (R129). -/
def Obligations.PsetcSetsOneCoefficient : Prop :=
  ∀ (s : State) (rd : PReg) (ra : FReg) (imm : Nat), FormatI (.psetc rd ra imm) 0x22 rd ra imm ∧
    (imm < s.cfg.lmax → Runs (.psetc rd ra imm) s [.p rd] fun t =>
      canonical (t.pr rd) ∧ coef (t.pr rd) imm = s.fr ra ∧
      ∀ k, k ≠ imm → coef (t.pr rd) k = coef (s.pr rd) k) ∧
    (s.cfg.lmax ≤ imm → Raises (.psetc rd ra imm) s .capacityExceeded)

/-- PGETC reads a coefficient, 0 above the degree; PDEG puts the degree, 0 for the zero polynomial, into DOUT; PTST
sets Z and O (R130, R131, R132). -/
def Obligations.PolyReadDegreeTest : Prop :=
  ∀ (s : State) (rd : FReg) (ra : PReg) (imm : Nat), s.Inv →
    (FormatI (.pgetc rd ra imm) 0x23 rd ra imm ∧ Runs (.pgetc rd ra imm) s [.f rd] fun t =>
      (s.pr ra)[imm]?.getD 0 = t.fr rd ∧ ((s.pr ra).length ≤ imm → t.fr rd = 0)) ∧
    (FormatR (.pdeg ra) 0x24 0 ra 0 0 ∧ Runs (.pdeg ra) s [.dout] fun t =>
      (s.pr ra = [] → t.dout = 0) ∧ (s.pr ra ≠ [] → t.dout.toNat + 1 = (s.pr ra).length)) ∧
    (FormatR (.ptst ra) 0x25 0 ra 0 0 ∧ Runs (.ptst ra) s [.z, .o] fun t =>
      (t.z = true ↔ s.pr ra = []) ∧ (t.o = true ↔ s.pr ra = [1]))

/-- PADD and PSUB write the canonical polynomial of the coefficientwise sums (R122, R133, R134). -/
def Obligations.PolyAddAndSubtract : Prop :=
  ∀ (s : State) (rd ra rb : PReg),
    (FormatR (.padd rd ra rb) 0x26 rd ra rb 0 ∧ Runs (.padd rd ra rb) s [.p rd] fun t =>
      canonical (t.pr rd) ∧ ∀ k, coef (t.pr rd) k = coef (s.pr ra) k ^^^ coef (s.pr rb) k) ∧
    (FormatR (.psub rd ra rb) 0x27 rd ra rb 0 ∧ Runs (.psub rd ra rb) s [.p rd] fun t =>
      canonical (t.pr rd) ∧ ∀ k, coef (t.pr rd) k = coef (s.pr ra) k ^^^ coef (s.pr rb) k)

/-- PMUL writes the product, the canonical polynomial of the coefficient sums, of degree the sum of the degrees; it
raises CapacityExceeded exactly when both factors are non-zero and that sum is LMAX or more (R123, R135). -/
def Obligations.PmulIsThePolynomialProduct : Prop :=
  ∀ (s : State) (rd ra rb : PReg), s.Inv → FormatR (.pmul rd ra rb) 0x28 rd ra rb 0 ∧
    (s.pr ra = [] ∨ s.pr rb = [] → Runs (.pmul rd ra rb) s [.p rd] fun t => t.pr rd = []) ∧
    (s.pr ra ≠ [] → s.pr rb ≠ [] → deg (s.pr ra) + deg (s.pr rb) < s.cfg.lmax →
      Runs (.pmul rd ra rb) s [.p rd] fun t =>
        canonical (t.pr rd) ∧ (∀ k, coef (t.pr rd) k = productCoef s.cfg (s.pr ra) (s.pr rb) k) ∧
        t.pr rd ≠ [] ∧ deg (t.pr rd) = deg (s.pr ra) + deg (s.pr rb)) ∧
    (s.pr ra ≠ [] → s.pr rb ≠ [] → s.cfg.lmax ≤ deg (s.pr ra) + deg (s.pr rb) →
      Raises (.pmul rd ra rb) s .capacityExceeded)

/-- PSCL multiplies every coefficient by the scalar; the scalar 0 gives the zero polynomial, any other keeps the
degree (R124, R136). -/
def Obligations.PsclScalesEveryCoefficient : Prop :=
  ∀ (s : State) (rd ra : PReg) (rb : FReg), s.Inv → FormatR (.pscl rd ra rb) 0x29 rd ra rb 0 ∧
    Runs (.pscl rd ra rb) s [.p rd] fun t =>
      canonical (t.pr rd) ∧ (∀ k, coef (t.pr rd) k = fmul s.cfg (s.fr rb) (coef (s.pr ra) k)) ∧
      (s.fr rb = 0 → t.pr rd = []) ∧ (s.fr rb ≠ 0 → (t.pr rd).length = (s.pr ra).length)

/-- PDIVREM writes the one quotient and remainder of Euclidean division, the remainder second, so that with rd = rc it
stays; a zero divisor raises DivisionByZero (R125, R137). -/
def Obligations.PdivremIsEuclideanDivision : Prop :=
  ∀ (s : State) (rd rc ra rb : PReg), s.Inv → FormatR (.pdivrem rd rc ra rb) 0x2A rd ra rb rc ∧
    (s.pr rb = [] → Raises (.pdivrem rd rc ra rb) s .divisionByZero) ∧
    (s.pr rb ≠ [] → ∃ q r, IsDivRem s.cfg (s.pr ra) (s.pr rb) q r ∧
      (∀ q' r', IsDivRem s.cfg (s.pr ra) (s.pr rb) q' r' → q' = q ∧ r' = r) ∧
      Runs (.pdivrem rd rc ra rb) s [.p rd, .p rc] fun t => t.pr rc = r ∧ (rd ≠ rc → t.pr rd = q))

/-- PSHR drops the first imm coefficients (R126, R138). -/
def Obligations.PshrDropsLowCoefficients : Prop :=
  ∀ (s : State) (rd ra : PReg) (imm : Nat), s.Inv → FormatI (.pshr rd ra imm) 0x2B rd ra imm ∧
    Runs (.pshr rd ra imm) s [.p rd] fun t =>
      canonical (t.pr rd) ∧ (∀ k, coef (t.pr rd) k = coef (s.pr ra) (k + imm)) ∧
      (imm = 0 → t.pr rd = s.pr ra) ∧ ((s.pr ra).length ≤ imm → t.pr rd = [])

/-! ## GCD commands -/

/-- PHGCD leaves in QSEQ the shortest prefix of the Euclidean quotient sequence after which the second remainder has
degree below m = ⌈(deg A + 1)/2⌉, and in M its forward matrix; deg A < deg B raises IllegalOperand (R151, R152,
R156). -/
def Obligations.PhgcdIsTheMinimalEuclideanPrefix : Prop :=
  ∀ (s : State) (ra rb : PReg), s.Inv → FormatR (.phgcd ra rb) 0x30 0 ra rb 0 ∧
    (deg (s.pr ra) < deg (s.pr rb) → Raises (.phgcd ra rb) s .illegalOperand) ∧
    (deg (s.pr rb) ≤ deg (s.pr ra) → Runs (.phgcd ra rb) s [.m, .qseq] fun t =>
      t.m = forwardMat s.cfg t.qseq ∧
      (∃ a' b', EuclidSteps s.cfg (s.pr ra) (s.pr rb) t.qseq a' b' ∧ deg b' < (deg (s.pr ra) + 2) / 2 ∧
        applyAdj s.cfg t.m (s.pr ra) (s.pr rb) = (a', b') ∧ matApply s.cfg t.m a' b' = (s.pr ra, s.pr rb)) ∧
      ∀ j < t.qseq.length, ∃ a' b', EuclidSteps s.cfg (s.pr ra) (s.pr rb) (t.qseq.take j) a' b' ∧
        (deg (s.pr ra) + 2) / 2 ≤ deg b')

/-- PFGCD leaves in QSEQ the whole Euclidean quotient sequence, in p[rd] the last non-zero remainder g, in M the
reducing matrix: M·(A, B)ᵀ = (g, 0)ᵀ, and its adjugate takes (g, 0) back to (A, B); deg A < deg B raises IllegalOperand
(R150, R154, R157). -/
def Obligations.PfgcdIsTheFullExtendedGcd : Prop :=
  ∀ (s : State) (rd ra rb : PReg), s.Inv → FormatR (.pfgcd rd ra rb) 0x31 rd ra rb 0 ∧
    (deg (s.pr ra) < deg (s.pr rb) → Raises (.pfgcd rd ra rb) s .illegalOperand) ∧
    (deg (s.pr rb) ≤ deg (s.pr ra) → Runs (.pfgcd rd ra rb) s [.m, .qseq, .p rd] fun t =>
      EuclidSteps s.cfg (s.pr ra) (s.pr rb) t.qseq (t.pr rd) [] ∧
      t.m = matAdj (forwardMat s.cfg t.qseq) ∧
      matApply s.cfg t.m (s.pr ra) (s.pr rb) = (t.pr rd, []) ∧
      applyAdj s.cfg t.m (t.pr rd) [] = (s.pr ra, s.pr rb))

/-- MAPPLY writes m11·A + m01·B and m10·A + m00·B, the second written second; it raises CapacityExceeded exactly when
one of the two does not fit (R158). -/
def Obligations.MapplyAppliesTheAdjugate : Prop :=
  ∀ (s : State) (rd rc ra rb : PReg) (x y : Poly),
    x = polyAdd (polyMul s.cfg s.m.m11 (s.pr ra)) (polyMul s.cfg s.m.m01 (s.pr rb)) →
    y = polyAdd (polyMul s.cfg s.m.m10 (s.pr ra)) (polyMul s.cfg s.m.m00 (s.pr rb)) →
    FormatR (.mapply rd rc ra rb) 0x32 rd ra rb rc ∧
    ((x ≠ [] ∧ s.cfg.lmax ≤ deg x) ∨ (y ≠ [] ∧ s.cfg.lmax ≤ deg y) →
      Raises (.mapply rd rc ra rb) s .capacityExceeded) ∧
    ((x = [] ∨ deg x < s.cfg.lmax) → (y = [] ∨ deg y < s.cfg.lmax) →
      Runs (.mapply rd rc ra rb) s [.p rd, .p rc] fun t => t.pr rc = y ∧ (rd ≠ rc → t.pr rd = x))

/-- MGET reads an entry of M by its row-major number, QGET an entry of QSEQ; a number out of range raises
IllegalOperand (R159, R160). -/
def Obligations.MatrixAndQuotientReads : Prop :=
  ∀ (s : State) (rd : PReg) (imm : Nat),
    (FormatI (.mget rd imm) 0x33 rd 0 imm ∧
      (imm ≤ 3 → Runs (.mget rd imm) s [.p rd] fun t =>
        [s.m.m00, s.m.m01, s.m.m10, s.m.m11][imm]? = some (t.pr rd)) ∧
      (3 < imm → Raises (.mget rd imm) s .illegalOperand)) ∧
    (FormatI (.qget rd imm) 0x34 rd 0 imm ∧
      (imm < s.qseq.length → Runs (.qget rd imm) s [.p rd] fun t => s.qseq[imm]? = some (t.pr rd)) ∧
      (s.qseq.length ≤ imm → Raises (.qget rd imm) s .illegalOperand))

/-- PINV writes the inverse and clears NOINV, or sets NOINV and keeps the register, exactly when the operand is a
multiple of the modulus or their gcd has positive degree; a zero modulus raises DivisionByZero (R155, R161). -/
def Obligations.PinvIsTheModularInverse : Prop :=
  ∀ (s : State) (rd ra rb : PReg) (b g : Poly) (qs : List Poly), s.Inv →
    FormatR (.pinv rd ra rb) 0x35 rd ra rb 0 ∧
    (s.pr rb = [] → Raises (.pinv rd ra rb) s .divisionByZero) ∧
    (s.pr rb ≠ [] → b = (divRem s.cfg (s.pr ra) (s.pr rb)).2 → EuclidSteps s.cfg (s.pr rb) b qs g [] →
      (b = [] ∨ 0 < deg g → Runs (.pinv rd ra rb) s [.noinv] fun t => t.noinv = true) ∧
      (b ≠ [] → deg g = 0 → Runs (.pinv rd ra rb) s [.noinv, .p rd] fun t =>
        t.noinv = false ∧ IsInverse s.cfg (s.pr ra) (s.pr rb) (t.pr rd)))

/-! ## Ring commands and sizes -/

/-- KSETR sets R, within 1 … RMAX and not below W, the domain tested first; KSETW sets W, not above R (R171, R181). -/
def Obligations.BlockSizeAndWeightAreSet : Prop :=
  ∀ (s : State) (imm : Nat), imm < 2 ^ 16 →
    (FormatI (.ksetr imm) 0x40 0 0 imm ∧
      (imm = 0 ∨ s.cfg.rmax < imm → Raises (.ksetr imm) s .illegalOperand) ∧
      (imm ≠ 0 → imm ≤ s.cfg.rmax → imm < s.w.toNat → Raises (.ksetr imm) s .impossibleHammingWeight) ∧
      (imm ≠ 0 → imm ≤ s.cfg.rmax → s.w.toNat ≤ imm → Runs (.ksetr imm) s [.r] fun t => t.r.toNat = imm)) ∧
    (FormatI (.ksetw imm) 0x50 0 0 imm ∧
      (s.r.toNat < imm → Raises (.ksetw imm) s .impossibleHammingWeight) ∧
      (imm ≤ s.r.toNat → Runs (.ksetw imm) s [.w] fun t => t.w.toNat = imm))

/-- PMODF writes x^R + 1: length R + 1, coefficients 1 at 0 and at R and 0 between; R = 0 raises IllegalOperand
(R170, R172). -/
def Obligations.PmodfWritesTheRingModulus : Prop :=
  ∀ (s : State) (rd : PReg), FormatR (.pmodf rd) 0x41 rd 0 0 0 ∧
    (s.r = 0 → Raises (.pmodf rd) s .illegalOperand) ∧
    (s.r ≠ 0 → Runs (.pmodf rd) s [.p rd] fun t =>
      canonical (t.pr rd) ∧ (t.pr rd).length = s.r.toNat + 1 ∧
      ∀ k, coef (t.pr rd) k = if k = 0 ∨ k = s.r.toNat then 1 else 0)

/-- RMUL writes the product folded modulo x^R − 1, whatever the degrees of its sources; R = 0 raises IllegalOperand
(R173, R175). -/
def Obligations.RmulFoldsTheProduct : Prop :=
  ∀ (s : State) (rd ra rb : PReg), s.Inv → FormatR (.rmul rd ra rb) 0x42 rd ra rb 0 ∧
    (s.r = 0 → Raises (.rmul rd ra rb) s .illegalOperand) ∧
    (s.r ≠ 0 → Runs (.rmul rd ra rb) s [.p rd] fun t =>
      canonical (t.pr rd) ∧ (t.pr rd).length ≤ s.r.toNat ∧
      ∀ i < s.r.toNat, coef (t.pr rd) i = foldedCoef (polyMul s.cfg (s.pr ra) (s.pr rb)) s.r.toNat i)

/-- RINV gives what PINV gives modulo x^R + 1: the ring inverse, or NOINV and the register kept; R = 0 raises
IllegalOperand, and DivisionByZero cannot occur (R174). -/
def Obligations.RinvIsTheRingInverse : Prop :=
  ∀ (s : State) (rd ra : PReg) (b g : Poly) (qs : List Poly), s.Inv → FormatR (.rinv rd ra) 0x43 rd ra 0 0 ∧
    (s.r = 0 → Raises (.rinv rd ra) s .illegalOperand) ∧
    (s.r ≠ 0 → b = (divRem s.cfg (s.pr ra) (ringModulus s.r.toNat)).2 →
      EuclidSteps s.cfg (ringModulus s.r.toNat) b qs g [] →
      (b = [] ∨ 0 < deg g → Runs (.rinv rd ra) s [.noinv] fun t => t.noinv = true) ∧
      (b ≠ [] → deg g = 0 → Runs (.rinv rd ra) s [.noinv, .p rd] fun t =>
        t.noinv = false ∧ IsInverse s.cfg (s.pr ra) (ringModulus s.r.toNat) (t.pr rd)))

/-- A source whose coefficients sum to zero has no inverse in the ring (R174, R200). -/
def Obligations.ZeroCoefficientSumHasNoRingInverse : Prop :=
  ∀ (s : State) (rd ra : PReg), s.Inv → s.r ≠ 0 → fsum (s.pr ra) = 0 →
    Runs (.rinv rd ra) s [.noinv] fun t => t.noinv = true

/-! ## Vector commands -/

/-- VINIT makes a zero vector of the given length, VSETE writes one element and keeps the length and every other
element; out of capacity or out of range they raise (R182, R183). -/
def Obligations.BufferInitAndElementWrite : Prop :=
  ∀ (s : State) (b : Buf) (ra : FReg) (imm : Nat),
    (FormatI (.vinit b imm) 0x51 (bufId b) 0 imm ∧
      (imm ≤ bufCap s.cfg b → Runs (.vinit b imm) s [.buf b] fun t =>
        (t.buf b).length = imm ∧ ∀ k < imm, (t.buf b)[k]? = some 0) ∧
      (bufCap s.cfg b < imm → Raises (.vinit b imm) s .capacityExceeded)) ∧
    (FormatI (.vsete b ra imm) 0x52 (bufId b) ra imm ∧
      (imm < (s.buf b).length → Runs (.vsete b ra imm) s [.buf b] fun t =>
        (t.buf b).length = (s.buf b).length ∧ (t.buf b)[imm]? = some (s.fr ra) ∧
        ∀ k, k ≠ imm → (t.buf b)[k]? = (s.buf b)[k]?) ∧
      ((s.buf b).length ≤ imm → Raises (.vsete b ra imm) s .illegalOperand))

/-- VGETE reads one element, and raises beyond the length; VWT puts the number of non-zero elements into DOUT
(R184, R185). -/
def Obligations.BufferElementReadAndWeight : Prop :=
  ∀ (s : State) (rd : FReg) (b : Buf) (imm : Nat), s.Inv →
    (FormatI (.vgete rd b imm) 0x53 rd (bufId b) imm ∧
      (imm < (s.buf b).length → Runs (.vgete rd b imm) s [.f rd] fun t => (s.buf b)[imm]? = some (t.fr rd)) ∧
      ((s.buf b).length ≤ imm → Raises (.vgete rd b imm) s .illegalOperand)) ∧
    (FormatR (.vwt b) 0x54 0 (bufId b) 0 0 ∧
      Runs (.vwt b) s [.dout] fun t => t.dout.toNat = ((s.buf b).filter (· ≠ 0)).length)

/-- P2V writes the coefficients zero-padded to the length asked for, capacity tested before the polynomial's own
length, nothing truncated; V2P writes the canonical polynomial of the elements (R186, R187). -/
def Obligations.PolynomialVectorConversions : Prop :=
  ∀ (s : State) (b : Buf) (pa : PReg) (imm : Nat),
    (FormatI (.p2v b pa imm) 0x55 (bufId b) pa imm ∧
      (bufCap s.cfg b < imm → Raises (.p2v b pa imm) s .capacityExceeded) ∧
      (imm ≤ bufCap s.cfg b → imm < (s.pr pa).length → Raises (.p2v b pa imm) s .illegalOperand) ∧
      (imm ≤ bufCap s.cfg b → (s.pr pa).length ≤ imm → Runs (.p2v b pa imm) s [.buf b] fun t =>
        (t.buf b).length = imm ∧ ∀ k < imm, (t.buf b)[k]? = some (coef (s.pr pa) k))) ∧
    (FormatR (.v2p pa b) 0x56 pa (bufId b) 0 0 ∧ Runs (.v2p pa b) s [.p pa] fun t =>
      canonical (t.pr pa) ∧ ∀ k, coef (t.pr pa) k = (s.buf b)[k]?.getD 0)

/-- V2P then P2V with the same length restores the buffer, and P2V then V2P restores the polynomial (R187). -/
def Obligations.ConversionsAreInverse : Prop :=
  ∀ (s t u : State) (b : Buf) (pa pb : PReg) (imm : Nat), s.Inv → s.err = none →
    (exec (.v2p pa b) s = .next t → exec (.p2v b pa (s.buf b).length) t = .next u → u.buf b = s.buf b) ∧
    (exec (.p2v b pa imm) s = .next t → t.err = none → exec (.v2p pb b) t = .next u → u.pr pb = s.pr pa)

/-! ## Codec commands -/

/-- KDER writes to G the length-R vector whose ring product with h1 is h0, and clears KREJ, when h1 has an inverse in
the ring; else it sets KREJ and nothing more. R = 0, then a wrong length, raise. InverterBug is never raised
(R200, R207). -/
def Obligations.KderDerivesThePublicRow : Prop :=
  ∀ s : State, s.Inv → FormatR .kder 0x58 0 0 0 0 ∧
    (s.r = 0 → Raises .kder s .illegalOperand) ∧
    (s.r ≠ 0 → s.h0.length ≠ s.bsize ∨ s.h1.length ≠ s.bsize → Raises .kder s .incorrectInputVectorLength) ∧
    (s.r ≠ 0 → s.h0.length = s.bsize → s.h1.length = s.bsize →
      ((∃ q, IsInverse s.cfg (polyOfVec s.h1) (ringModulus s.bsize) q) →
        Runs .kder s [.krej, .buf .g] fun t => t.krej = false ∧ t.g.length = s.bsize ∧ elemsOk s.cfg t.g ∧
          (divRem s.cfg (polyMul s.cfg (polyOfVec s.h1) (polyOfVec t.g)) (ringModulus s.bsize)).2 =
            polyOfVec s.h0) ∧
      ((¬ ∃ q, IsInverse s.cfg (polyOfVec s.h1) (ringModulus s.bsize) q) →
        Runs .kder s [.krej] fun t => t.krej = true))

/-- ENCODE writes the message and the parity part c[r + (r − i)] = Σ_j m[j]·g[(i + j) mod r], i = 1 … r; R = 0, then a
wrong length, raise (R201, R208). -/
def Obligations.EncodeWritesTheSystematicCodeword : Prop :=
  ∀ s : State, FormatR .encodeMsg 0x59 0 0 0 0 ∧
    (s.r = 0 → Raises .encodeMsg s .illegalOperand) ∧
    (s.r ≠ 0 → s.g.length ≠ s.bsize ∨ s.msg.length ≠ s.bsize →
      Raises .encodeMsg s .incorrectInputVectorLength) ∧
    (s.r ≠ 0 → s.g.length = s.bsize → s.msg.length = s.bsize → Runs .encodeMsg s [.buf .cw] fun t =>
      t.cw.length = 2 * s.bsize ∧ (∀ j < s.bsize, elemAt t.cw j = elemAt s.msg j) ∧
      ∀ i, 1 ≤ i → i ≤ s.bsize → elemAt t.cw (s.bsize + (s.bsize - i)) =
        fsum ((List.range s.bsize).map fun j => fmul s.cfg (elemAt s.msg j) (elemAt s.g ((i + j) % s.bsize))))

/-- SYND stores s_i at index r − i, i = 1 … r, and counts the non-zero elements into OMEGA; R = 0, then a wrong
length, raise (R202, R209). -/
def Obligations.SyndComputesTheSyndrome : Prop :=
  ∀ s : State, FormatR .synd 0x5A 0 0 0 0 ∧
    (s.r = 0 → Raises .synd s .illegalOperand) ∧
    (s.r ≠ 0 → s.h0.length ≠ s.bsize ∨ s.h1.length ≠ s.bsize ∨ s.cw.length ≠ 2 * s.bsize →
      Raises .synd s .incorrectInputVectorLength) ∧
    (SyndReady s → Runs .synd s [.buf .sy, .omega] fun t =>
      t.sy.length = s.bsize ∧ t.omega.toNat = (t.sy.filter (· ≠ 0)).length ∧
      ∀ i, 1 ≤ i → i ≤ s.bsize → elemAt t.sy (s.bsize - i) =
        correlation s.cfg (elemAt s.h0) (elemAt s.cw) s.bsize i ^^^
          correlation s.cfg (elemAt s.h1) (fun j => elemAt s.cw (s.bsize + j)) s.bsize i)

/-- DSTEP flips the position JSTAR by the element ASTAR in SY and EV, SIGMA is the number of zeros gained, and OMEGA
the new weight, the old one less SIGMA; R = 0, then a wrong length, raise (R203, R205, R210). -/
def Obligations.DstepFlipsTheSelectedPosition : Prop :=
  ∀ s : State, s.Inv → FormatR .dstep 0x5B 0 0 0 0 ∧
    (s.r = 0 → Raises .dstep s .illegalOperand) ∧
    (s.r ≠ 0 → ¬ DstepReady s → Raises .dstep s .incorrectInputVectorLength) ∧
    (DstepReady s → Runs .dstep s [.buf .sy, .buf .ev, .omega, .jstar, .astar, .sigma] fun t =>
      t.jstar.toNat < 2 * s.bsize ∧ t.astar.toNat ∈ s.cfg.nz ∧
      t.sy.length = s.bsize ∧ t.ev.length = 2 * s.bsize ∧
      (∀ i, 1 ≤ i → i ≤ s.bsize → elemAt t.sy (s.bsize - i) = elemAt s.sy (s.bsize - i) ^^^
        fmul s.cfg t.astar.toNat
          (if t.jstar.toNat < s.bsize then elemAt s.h0 ((i + t.jstar.toNat) % s.bsize)
            else elemAt s.h1 ((i + (t.jstar.toNat - s.bsize)) % s.bsize))) ∧
      (∀ k < 2 * s.bsize, elemAt t.ev k =
        if k = t.jstar.toNat then elemAt s.ev k ^^^ t.astar.toNat else elemAt s.ev k) ∧
      t.sigma.toInt = (t.sy.filter (· = 0)).length - (s.sy.filter (· = 0)).length ∧
      t.omega.toNat = (t.sy.filter (· ≠ 0)).length ∧
      (t.omega.toNat : Int) = (s.sy.filter (· ≠ 0)).length - t.sigma.toInt)

/-- DSTEP selects, among all pairs, one of greatest gain, and among those the one scanned last: j ascending outer, a in
NZ order inner (R204). -/
def Obligations.DstepSelectsTheLastScannedMaximum : Prop :=
  ∀ s t : State, s.Inv → DstepReady s → exec .dstep s = .next t →
    ∀ j < 2 * s.bsize, ∀ a ∈ s.cfg.nz,
      gain s.cfg s.h0 s.h1 s.bsize s.sy j a ≤ t.sigma.toInt ∧
      (gain s.cfg s.h0 s.h1 s.bsize s.sy j a = t.sigma.toInt →
        j < t.jstar.toNat ∨ (j = t.jstar.toNat ∧ s.cfg.nz.idxOf a ≤ s.cfg.nz.idxOf t.astar.toNat))

/-- DECODE K is SYND, a zero error vector and ITER 0; then, unless the syndrome is zero, exactly K DSTEPs, ITER = K,
and DFAIL tells whether the syndrome is still not zero. R = 0, then a wrong length, raise (R206, R211). -/
def Obligations.DecodeIsSyndThenExactlyKSteps : Prop :=
  ∀ (s : State) (k : Nat), k < 2 ^ 16 → FormatI (.decodeCw k) 0x5C 0 0 k ∧
    (s.r = 0 → Raises (.decodeCw k) s .illegalOperand) ∧
    (s.r ≠ 0 → ¬ SyndReady s → Raises (.decodeCw k) s .incorrectInputVectorLength) ∧
    (SyndReady s → ∃ s0 t, exec .synd s = .next s0 ∧ exec (.decodeCw k) s = .next t ∧
      (s0.omega = 0 →
        t = { s0 with ev := List.replicate (2 * s.bsize) 0, iter := 0, dfail := false }) ∧
      (s0.omega ≠ 0 →
        ∃ u, Dsteps k { s0 with ev := List.replicate (2 * s.bsize) 0, iter := 0 } u ∧
          t = { u with iter := BitVec.ofNat 16 k, dfail := u.omega != 0 }))

/-- Codewords have syndrome zero: with G as KDER derives it, SYND after ENCODE leaves SY all zero and OMEGA 0, and
DECODE gives the zero error vector for every K (R212). -/
def Obligations.EncodedMessagesHaveZeroSyndrome : Prop :=
  ∀ s s1 s2 : State, s.Inv → s.err = none → s.r ≠ 0 → s.msg.length = s.bsize →
    exec .kder s = .next s1 → s1.err = none → s1.krej = false → exec .encodeMsg s1 = .next s2 →
    (∃ s3, exec .synd s2 = .next s3 ∧ s3.sy = List.replicate s.bsize 0 ∧ s3.omega = 0 ∧ s3.err = none) ∧
    ∀ k : Nat, ∃ s4, exec (.decodeCw k) s2 = .next s4 ∧ s4.ev = List.replicate (2 * s.bsize) 0 ∧ s4.iter = 0 ∧
      s4.dfail = false ∧ s4.err = none
end

