-- ==== Sys2Proof/Laws/Poly.lean ====
section
/-! SUPPORT. What each polynomial operation can do: coefficients, canonical form, range of the coefficients, length. -/

namespace Sys2Proof.Machine

variable {P : Params} {a b : Poly}

/-! ## The field's operations without any law assumed -/

theorem fplus_comm (x y : Elem) : fplus x y = fplus y x := Nat.xor_comm x y

theorem fplus_assoc (x y z : Elem) : fplus (fplus x y) z = fplus x (fplus y z) := Nat.xor_assoc x y z

@[simp] theorem fplus_self (x : Elem) : fplus x x = 0 := Nat.xor_self x

@[simp] theorem fplus_zero (x : Elem) : fplus x 0 = x := Nat.xor_zero x

@[simp] theorem zero_fplus (x : Elem) : fplus 0 x = x := Nat.zero_xor x

theorem fplus_cancel (x y : Elem) : fplus x (fplus x y) = y := by
  rw [← fplus_assoc, fplus_self, zero_fplus]

theorem fplus_eq_zero {x y : Elem} : fplus x y = 0 ↔ x = y := Nat.xor_eq_zero_iff

theorem fplus_lt {x y : Elem} (hx : x < P.card) (hy : y < P.card) : fplus x y < P.card :=
  Nat.xor_lt_two_pow hx hy

theorem card_pos : 0 < P.card := Nat.two_pow_pos P.n

@[simp] theorem clmul_zero_right (x k : Nat) : clmul x 0 k = 0 := by
  induction k with
  | zero => rfl
  | succ k ih => simp [clmul, ih]

@[simp] theorem clmul_zero_left (y k : Nat) : clmul 0 y k = 0 := by
  induction k with
  | zero => rfl
  | succ k ih => simp [clmul, ih]

@[simp] theorem reduceBits_zero (n poly k : Nat) : reduceBits n poly k 0 = 0 := by
  induction k with
  | zero => rfl
  | succ k ih => simp [reduceBits, ih]

@[simp] theorem fmul_zero_right (x : Elem) : fmul P x 0 = 0 := by simp [fmul]

@[simp] theorem fmul_zero_left (y : Elem) : fmul P 0 y = 0 := by simp [fmul]

@[simp] theorem fsum_nil : fsum [] = 0 := rfl

@[simp] theorem fsum_replicate_zero (n : Nat) : fsum (List.replicate n 0) = 0 := by
  induction n with
  | zero => rfl
  | succ n ih =>
    rw [List.replicate_succ]
    exact (Nat.zero_xor _).trans ih

@[simp] theorem fsum_cons (x : Elem) (l : List Elem) : fsum (x :: l) = fplus x (fsum l) := rfl

theorem elemsOk_nil : elemsOk P [] := fun _ h => absurd h List.not_mem_nil

theorem elemsOk_cons {c : Elem} {l : List Elem} : elemsOk P (c :: l) ↔ c < P.card ∧ elemsOk P l := by
  simp [elemsOk]

theorem elemsOk_zeroVec (n : Nat) : elemsOk P (zeroVec n) := fun c hc => by
  rw [(List.mem_replicate.1 hc).2]
  exact card_pos

theorem fsum_lt {l : List Elem} (h : elemsOk P l) : fsum l < P.card := by
  induction l with
  | nil => exact card_pos
  | cons x l ih => exact fplus_lt (h x (by simp)) (ih fun c hc => h c (by simp [hc]))

theorem fsum_append (l m : List Elem) : fsum (l ++ m) = fplus (fsum l) (fsum m) := by
  induction l with
  | nil => simp
  | cons x l ih => simp [ih, fplus_assoc]

/-! ## Coefficients -/

@[simp] theorem coef_nil (k : Nat) : coef [] k = 0 := rfl

@[simp] theorem coef_cons_zero (c : Elem) (cs : List Elem) : coef (c :: cs) 0 = c := rfl

@[simp] theorem coef_cons_succ (c : Elem) (cs : List Elem) (k : Nat) : coef (c :: cs) (k + 1) = coef cs k := rfl

theorem coef_of_length_le {k : Nat} (h : a.length ≤ k) : coef a k = 0 := by
  simp [coef, List.getD, h]

theorem coef_eq_getElem {k : Nat} (h : k < a.length) : coef a k = a[k] := by
  simp [coef, List.getD, h]

theorem coef_lt (h : elemsOk P a) (k : Nat) : coef a k < P.card := by
  by_cases hk : k < a.length
  · rw [coef_eq_getElem hk]
    exact h _ (List.getElem_mem hk)
  · rw [coef_of_length_le (by omega)]
    exact card_pos

/-! ## Canonical form -/

@[simp] theorem canon_nil : canon [] = [] := rfl

theorem canon_cons (c : Elem) (cs : List Elem) :
    canon (c :: cs) = if canon cs = [] then (if c = 0 then [] else [c]) else c :: canon cs := by
  rw [canon]
  cases canon cs <;> simp

theorem canonical_nil : canonical [] := by simp [canonical]

theorem canonical_cons {c : Elem} {cs : List Elem} (h : cs ≠ []) : canonical (c :: cs) ↔ canonical cs := by
  cases cs with
  | nil => exact absurd rfl h
  | cons d ds => simp [canonical]

theorem canonical_single {c : Elem} : canonical [c] ↔ c ≠ 0 := by simp [canonical]

theorem canonical_canon (l : List Elem) : canonical (canon l) := by
  induction l with
  | nil => simp [canonical]
  | cons c cs ih =>
    rw [canon_cons]
    split
    · split
      · simp [canonical]
      · simpa [canonical] using ‹¬c = 0›
    · exact (canonical_cons ‹_›).2 ih

@[simp] theorem coef_canon (l : List Elem) (k : Nat) : coef (canon l) k = coef l k := by
  induction l generalizing k with
  | nil => rfl
  | cons c cs ih =>
    rw [canon_cons]
    split
    · have h0 : ∀ j, coef cs j = 0 := fun j => by rw [← ih j, ‹canon cs = []›]; rfl
      cases k with
      | zero => split <;> simp_all
      | succ k => split <;> simp [h0]
    · cases k with
      | zero => rfl
      | succ k => exact ih k

theorem mem_canon {l : List Elem} {c : Elem} (h : c ∈ canon l) : c ∈ l := by
  induction l with
  | nil => simp at h
  | cons d ds ih =>
    rw [canon_cons] at h
    split at h
    · split at h <;> simp_all
    · simp only [List.mem_cons] at h ⊢
      exact h.imp_right ih

theorem elemsOk_canon {l : List Elem} (h : elemsOk P l) : elemsOk P (canon l) := fun c hc => h c (mem_canon hc)

theorem length_canon_le (l : List Elem) : (canon l).length ≤ l.length := by
  induction l with
  | nil => simp
  | cons c cs ih =>
    rw [canon_cons]
    split
    · split <;> simp
    · simpa using ih

theorem canon_of_canonical {l : List Elem} (h : canonical l) : canon l = l := by
  induction l with
  | nil => rfl
  | cons c cs ih =>
    rw [canon_cons]
    by_cases hcs : cs = []
    · subst hcs
      simp [canonical] at h
      simp [h]
    · have := ih ((canonical_cons hcs).1 h)
      simp [this, hcs]

theorem canon_eq_nil_of_coef {l : List Elem} (h : ∀ k, coef l k = 0) : canon l = [] := by
  induction l with
  | nil => rfl
  | cons c cs ih =>
    have h0 : c = 0 := h 0
    rw [canon_cons, ih fun k => h (k + 1), h0]
    simp

/-- Lists with the same coefficients have the same canonical form. -/
theorem canon_eq_of_coef {l m : List Elem} (h : ∀ k, coef l k = coef m k) : canon l = canon m := by
  induction l generalizing m with
  | nil => rw [canon_eq_nil_of_coef (l := m) fun k => (h k).symm, canon_nil]
  | cons c cs ih =>
    cases m with
    | nil => rw [canon_eq_nil_of_coef h, canon_nil]
    | cons d ds =>
      have h0 : c = d := h 0
      rw [canon_cons, canon_cons, ih fun k => h (k + 1), h0]

/-- Canonical polynomials are equal when their coefficients are (R120). -/
theorem poly_ext (ha : canonical a) (hb : canonical b) (h : ∀ k, coef a k = coef b k) : a = b := by
  rw [← canon_of_canonical ha, ← canon_of_canonical hb]
  exact canon_eq_of_coef h

theorem lead_ne_zero (ha : canonical a) (hne : a ≠ []) : lead a ≠ 0 := by
  have hl : 0 < a.length := List.length_pos_of_ne_nil hne
  unfold lead deg
  rw [coef_eq_getElem (by omega)]
  intro h
  apply ha
  rw [List.getLast?_eq_getElem?, List.getElem?_eq_getElem (by omega), h]

/-- A canonical polynomial whose coefficients from `n` on are zero has at most `n` of them. -/
theorem length_le_of_coef (ha : canonical a) {n : Nat} (h : ∀ k, n ≤ k → coef a k = 0) : a.length ≤ n := by
  by_contra hn
  have hne : a ≠ [] := by rintro rfl; simp at hn
  exact lead_ne_zero ha hne (h _ (by unfold deg; omega))

theorem deg_lt_length (hne : a ≠ []) : deg a < a.length := by
  have := List.length_pos_of_ne_nil hne
  unfold deg
  omega

theorem deg_add_one (hne : a ≠ []) : deg a + 1 = a.length := by
  have := List.length_pos_of_ne_nil hne
  unfold deg
  omega

/-! ## Sum -/

@[simp] theorem addRaw_nil_left (m : List Elem) : addRaw [] m = m := by cases m <;> rfl

@[simp] theorem addRaw_nil_right (l : List Elem) : addRaw l [] = l := by cases l <;> rfl

theorem coef_addRaw (l m : List Elem) (k : Nat) : coef (addRaw l m) k = fplus (coef l k) (coef m k) := by
  induction l generalizing m k with
  | nil => simp
  | cons x l ih =>
    cases m with
    | nil => simp
    | cons y m =>
      cases k with
      | zero => rfl
      | succ k => exact ih m k

theorem length_addRaw (l m : List Elem) : (addRaw l m).length = max l.length m.length := by
  induction l generalizing m with
  | nil => simp
  | cons x l ih =>
    cases m with
    | nil => simp
    | cons y m => simp [addRaw, ih]

theorem elemsOk_addRaw {l m : List Elem} (hl : elemsOk P l) (hm : elemsOk P m) : elemsOk P (addRaw l m) := by
  induction l generalizing m with
  | nil => simpa using hm
  | cons x l ih =>
    cases m with
    | nil => simpa using hl
    | cons y m =>
      intro c hc
      rw [addRaw, List.mem_cons] at hc
      rcases hc with rfl | hc
      · exact fplus_lt (hl x (by simp)) (hm y (by simp))
      · exact ih (fun d hd => hl d (by simp [hd])) (fun d hd => hm d (by simp [hd])) c hc

theorem canonical_polyAdd (a b : Poly) : canonical (polyAdd a b) := canonical_canon _

@[simp] theorem coef_polyAdd (a b : Poly) (k : Nat) : coef (polyAdd a b) k = fplus (coef a k) (coef b k) := by
  rw [polyAdd, coef_canon, coef_addRaw]

theorem elemsOk_polyAdd (ha : elemsOk P a) (hb : elemsOk P b) : elemsOk P (polyAdd a b) :=
  elemsOk_canon (elemsOk_addRaw ha hb)

theorem length_polyAdd_le (a b : Poly) : (polyAdd a b).length ≤ max a.length b.length :=
  (length_canon_le _).trans_eq (length_addRaw a b)

theorem polyAdd_comm (a b : Poly) : polyAdd a b = polyAdd b a :=
  poly_ext (canonical_polyAdd _ _) (canonical_polyAdd _ _) fun k => by simp [fplus_comm]

theorem polyAdd_assoc (a b c : Poly) : polyAdd (polyAdd a b) c = polyAdd a (polyAdd b c) :=
  poly_ext (canonical_polyAdd _ _) (canonical_polyAdd _ _) fun k => by simp [fplus_assoc]

@[simp] theorem polyAdd_self (a : Poly) : polyAdd a a = [] :=
  poly_ext (canonical_polyAdd _ _) canonical_nil fun k => by simp

theorem polyAdd_nil (ha : canonical a) : polyAdd a [] = a :=
  poly_ext (canonical_polyAdd _ _) ha fun k => by simp

theorem nil_polyAdd (hb : canonical b) : polyAdd [] b = b :=
  poly_ext (canonical_polyAdd _ _) hb fun k => by simp

/-! ## Scalar product -/

theorem coef_map_fmul (s : Elem) (l : List Elem) (k : Nat) : coef (l.map (fmul P s)) k = fmul P s (coef l k) := by
  induction l generalizing k with
  | nil => simp
  | cons x l ih =>
    cases k with
    | zero => rfl
    | succ k => exact ih k

theorem canonical_polyScale (s : Elem) (a : Poly) : canonical (polyScale P s a) := canonical_canon _

@[simp] theorem coef_polyScale (s : Elem) (a : Poly) (k : Nat) :
    coef (polyScale P s a) k = fmul P s (coef a k) := by
  rw [polyScale, coef_canon, coef_map_fmul]

theorem length_polyScale_le (s : Elem) (a : Poly) : (polyScale P s a).length ≤ a.length :=
  (length_canon_le _).trans_eq (List.length_map ..)

theorem elemsOk_map_fmul (L : FieldLaws P) {s : Elem} (hs : s < P.card) {l : List Elem} (h : elemsOk P l) :
    elemsOk P (l.map (fmul P s)) := by
  intro c hc
  obtain ⟨x, hx, rfl⟩ := List.mem_map.1 hc
  exact L.mul_lt s hs x (h x hx)

theorem elemsOk_polyScale (L : FieldLaws P) {s : Elem} (hs : s < P.card) (h : elemsOk P a) :
    elemsOk P (polyScale P s a) := elemsOk_canon (elemsOk_map_fmul L hs h)

/-! ## Product -/

theorem coef_mulRaw_cons (x : Elem) (a b : List Elem) (k : Nat) :
    coef (mulRaw P (x :: a) b) k = fplus (fmul P x (coef b k)) (coef (0 :: mulRaw P a b) k) := by
  rw [mulRaw, coef_addRaw, coef_map_fmul]

/-- The coefficients of a product are the sums of R123. -/
theorem coef_mulRaw (a b : List Elem) (k : Nat) :
    coef (mulRaw P a b) k = fsum ((List.range (k + 1)).map fun i => fmul P (coef a i) (coef b (k - i))) := by
  induction a generalizing k with
  | nil =>
    rw [mulRaw, coef_nil]
    simp
  | cons x a ih =>
    rw [coef_mulRaw_cons, List.range_succ_eq_map, List.map_cons, fsum_cons]
    congr 1
    cases k with
    | zero => rfl
    | succ k =>
      rw [coef_cons_succ, ih]
      simp [Function.comp_def]

theorem canonical_polyMul (a b : Poly) : canonical (polyMul P a b) := canonical_canon _

theorem coef_polyMul (a b : Poly) (k : Nat) :
    coef (polyMul P a b) k = fsum ((List.range (k + 1)).map fun i => fmul P (coef a i) (coef b (k - i))) := by
  rw [polyMul, coef_canon, coef_mulRaw]

theorem elemsOk_mulRaw (L : FieldLaws P) {a b : List Elem} (ha : elemsOk P a) (hb : elemsOk P b) :
    elemsOk P (mulRaw P a b) := by
  induction a with
  | nil => intro c hc; simp [mulRaw] at hc
  | cons x a ih =>
    refine elemsOk_addRaw (elemsOk_map_fmul L (ha x (by simp)) hb) fun c hc => ?_
    rcases List.mem_cons.1 hc with rfl | hc
    · exact card_pos
    · exact ih (fun d hd => ha d (by simp [hd])) c hc

theorem elemsOk_polyMul (L : FieldLaws P) (ha : elemsOk P a) (hb : elemsOk P b) : elemsOk P (polyMul P a b) :=
  elemsOk_canon (elemsOk_mulRaw L ha hb)

@[simp] theorem nil_polyMul (b : Poly) : polyMul P [] b = [] := rfl

@[simp] theorem polyMul_nil (a : Poly) : polyMul P a [] = [] :=
  poly_ext (canonical_polyMul _ _) canonical_nil fun k => by
    rw [polyMul, coef_canon, coef_nil]
    induction a generalizing k with
    | nil => rfl
    | cons x a ih =>
      rw [coef_mulRaw_cons]
      cases k with
      | zero => simp
      | succ k => simp [ih k]

theorem length_mulRaw_le (a b : List Elem) : (mulRaw P a b).length ≤ a.length + b.length := by
  induction a with
  | nil => simp [mulRaw]
  | cons x a ih =>
    rw [mulRaw, length_addRaw]
    simp
    omega

theorem length_mulRaw_lt {a b : List Elem} (hb : b ≠ []) : (mulRaw P a b).length + 1 ≤ a.length + b.length := by
  have hlb := List.length_pos_of_ne_nil hb
  induction a with
  | nil =>
    simp [mulRaw]
    omega
  | cons x a ih =>
    rw [mulRaw, length_addRaw]
    simp
    omega

/-- The product of non-zero polynomials has at most the sum of the degrees plus one coefficients. -/
theorem length_polyMul_le (hb : b ≠ []) : (polyMul P a b).length + 1 ≤ a.length + b.length :=
  (Nat.add_le_add_right (length_canon_le _) 1).trans (length_mulRaw_lt hb)

/-! ## Shifts, single coefficients, vectors -/

theorem canonical_polyShl {k : Nat} (ha : canonical a) : canonical (polyShl k a) := by
  unfold polyShl
  split
  · exact canonical_nil
  · rename_i hne
    unfold canonical
    rw [List.getLast?_append_of_ne_nil _ hne]
    exact ha

theorem coef_polyShl (k : Nat) (a : Poly) (i : Nat) : coef (polyShl k a) i = if i < k then 0 else coef a (i - k) := by
  unfold polyShl
  by_cases hne : a = []
  · simp [hne]
  · simp only [hne, if_false, coef, List.getD]
    by_cases hi : i < k
    · rw [List.getElem?_append_left (by simpa using hi)]
      simp [hi]
    · rw [List.getElem?_append_right (by simpa using hi)]
      simp [hi]

theorem length_polyShl (k : Nat) (hne : a ≠ []) : (polyShl k a).length = k + a.length := by
  simp [polyShl, hne]

theorem elemsOk_polyShl {k : Nat} (ha : elemsOk P a) : elemsOk P (polyShl k a) := by
  unfold polyShl
  split
  · intro c hc
    exact absurd hc List.not_mem_nil
  · intro c hc
    rcases List.mem_append.1 hc with hc | hc
    · rw [(List.mem_replicate.1 hc).2]
      exact card_pos
    · exact ha c hc

theorem coef_polyShr (k : Nat) (a : Poly) (i : Nat) : coef (polyShr k a) i = coef a (i + k) := by
  simp [polyShr, coef, List.getD, List.getElem?_drop, Nat.add_comm]

theorem canonical_polyShr {k : Nat} (ha : canonical a) : canonical (polyShr k a) := by
  unfold canonical polyShr
  rw [List.getLast?_drop]
  split
  · simp
  · exact ha

theorem canonical_setCoef (a : Poly) (i : Nat) (v : Elem) : canonical (setCoef a i v) := canonical_canon _

theorem coef_setCoef (a : Poly) (i : Nat) (v : Elem) (k : Nat) :
    coef (setCoef a i v) k = if k = i then v else coef a k := by
  rw [setCoef, coef_canon]
  have hlen : i < (a ++ List.replicate (i + 1 - a.length) 0).length := by simp; omega
  by_cases hk : k = i
  · subst hk
    simp only [coef, List.getD, List.getElem?_set_self hlen, if_true, Option.getD_some]
  · simp only [coef, List.getD, List.getElem?_set_ne (Ne.symm hk), hk, if_false]
    by_cases hka : k < a.length
    · rw [List.getElem?_append_left hka]
    · rw [List.getElem?_append_right (by omega), List.getElem?_eq_none (l := a) (by omega), List.getElem?_replicate]
      split <;> rfl

theorem elemsOk_setCoef {i : Nat} {v : Elem} (ha : elemsOk P a) (hv : v < P.card) : elemsOk P (setCoef a i v) := by
  refine elemsOk_canon fun c hc => ?_
  rcases List.mem_or_eq_of_mem_set hc with hc | rfl
  · rcases List.mem_append.1 hc with hc | hc
    · exact ha c hc
    · rw [(List.mem_replicate.1 hc).2]
      exact card_pos
  · exact hv

theorem length_setCoef_le (a : Poly) (i : Nat) (v : Elem) : (setCoef a i v).length ≤ max a.length (i + 1) := by
  refine (length_canon_le _).trans ?_
  simp
  omega

theorem coef_vecOfPoly (a : Poly) (len k : Nat) : coef (vecOfPoly a len) k = if k < len then coef a k else 0 := by
  unfold vecOfPoly
  by_cases hk : k < len
  · rw [coef_eq_getElem (by simpa using hk)]
    simp [hk]
  · rw [coef_of_length_le (by simpa using hk)]
    simp [hk]

@[simp] theorem length_vecOfPoly (a : Poly) (len : Nat) : (vecOfPoly a len).length = len := by simp [vecOfPoly]

theorem elemsOk_vecOfPoly {len : Nat} (ha : elemsOk P a) : elemsOk P (vecOfPoly a len) := by
  intro c hc
  obtain ⟨k, _, rfl⟩ := List.mem_map.1 hc
  exact coef_lt ha k

theorem canonical_polyOfVec (v : Vec) : canonical (polyOfVec v) := canonical_canon v

@[simp] theorem coef_polyOfVec (v : Vec) (k : Nat) : coef (polyOfVec v) k = coef v k := coef_canon v k

theorem elemsOk_polyOfVec {v : Vec} (h : elemsOk P v) : elemsOk P (polyOfVec v) := elemsOk_canon h

/-- P2V after V2P restores the vector, V2P after P2V the polynomial, when the length holds all coefficients (R187). -/
theorem vecOfPoly_polyOfVec (v : Vec) : vecOfPoly (polyOfVec v) v.length = v := by
  apply List.ext_getElem (by simp)
  intro k h1 h2
  rw [← coef_eq_getElem h1, ← coef_eq_getElem h2, coef_vecOfPoly, coef_polyOfVec]
  simp [h2]

theorem polyOfVec_vecOfPoly (ha : canonical a) {len : Nat} (h : a.length ≤ len) : polyOfVec (vecOfPoly a len) = a :=
  poly_ext (canonical_polyOfVec _) ha fun k => by
    rw [coef_polyOfVec, coef_vecOfPoly]
    split
    · rfl
    · exact (coef_of_length_le (by omega)).symm

/-- The ring modulus x^r + 1, r ≥ 1: canonical, r + 1 coefficients, 1 at 0 and at r (R170). -/
theorem canonical_ringModulus (r : Nat) : canonical (ringModulus r) := by
  cases r with
  | zero => exact canonical_nil
  | succ r => simp [ringModulus, canonical, List.getLast?_cons]

@[simp] theorem length_ringModulus (r : Nat) (hr : r ≠ 0) : (ringModulus r).length = r + 1 := by
  cases r with
  | zero => exact absurd rfl hr
  | succ r => simp [ringModulus]

theorem coef_ringModulus {r : Nat} (hr : r ≠ 0) (k : Nat) :
    coef (ringModulus r) k = if k = 0 ∨ k = r then 1 else 0 := by
  cases r with
  | zero => exact absurd rfl hr
  | succ r =>
    cases k with
    | zero => simp [ringModulus]
    | succ k =>
      rw [ringModulus, coef_cons_succ]
      simp only [coef, List.getD]
      rcases lt_trichotomy k r with h | h | h
      · rw [List.getElem?_append_left (by simpa using h)]
        simp [h, h.ne]
      · subst h
        simp
      · rw [List.getElem?_eq_none (by simp; omega)]
        simp [h.ne']

theorem elemsOk_ringModulus (h1 : 1 < P.card) (r : Nat) : elemsOk P (ringModulus r) := by
  intro c hc
  have : c = 0 ∨ c = 1 := by
    cases r with
    | zero => simp [ringModulus] at hc
    | succ r =>
      simp only [ringModulus, List.mem_cons, List.mem_append, List.mem_replicate, List.not_mem_nil] at hc
      tauto
  rcases this with rfl | rfl
  · exact card_pos
  · exact h1

end Sys2Proof.Machine
end

