-- ==== Sys2Proof/Laws/FieldMap.lean ====
section
/-! SUPPORT. The bridge to Mathlib: the elements of F as a field, coefficient lists as polynomials over it, and every
polynomial operation of the block as the operation of that ring. -/

namespace Sys2Proof.Machine

open Polynomial

variable {P : Params}

/-- φ carries the elements of F, their sum and their product into a field, one to one and onto. -/
structure FieldMap (P : Params) {K : Type} [Field K] (φ : Elem → K) : Prop where
  zero : φ 0 = 0
  one : φ 1 = 1
  plus : ∀ a < P.card, ∀ b < P.card, φ (fplus a b) = φ a + φ b
  mul : ∀ a < P.card, ∀ b < P.card, φ (fmul P a b) = φ a * φ b
  inj : ∀ a < P.card, ∀ b < P.card, φ a = φ b → a = b
  surj : ∀ x : K, ∃ a < P.card, φ a = x

/-- The elements of F. -/
abbrev Fq (P : Params) := { a : Nat // a < P.card }

/-- The elements of F as a commutative ring, by the field laws. -/
@[reducible] def fqRing (L : FieldLaws P) (h1 : 1 < P.card) : CommRing (Fq P) where
  add a b := ⟨fplus a b, fplus_lt a.2 b.2⟩
  add_assoc a b c := Subtype.ext (fplus_assoc a.1 b.1 c.1)
  zero := ⟨0, card_pos⟩
  zero_add a := Subtype.ext (zero_fplus a.1)
  add_zero a := Subtype.ext (fplus_zero a.1)
  nsmul := @nsmulRec _ ⟨⟨0, card_pos⟩⟩ ⟨fun a b => ⟨fplus a b, fplus_lt a.2 b.2⟩⟩
  add_comm a b := Subtype.ext (fplus_comm a.1 b.1)
  mul a b := ⟨fmul P a b, L.mul_lt a a.2 b b.2⟩
  left_distrib a b c := Subtype.ext (L.mul_plus a.1 a.2 b.1 b.2 c.1 c.2)
  right_distrib a b c := Subtype.ext (by
    change fmul P (fplus a.1 b.1) c.1 = fplus (fmul P a.1 c.1) (fmul P b.1 c.1)
    rw [L.mul_comm _ (fplus_lt a.2 b.2) _ c.2, L.mul_plus _ c.2 _ a.2 _ b.2, L.mul_comm _ c.2 _ a.2,
      L.mul_comm _ c.2 _ b.2])
  zero_mul a := Subtype.ext (fmul_zero_left a.1)
  mul_zero a := Subtype.ext (fmul_zero_right a.1)
  mul_assoc a b c := Subtype.ext (L.mul_assoc a.1 a.2 b.1 b.2 c.1 c.2)
  one := ⟨1, h1⟩
  one_mul a := Subtype.ext ((L.mul_comm 1 h1 a.1 a.2).trans (L.mul_one a.1 a.2))
  mul_one a := Subtype.ext (L.mul_one a.1 a.2)
  neg a := a
  zsmul := @zsmulRec _ ⟨⟨0, card_pos⟩⟩ ⟨fun a b => ⟨fplus a b, fplus_lt a.2 b.2⟩⟩ ⟨fun a => a⟩
    (@nsmulRec _ ⟨⟨0, card_pos⟩⟩ ⟨fun a b => ⟨fplus a b, fplus_lt a.2 b.2⟩⟩)
  neg_add_cancel a := Subtype.ext (fplus_self a.1)
  mul_comm a b := Subtype.ext (L.mul_comm a.1 a.2 b.1 b.2)

theorem fq_isField (L : FieldLaws P) (h1 : 1 < P.card) : @IsField (Fq P) (fqRing L h1).toSemiring := by
  let _ := fqRing L h1
  refine { exists_pair_ne := ⟨0, 1, fun h => ?_⟩, mul_comm := mul_comm, mul_inv_cancel := fun {a} ha => ?_ }
  · exact Nat.zero_ne_one (congrArg Subtype.val h)
  · have h0 : a.1 ≠ 0 := fun h => ha (Subtype.ext h)
    refine ⟨⟨finvOf P a.1, L.inv_lt a.1 a.2 h0⟩, Subtype.ext ?_⟩
    exact (L.mul_comm a.1 a.2 _ (L.inv_lt a.1 a.2 h0)).trans (L.inv_mul a.1 a.2 h0)

/-- Under the field laws the elements of F are a field in Mathlib's sense. -/
theorem exists_fieldMap (L : FieldLaws P) (h1 : 1 < P.card) :
    ∃ (K : Type) (_ : Field K) (φ : Elem → K), FieldMap P φ := by
  let _ := fqRing L h1
  refine ⟨Fq P, (fq_isField L h1).toField, fun a => ⟨a % P.card, Nat.mod_lt _ card_pos⟩, ?_⟩
  let _ := (fq_isField L h1).toField
  have e : ∀ a, a < P.card → a % P.card = a := fun a => Nat.mod_eq_of_lt
  refine FieldMap.mk ?_ ?_ ?_ ?_ ?_ ?_
  · exact Subtype.ext (Nat.zero_mod _)
  · exact Subtype.ext (e 1 h1)
  · intro a ha b hb
    refine Subtype.ext ?_
    change fplus a b % P.card = fplus (a % P.card) (b % P.card)
    rw [e a ha, e b hb, e _ (fplus_lt ha hb)]
  · intro a ha b hb
    refine Subtype.ext ?_
    change fmul P a b % P.card = fmul P (a % P.card) (b % P.card)
    rw [e a ha, e b hb, e _ (L.mul_lt a ha b hb)]
  · intro a ha b hb h
    have := congrArg Subtype.val h
    simpa [e a ha, e b hb] using this
  · intro x
    exact ⟨x.1, x.2, Subtype.ext (e _ x.2)⟩

theorem one_lt_card (h : ParamsOk P) : 1 < P.card := Nat.one_lt_two_pow (by have := h.n_pos; omega)

theorem ParamsOk.exists_fieldMap (h : ParamsOk P) : ∃ (K : Type) (_ : Field K) (φ : Elem → K), FieldMap P φ :=
  Machine.exists_fieldMap h.laws (one_lt_card h)

section

variable {K : Type} [Field K] {φ : Elem → K} (F : FieldMap P φ)
include F

theorem FieldMap.add_self (x : K) : x + x = 0 := by
  obtain ⟨a, ha, rfl⟩ := F.surj x
  rw [← F.plus a ha a ha, fplus_self, F.zero]

theorem FieldMap.charP : CharP K 2 :=
  CharTwo.of_one_ne_zero_of_two_eq_zero one_ne_zero (by
    have := F.add_self 1
    rwa [one_add_one_eq_two] at this)

theorem FieldMap.eq_zero {a : Elem} (ha : a < P.card) : φ a = 0 ↔ a = 0 := by
  constructor
  · intro h
    exact F.inj a ha 0 card_pos (by rw [h, F.zero])
  · rintro rfl
    exact F.zero

theorem FieldMap.inv (L : FieldLaws P) {a : Elem} (ha : a < P.card) (h0 : a ≠ 0) : φ (finvOf P a) = (φ a)⁻¹ := by
  have hi := L.inv_lt a ha h0
  have h1 : (1 : Elem) < P.card := by
    by_contra h
    exact h0 (Nat.lt_one_iff.1 (lt_of_lt_of_le ha (not_lt.1 h)))
  refine eq_inv_of_mul_eq_one_left ?_
  rw [← F.mul _ hi _ ha, L.inv_mul a ha h0, F.one]

theorem FieldMap.quot (L : FieldLaws P) {a b : Elem} (ha : a < P.card) (hb : b < P.card) (h0 : b ≠ 0) :
    φ (fquot P a b) = φ a / φ b := by
  rw [fquot, F.mul a ha _ (L.inv_lt b hb h0), F.inv L hb h0, div_eq_mul_inv]

end

/-! ## Coefficient lists as polynomials -/

/-- The polynomial over K of a coefficient list. -/
noncomputable def toPoly {K : Type} [Field K] (φ : Elem → K) : List Elem → K[X]
  | [] => 0
  | c :: cs => C (φ c) + X * toPoly φ cs

section

variable {K : Type} [Field K] {φ : Elem → K}

@[simp] theorem toPoly_nil : toPoly φ [] = 0 := rfl

theorem toPoly_cons (c : Elem) (cs : List Elem) : toPoly φ (c :: cs) = C (φ c) + X * toPoly φ cs := rfl

theorem toPoly_single (c : Elem) : toPoly φ [c] = C (φ c) := by simp [toPoly_cons]

variable (F : FieldMap P φ)
include F

theorem FieldMap.coeff_toPoly (l : List Elem) (k : Nat) : (toPoly φ l).coeff k = φ (coef l k) := by
  induction l generalizing k with
  | nil => simp [F.zero]
  | cons c cs ih =>
    cases k with
    | zero => simp [toPoly_cons]
    | succ k => simp [toPoly_cons, ih]

theorem FieldMap.toPoly_canon (l : List Elem) : toPoly φ (canon l) = toPoly φ l := by
  ext k
  rw [F.coeff_toPoly, F.coeff_toPoly, coef_canon]

/-- Canonical polynomials over F are equal when their images are. -/
theorem FieldMap.toPoly_inj {a b : Poly} (ha : canonical a) (hb : canonical b) (ea : elemsOk P a) (eb : elemsOk P b)
    (h : toPoly φ a = toPoly φ b) : a = b :=
  poly_ext ha hb fun k => F.inj _ (coef_lt ea k) _ (coef_lt eb k) (by
    rw [← F.coeff_toPoly, ← F.coeff_toPoly, h])

theorem FieldMap.toPoly_eq_zero {a : Poly} (ha : canonical a) (ea : elemsOk P a) : toPoly φ a = 0 ↔ a = [] := by
  constructor
  · intro h
    exact F.toPoly_inj ha canonical_nil ea elemsOk_nil (by rw [h, toPoly_nil])
  · rintro rfl
    rfl

theorem FieldMap.toPoly_one : toPoly φ [1] = 1 := by simp [toPoly_cons, F.one]

theorem FieldMap.toPoly_addRaw {l m : List Elem} (hl : elemsOk P l) (hm : elemsOk P m) :
    toPoly φ (addRaw l m) = toPoly φ l + toPoly φ m := by
  ext k
  rw [coeff_add, F.coeff_toPoly, F.coeff_toPoly, F.coeff_toPoly, coef_addRaw,
    F.plus _ (coef_lt hl k) _ (coef_lt hm k)]

theorem FieldMap.toPoly_add {a b : Poly} (ha : elemsOk P a) (hb : elemsOk P b) :
    toPoly φ (polyAdd a b) = toPoly φ a + toPoly φ b := by
  rw [polyAdd, F.toPoly_canon, F.toPoly_addRaw ha hb]

theorem FieldMap.toPoly_map_fmul {s : Elem} (hs : s < P.card) {l : List Elem} (hl : elemsOk P l) :
    toPoly φ (l.map (fmul P s)) = C (φ s) * toPoly φ l := by
  ext k
  rw [coeff_C_mul, F.coeff_toPoly, F.coeff_toPoly, coef_map_fmul, F.mul _ hs _ (coef_lt hl k)]

theorem FieldMap.toPoly_scale {s : Elem} (hs : s < P.card) {a : Poly} (ha : elemsOk P a) :
    toPoly φ (polyScale P s a) = C (φ s) * toPoly φ a := by
  rw [polyScale, F.toPoly_canon, F.toPoly_map_fmul hs ha]

theorem FieldMap.toPoly_mulRaw (L : FieldLaws P) {l m : List Elem} (hl : elemsOk P l) (hm : elemsOk P m) :
    toPoly φ (mulRaw P l m) = toPoly φ l * toPoly φ m := by
  induction l with
  | nil => simp [mulRaw]
  | cons x l ih =>
    have hl' : elemsOk P l := fun d hd => hl d (by simp [hd])
    have hx := hl x (by simp)
    have hr : elemsOk P (0 :: mulRaw P l m) := fun c hc => by
      rcases List.mem_cons.1 hc with rfl | hc
      · exact card_pos
      · exact elemsOk_mulRaw L hl' hm c hc
    rw [mulRaw, F.toPoly_addRaw (elemsOk_map_fmul L hx hm) hr, F.toPoly_map_fmul hx hm, toPoly_cons, ih hl',
      toPoly_cons, F.zero]
    simp
    ring

theorem FieldMap.toPoly_mul (L : FieldLaws P) {a b : Poly} (ha : elemsOk P a) (hb : elemsOk P b) :
    toPoly φ (polyMul P a b) = toPoly φ a * toPoly φ b := by
  rw [polyMul, F.toPoly_canon, F.toPoly_mulRaw L ha hb]

theorem FieldMap.toPoly_shl (k : Nat) (a : Poly) : toPoly φ (polyShl k a) = X ^ k * toPoly φ a := by
  ext i
  rw [F.coeff_toPoly, coef_polyShl, coeff_X_pow_mul', F.coeff_toPoly]
  split <;> split <;> first | rfl | omega | exact F.zero

theorem FieldMap.toPoly_setCoef (a : Poly) (i : Nat) (v : Elem) (h0 : coef a i = 0) :
    toPoly φ (setCoef a i v) = toPoly φ a + C (φ v) * X ^ i := by
  ext k
  rw [coeff_add, coeff_C_mul, coeff_X_pow, F.coeff_toPoly, F.coeff_toPoly, coef_setCoef]
  by_cases hk : k = i
  · subst hk
    simp [h0, F.zero]
  · simp [hk]

theorem FieldMap.toPoly_ringModulus {r : Nat} (hr : r ≠ 0) : toPoly φ (ringModulus r) = X ^ r + 1 := by
  ext k
  rw [coeff_add, coeff_X_pow, coeff_one, F.coeff_toPoly, coef_ringModulus hr]
  by_cases h0 : k = 0
  · subst h0
    simp [F.one, hr.symm]
  · by_cases hk : k = r
    · subst hk
      simp [F.one, h0]
    · simp [h0, hk, F.zero]

theorem FieldMap.natDegree_toPoly {a : Poly} (ha : canonical a) (ea : elemsOk P a) :
    (toPoly φ a).natDegree = deg a := by
  by_cases hne : a = []
  · subst hne
    rfl
  · have hlead : φ (lead a) ≠ 0 := fun h => lead_ne_zero ha hne ((F.eq_zero (coef_lt ea _)).1 h)
    apply natDegree_eq_of_le_of_coeff_ne_zero
    · rw [natDegree_le_iff_coeff_eq_zero]
      intro k hk
      have := deg_add_one hne
      rw [F.coeff_toPoly, coef_of_length_le (by omega), F.zero]
    · rw [F.coeff_toPoly]
      exact hlead

theorem FieldMap.leadingCoeff_toPoly {a : Poly} (ha : canonical a) (ea : elemsOk P a) :
    (toPoly φ a).leadingCoeff = φ (lead a) := by
  rw [leadingCoeff, F.natDegree_toPoly ha ea, F.coeff_toPoly]
  rfl

/-- "r is zero or deg r < deg b" (R121, R125) is the degree order of Mathlib. -/
theorem FieldMap.degree_lt_iff {r b : Poly} (hr : canonical r) (er : elemsOk P r) (hb : canonical b)
    (eb : elemsOk P b) (hne : b ≠ []) :
    (toPoly φ r).degree < (toPoly φ b).degree ↔ r = [] ∨ deg r < deg b := by
  have hb0 : toPoly φ b ≠ 0 := fun h => hne ((F.toPoly_eq_zero hb eb).1 h)
  by_cases hr0 : r = []
  · subst hr0
    simp [bot_lt_iff_ne_bot, degree_eq_bot, hb0]
  · have : toPoly φ r ≠ 0 := fun h => hr0 ((F.toPoly_eq_zero hr er).1 h)
    rw [degree_eq_natDegree this, degree_eq_natDegree hb0, F.natDegree_toPoly hr er, F.natDegree_toPoly hb eb]
    simp [hr0]

/-- Every polynomial over K is the image of a canonical polynomial over F. -/
theorem FieldMap.exists_toPoly (p : K[X]) : ∃ a, canonical a ∧ elemsOk P a ∧ toPoly φ a = p := by
  choose g hg hφ using F.surj
  refine ⟨canon ((List.range (p.natDegree + 1)).map fun i => g (p.coeff i)), canonical_canon _, elemsOk_canon ?_, ?_⟩
  · intro c hc
    obtain ⟨i, _, rfl⟩ := List.mem_map.1 hc
    exact hg _
  · ext k
    rw [F.toPoly_canon, F.coeff_toPoly]
    by_cases hk : k < p.natDegree + 1
    · rw [coef_eq_getElem (by simpa using hk)]
      simp [hφ]
    · rw [coef_of_length_le (by simpa using hk), F.zero, coeff_eq_zero_of_natDegree_lt (by omega)]

end

end Sys2Proof.Machine
end

