-- ==== Sys2Proof/Laws/Division.lean ====
section
/-! SUPPORT. What Euclidean division can do (R125): the identity, the degree bound, uniqueness, the lengths. -/

namespace Sys2Proof.Machine

open Polynomial

variable {P : Params} {a b : Poly}

/-- (x / y) · y = x for y ≠ 0. -/
theorem fquot_fmul (L : FieldLaws P) {x y : Elem} (hx : x < P.card) (hy : y < P.card) (h0 : y ≠ 0) :
    fmul P (fquot P x y) y = x := by
  rw [fquot, L.mul_assoc x hx _ (L.inv_lt y hy h0) y hy, L.inv_mul y hy h0, L.mul_one x hx]

theorem fquot_lt (L : FieldLaws P) {x y : Elem} (hx : x < P.card) (hy : y < P.card) (h0 : y ≠ 0) :
    fquot P x y < P.card := L.mul_lt x hx _ (L.inv_lt y hy h0)

/-- One turn of long division shortens the remainder. -/
theorem length_division_turn (L : FieldLaws P) {r : Poly} (er : elemsOk P r) (hne : r ≠ [])
    (hb : canonical b) (eb : elemsOk P b) (hbne : b ≠ []) (hd : deg b ≤ deg r) :
    (polyAdd r (polyShl (deg r - deg b) (polyScale P (fquot P (lead r) (lead b)) b))).length + 1 ≤ r.length := by
  have hlr := deg_add_one hne
  have hlb := deg_add_one hbne
  suffices h : (polyAdd r (polyShl (deg r - deg b) (polyScale P (fquot P (lead r) (lead b)) b))).length ≤ deg r by omega
  refine length_le_of_coef (canonical_polyAdd _ _) fun k hk => ?_
  rw [coef_polyAdd, coef_polyShl, if_neg (by omega), coef_polyScale, fplus_eq_zero]
  by_cases hkr : k = deg r
  · subst hkr
    rw [show deg r - (deg r - deg b) = deg b by omega]
    exact (fquot_fmul L (coef_lt er _) (coef_lt eb _) (lead_ne_zero hb hbne)).symm
  · rw [coef_of_length_le (a := r) (by omega), coef_of_length_le (a := b) (by omega), fmul_zero_right]

section

variable {K : Type} [Field K] {φ : Elem → K}

/-- The loop of long division keeps q·b + r, and ends with a remainder below b (R125). -/
theorem FieldMap.divLoop_spec (F : FieldMap P φ) (L : FieldLaws P) (hb : canonical b) (eb : elemsOk P b)
    (hbne : b ≠ []) (k : Nat) (q r : Poly) (hq : canonical q) (eq : elemsOk P q) (hr : canonical r)
    (er : elemsOk P r) (hk : r.length ≤ k) (hlow : ∀ i, i + b.length ≤ r.length → coef q i = 0) :
    canonical (divLoop P b k q r).1 ∧ elemsOk P (divLoop P b k q r).1 ∧ canonical (divLoop P b k q r).2 ∧
      elemsOk P (divLoop P b k q r).2 ∧
      ((divLoop P b k q r).2 = [] ∨ deg (divLoop P b k q r).2 < deg b) ∧
      toPoly φ q * toPoly φ b + toPoly φ r =
        toPoly φ (divLoop P b k q r).1 * toPoly φ b + toPoly φ (divLoop P b k q r).2 ∧
      (divLoop P b k q r).1.length ≤ max q.length (r.length + 1 - b.length) := by
  induction k generalizing q r with
  | zero =>
    have : r = [] := List.length_eq_zero_iff.1 (by omega)
    subst this
    exact ⟨hq, eq, hr, er, .inl rfl, rfl, Nat.le_max_left _ _⟩
  | succ k ih =>
    rw [divLoop]
    split
    · rename_i h
      exact ⟨hq, eq, hr, er, h, rfl, Nat.le_max_left _ _⟩
    · rename_i h
      push Not at h
      obtain ⟨hne, hd⟩ := h
      have hlr := deg_add_one hne
      have hlb := deg_add_one hbne
      have hc : fquot P (lead r) (lead b) < P.card := fquot_lt L (coef_lt er (deg r)) (coef_lt eb (deg b)) (lead_ne_zero hb hbne)
      have hlen := length_division_turn L er hne hb eb hbne hd
      have es : elemsOk P (polyShl (deg r - deg b) (polyScale P (fquot P (lead r) (lead b)) b)) :=
        elemsOk_polyShl (elemsOk_polyScale L hc eb)
      have hq0 : coef q (deg r - deg b) = 0 := hlow _ (by omega)
      obtain ⟨h1, h2, h3, h4, h5, h6, h7⟩ := ih
        (setCoef q (deg r - deg b) (fquot P (lead r) (lead b)))
        (polyAdd r (polyShl (deg r - deg b) (polyScale P (fquot P (lead r) (lead b)) b)))
        (canonical_setCoef _ _ _) (elemsOk_setCoef eq hc) (canonical_polyAdd _ _) (elemsOk_polyAdd er es) (by omega)
        (fun i hi => by
          rw [coef_setCoef, if_neg (by omega)]
          exact hlow i (by omega))
      refine ⟨h1, h2, h3, h4, h5, ?_, ?_⟩
      · rw [← h6, F.toPoly_setCoef _ _ _ hq0, F.toPoly_add er es, F.toPoly_shl, F.toPoly_scale hc eb]
        have h2 := F.charP
        linear_combination (-1 : K[X]) * CharTwo.add_self_eq_zero
          (C (φ (fquot P (lead r) (lead b))) * X ^ (deg r - deg b) * toPoly φ b)
      · refine h7.trans ?_
        have := length_setCoef_le q (deg r - deg b) (fquot P (lead r) (lead b))
        omega

/-- In K[X], the quotient and the remainder of an identity with a remainder below the divisor. -/
theorem div_mod_unique {A B Q R : K[X]} (h : A = Q * B + R) (hd : R.degree < B.degree) : Q = A / B ∧ R = A % B := by
  have hB : B ≠ 0 := by
    rintro rfl
    simp at hd
  have h2 : B * (A / B) + A % B = A := EuclideanDomain.div_add_mod A B
  have h3 : (A % B).degree < B.degree := EuclideanDomain.mod_lt A hB
  have h4 : (Q - A / B) * B = A % B - R := by linear_combination (-1 : K[X]) * h - h2
  have h5 : Q - A / B = 0 := by
    by_contra hne
    have h6 : B.degree ≤ ((Q - A / B) * B).degree := by
      rw [mul_comm]
      exact degree_le_mul_left B hne
    rw [h4] at h6
    exact absurd (h6.trans (degree_sub_le _ _)) (not_le.2 (max_lt h3 hd))
  have h6 : Q = A / B := sub_eq_zero.1 h5
  refine ⟨h6, ?_⟩
  rw [h5, zero_mul] at h4
  exact (sub_eq_zero.1 h4.symm).symm

end

/-- div_rem(a, b) is the quotient and remainder, with their lengths (R125). -/
theorem divRem_spec (h : ParamsOk P) (ha : canonical a) (ea : elemsOk P a) (hb : canonical b) (eb : elemsOk P b)
    (hbne : b ≠ []) :
    IsDivRem P a b (divRem P a b).1 (divRem P a b).2 ∧ (divRem P a b).1.length ≤ a.length + 1 - b.length ∧
      (divRem P a b).2.length < b.length := by
  obtain ⟨K, _, φ, F⟩ := h.exists_fieldMap
  obtain ⟨h1, h2, h3, h4, h5, h6, h7⟩ := F.divLoop_spec h.laws hb eb hbne a.length [] a canonical_nil elemsOk_nil
    ha ea le_rfl (fun i _ => rfl)
  refine ⟨⟨?_, h5, h1, h3, h2, h4⟩, by simpa [divRem] using h7, ?_⟩
  · change a = polyAdd (polyMul P (divLoop P b a.length [] a).1 b) (divLoop P b a.length [] a).2
    refine F.toPoly_inj ha (canonical_polyAdd _ _) ea (elemsOk_polyAdd (elemsOk_polyMul h.laws h2 eb) h4) ?_
    rw [F.toPoly_add (elemsOk_polyMul h.laws h2 eb) h4, F.toPoly_mul h.laws h2 eb, ← h6]
    simp
  · have := List.length_pos_of_ne_nil hbne
    rw [divRem]
    rcases h5 with h5 | h5
    · rw [h5]
      exact this
    · unfold deg at h5
      omega

/-- The identity of division in K[X]. -/
theorem FieldMap.toPoly_isDivRem {K : Type} [Field K] {φ : Elem → K} (F : FieldMap P φ) (L : FieldLaws P)
    {q r : Poly} (hb : canonical b) (eb : elemsOk P b) (hbne : b ≠ []) (h : IsDivRem P a b q r) :
    toPoly φ a = toPoly φ q * toPoly φ b + toPoly φ r ∧ toPoly φ q = toPoly φ a / toPoly φ b ∧
      toPoly φ r = toPoly φ a % toPoly φ b := by
  obtain ⟨h1, h2, h3, h4, h5, h6⟩ := h
  have e : toPoly φ a = toPoly φ q * toPoly φ b + toPoly φ r := by
    rw [h1, F.toPoly_add (elemsOk_polyMul L h5 eb) h6, F.toPoly_mul L h5 eb]
  exact ⟨e, div_mod_unique e ((F.degree_lt_iff h4 h6 hb eb hbne).2 h2)⟩

/-- Quotient and remainder are unique (R125). -/
theorem isDivRem_unique (h : ParamsOk P) (hb : canonical b) (eb : elemsOk P b) (hbne : b ≠ []) {q r q' r' : Poly}
    (h1 : IsDivRem P a b q r) (h2 : IsDivRem P a b q' r') : q' = q ∧ r' = r := by
  obtain ⟨K, _, φ, F⟩ := h.exists_fieldMap
  obtain ⟨_, e1, e2⟩ := F.toPoly_isDivRem h.laws hb eb hbne h1
  obtain ⟨_, e3, e4⟩ := F.toPoly_isDivRem h.laws hb eb hbne h2
  obtain ⟨_, _, c1, c2, c3, c4⟩ := h1
  obtain ⟨_, _, d1, d2, d3, d4⟩ := h2
  exact ⟨F.toPoly_inj d1 c1 d3 c3 (e3.trans e1.symm), F.toPoly_inj d2 c2 d4 c4 (e4.trans e2.symm)⟩

/-- The remainder in K[X]. -/
theorem FieldMap.toPoly_rem {K : Type} [Field K] {φ : Elem → K} (F : FieldMap P φ) (h : ParamsOk P)
    (ha : canonical a) (ea : elemsOk P a) (hb : canonical b) (eb : elemsOk P b) (hbne : b ≠ []) :
    toPoly φ (divRem P a b).2 = toPoly φ a % toPoly φ b :=
  (F.toPoly_isDivRem h.laws hb eb hbne (divRem_spec h ha ea hb eb hbne).1).2.2

end Sys2Proof.Machine
end

