-- ==== Sys2Proof/Laws/Gcd.lean ====
section
/-! SUPPORT. What the Euclidean sequence, its matrices, half-GCD, full GCD and the modular inverse can do
(42_gcd.md section 1). -/

namespace Sys2Proof.Machine

open Polynomial

variable {P : Params} {a b : Poly}

/-! ## Quotient sequences -/

/-- A pair of canonical polynomials over F. -/
def pairOk (P : Params) (a b : Poly) : Prop := (canonical a ∧ elemsOk P a) ∧ canonical b ∧ elemsOk P b

/-- The degrees of a quotient sequence, summed. -/
def degSum (qs : List Poly) : Nat := (qs.map deg).sum

@[simp] theorem degSum_nil : degSum [] = 0 := rfl

@[simp] theorem degSum_cons (q : Poly) (qs : List Poly) : degSum (q :: qs) = deg q + degSum qs := by simp [degSum]

theorem IsDivRem.pairOk {q r : Poly} (hab : pairOk P a b) (h : IsDivRem P a b q r) : pairOk P b r :=
  ⟨hab.2, h.2.2.2.1, h.2.2.2.2.2⟩

/-- What a quotient sequence keeps: canonical quotients and remainders, and the degrees given up. -/
theorem EuclidSteps.spec (h : ParamsOk P) {qs : List Poly} {a' b' : Poly} (e : EuclidSteps P a b qs a' b') :
    pairOk P a b → deg b ≤ deg a →
    pairOk P a' b' ∧ (∀ q ∈ qs, canonical q ∧ elemsOk P q) ∧ degSum qs + deg a' ≤ max (deg a) (deg b) ∧
      qs.length + b'.length ≤ b.length ∧ (qs ≠ [] → a' ≠ []) := by
  induction e with
  | done a b => exact fun hab _ => ⟨hab, by simp, by simp, by simp, by simp⟩
  | turn a b q r qs a' b' hb hd hs ih =>
    intro hab hdeg
    obtain ⟨⟨ha, ea⟩, hcb, eb⟩ := hab
    have hspec := divRem_spec h ha ea hcb eb hb
    obtain ⟨rfl, rfl⟩ := isDivRem_unique h hcb eb hb hspec.1 hd
    have hr := hspec.2.2
    have hql := hspec.2.1
    have hbl := deg_add_one hb
    obtain ⟨h1, h2, h3, h4, h5⟩ := ih (hd.pairOk ⟨⟨ha, ea⟩, hcb, eb⟩) (by unfold deg at *; omega)
    refine ⟨h1, ?_, ?_, ?_, ?_⟩
    · simp only [List.mem_cons, forall_eq_or_imp]
      exact ⟨⟨hd.2.2.1, hd.2.2.2.2.1⟩, h2⟩
    · have hq : deg (divRem P a b).1 + deg b ≤ deg a ∨ a = [] := by
        by_cases hane : a = []
        · exact .inr hane
        · have := deg_add_one hane
          left
          unfold deg at *
          omega
      have h6 : max (deg b) (deg (divRem P a b).2) = deg b := max_eq_left (by unfold deg; omega)
      rw [h6] at h3
      rw [max_eq_left hdeg]
      rcases hq with hq | rfl
      · rw [degSum_cons]
        omega
      · rw [degSum_cons]
        simp only [deg, List.length_nil] at hql hdeg ⊢
        simp only [deg] at h3
        omega
    · rw [List.length_cons]
      omega
    · intro _
      by_cases hqs : qs = []
      · subst hqs
        cases hs
        exact hb
      · exact h5 hqs

/-- The Euclidean loop with enough turns gives the whole quotient sequence (R150). -/
theorem euclidLoop_steps (h : ParamsOk P) (k : Nat) (a b : Poly) (hab : pairOk P a b) (hk : b.length ≤ k) :
    EuclidSteps P a b (euclidLoop P k a b).1 (euclidLoop P k a b).2 [] := by
  induction k generalizing a b with
  | zero =>
    obtain rfl : b = [] := List.length_eq_zero_iff.1 (by omega)
    exact .done _ _
  | succ k ih =>
    rw [euclidLoop]
    split
    · rename_i hb
      subst hb
      exact .done _ _
    · rename_i hb
      have hs := divRem_spec h hab.1.1 hab.1.2 hab.2.1 hab.2.2 hb
      exact .turn _ _ _ _ _ _ _ hb hs.1 (ih _ _ (hs.1.pairOk hab) (by have := hs.2.2; omega))

theorem euclid_steps (h : ParamsOk P) (hab : pairOk P a b) :
    EuclidSteps P a b (euclid P a b).1 (euclid P a b).2 [] := euclidLoop_steps h _ _ _ hab le_rfl

/-- The half-GCD loop gives the shortest prefix with a second remainder below m, for m ≥ 1 (R152). -/
theorem halfLoop_steps (h : ParamsOk P) {m : Nat} (hm : 0 < m) (k : Nat) (a b : Poly) (hab : pairOk P a b)
    (hk : b.length ≤ k) :
    (∃ a' b', EuclidSteps P a b (halfLoop P m k a b) a' b' ∧ deg b' < m) ∧
      ∀ j < (halfLoop P m k a b).length,
        ∃ a' b', EuclidSteps P a b ((halfLoop P m k a b).take j) a' b' ∧ m ≤ deg b' := by
  induction k generalizing a b with
  | zero =>
    obtain rfl : b = [] := List.length_eq_zero_iff.1 (by omega)
    exact ⟨⟨_, _, .done _ _, hm⟩, fun j hj => absurd hj (Nat.not_lt_zero j)⟩
  | succ k ih =>
    rw [halfLoop]
    split
    · rename_i hd
      exact ⟨⟨_, _, .done _ _, hd⟩, fun j hj => absurd hj (Nat.not_lt_zero j)⟩
    · rename_i hd
      have hb : b ≠ [] := by
        rintro rfl
        exact hd hm
      have hs := divRem_spec h hab.1.1 hab.1.2 hab.2.1 hab.2.2 hb
      obtain ⟨⟨a', b', h1, h2⟩, h3⟩ := ih _ _ (hs.1.pairOk hab) (by have := hs.2.2; omega)
      refine ⟨⟨a', b', .turn _ _ _ _ _ _ _ hb hs.1 h1, h2⟩, fun j hj => ?_⟩
      cases j with
      | zero => exact ⟨a, b, .done _ _, by omega⟩
      | succ j =>
        obtain ⟨c, d, h4, h5⟩ := h3 j (by simpa using hj)
        exact ⟨c, d, .turn _ _ _ _ _ _ _ hb hs.1 h4, h5⟩

theorem halfBound_pos (a : Poly) : 0 < halfBound a := by
  unfold halfBound
  omega

/-! ## Sizes of the matrix entries -/

/-- Every entry has length at most n, is canonical and over F. -/
def matLe (P : Params) (n : Nat) (x : Mat) : Prop :=
  (∀ y ∈ [x.m00, x.m01, x.m10, x.m11], canonical y ∧ elemsOk P y) ∧
    ∀ y ∈ [x.m00, x.m01, x.m10, x.m11], y.length ≤ n

theorem matLe_iff {n : Nat} {x : Mat} : matLe P n x ↔
    ((canonical x.m00 ∧ elemsOk P x.m00) ∧ (canonical x.m01 ∧ elemsOk P x.m01) ∧
      (canonical x.m10 ∧ elemsOk P x.m10) ∧ canonical x.m11 ∧ elemsOk P x.m11) ∧
    x.m00.length ≤ n ∧ x.m01.length ≤ n ∧ x.m10.length ≤ n ∧ x.m11.length ≤ n := by
  simp [matLe]

theorem length_polyMul_le_deg (x q : Poly) : (polyMul P x q).length ≤ x.length + deg q := by
  by_cases hq : q = []
  · simp [hq]
  · have := length_polyMul_le (P := P) (a := x) hq
    unfold deg
    omega

theorem elemsOk_one (h1 : 1 < P.card) : elemsOk P [1] :=
  elemsOk_cons.2 ⟨h1, elemsOk_nil⟩

/-- A row times Q(q) (R151). -/
theorem rowStep_spec (h : ParamsOk P) {x y q : Poly} (hx : elemsOk P x) (hy : elemsOk P y) (hq : elemsOk P q)
    {n : Nat} (lx : x.length ≤ n) (ly : y.length ≤ n) :
    ((canonical (polyAdd (polyMul P x q) (polyMul P y [1])) ∧
        elemsOk P (polyAdd (polyMul P x q) (polyMul P y [1]))) ∧
      canonical (polyAdd (polyMul P x [1]) (polyMul P y [])) ∧
        elemsOk P (polyAdd (polyMul P x [1]) (polyMul P y []))) ∧
    (polyAdd (polyMul P x q) (polyMul P y [1])).length ≤ n + deg q ∧
    (polyAdd (polyMul P x [1]) (polyMul P y [])).length ≤ n + deg q := by
  have o := elemsOk_one (one_lt_card h)
  have m1 := length_polyMul_le_deg (P := P) x q
  have m2 := length_polyMul_le_deg (P := P) y [1]
  have m3 := length_polyMul_le_deg (P := P) x [1]
  have a1 := length_polyAdd_le (polyMul P x q) (polyMul P y [1])
  have a2 := length_polyAdd_le (polyMul P x [1]) (polyMul P y [])
  simp only [deg, List.length_singleton, Nat.sub_self] at m2 m3
  rw [polyMul_nil] at a2 ⊢
  refine ⟨⟨⟨canonical_polyAdd _ _, elemsOk_polyAdd (elemsOk_polyMul h.laws hx hq) (elemsOk_polyMul h.laws hy o)⟩,
    canonical_polyAdd _ _, elemsOk_polyAdd (elemsOk_polyMul h.laws hx o) elemsOk_nil⟩, ?_, ?_⟩
  · omega
  · simp only [List.length_nil] at a2
    omega

theorem matLe_matId (h : ParamsOk P) : matLe P 1 matId := by
  have o := elemsOk_one (one_lt_card h)
  have c : canonical [1] := by decide
  exact matLe_iff.2 ⟨⟨⟨c, o⟩, ⟨canonical_nil, elemsOk_nil⟩, ⟨canonical_nil, elemsOk_nil⟩, c, o⟩, by decide⟩

/-- The forward matrix of a quotient sequence has entries of length at most the degrees' sum and one (R151). -/
theorem matLe_forwardMat (h : ParamsOk P) {qs : List Poly} (hq : ∀ q ∈ qs, canonical q ∧ elemsOk P q) :
    matLe P (1 + degSum qs) (forwardMat P qs) := by
  suffices H : ∀ (n : Nat) (x : Mat), matLe P n x →
      matLe P (n + degSum qs) (qs.foldl (fun x q => matMul P x (stepMat q)) x) from H 1 matId (matLe_matId h)
  induction qs with
  | nil => exact fun n x hx => hx
  | cons q qs ih =>
    intro n x hx
    rw [degSum_cons, ← Nat.add_assoc]
    refine ih (fun y hy => hq y (List.mem_cons_of_mem _ hy)) _ _ ?_
    obtain ⟨⟨⟨-, c0⟩, ⟨-, c1⟩, ⟨-, c2⟩, -, c3⟩, l0, l1, l2, l3⟩ := matLe_iff.1 hx
    have eq := (hq q List.mem_cons_self).2
    obtain ⟨⟨r1, r2⟩, r3, r4⟩ := rowStep_spec h c0 c1 eq l0 l1
    obtain ⟨⟨t1, t2⟩, t3, t4⟩ := rowStep_spec h c2 c3 eq l2 l3
    exact matLe_iff.2 ⟨⟨r1, r2, t1, t2⟩, r3, r4, t3, t4⟩

theorem matLe.adj {n : Nat} {x : Mat} (h : matLe P n x) : matLe P n (matAdj x) := by
  rw [matLe_iff] at h ⊢
  exact ⟨⟨h.1.2.2.2, h.1.2.1, h.1.2.2.1, h.1.1⟩, h.2.2.2.2, h.2.2.1, h.2.2.2.1, h.2.1⟩

theorem matLe.matOk {n : Nat} {x : Mat} (h : matLe P n x) (hn : n ≤ P.lmax) : matOk P x := by
  obtain ⟨⟨h0, h1, h2, h3⟩, l0, l1, l2, l3⟩ := matLe_iff.1 h
  exact ⟨⟨h0.1, h0.2, l0.trans hn⟩, ⟨h1.1, h1.2, l1.trans hn⟩, ⟨h2.1, h2.2, l2.trans hn⟩, h3.1, h3.2, l3.trans hn⟩

/-- What a quotient sequence of storable operands leaves in QSEQ and M fits them (R22, R23, R139). -/
theorem EuclidSteps.storage (h : ParamsOk P) {qs : List Poly} {a' b' : Poly} (e : EuclidSteps P a b qs a' b')
    (ha : polyOk P a) (hb : polyOk P b) (hd : deg b ≤ deg a) :
    qseqOk P qs ∧ matOk P (forwardMat P qs) ∧ matOk P (matAdj (forwardMat P qs)) ∧ polyOk P a' := by
  have hl : 1 ≤ P.lmax := by
    have := h.rmax_pos
    unfold Params.lmax
    omega
  obtain ⟨h1, h2, h3, h4, h5⟩ := e.spec h ⟨⟨ha.1, ha.2.1⟩, hb.1, hb.2.1⟩ hd
  rw [max_eq_left hd] at h3
  have la := ha.2.2
  have lb := hb.2.2
  have hs : degSum qs + deg a' + 1 ≤ P.lmax := by
    unfold deg at *
    omega
  have hm := matLe_forwardMat h h2
  refine ⟨⟨fun q hq => ⟨(h2 q hq).1, (h2 q hq).2, ?_⟩, by omega, ?_⟩, hm.matOk (by omega), hm.adj.matOk (by omega),
    h1.1.1, h1.1.2, by unfold deg at *; omega⟩
  · have : deg q ≤ degSum qs := List.single_le_sum (fun _ _ => Nat.zero_le _) _ (List.mem_map_of_mem hq)
    unfold deg at *
    omega
  · have : (qs.map fun q => deg q + 1).sum = degSum qs + qs.length := by
      clear * -
      induction qs with
      | nil => rfl
      | cons q qs ih =>
        simp only [List.map_cons, List.sum_cons, degSum_cons, List.length_cons, ih]
        omega
    omega

/-! ## The matrix identities, in K[X] -/

section

variable {K : Type} [Field K] {φ : Elem → K}

/-- A matrix over K[X]. -/
noncomputable def toMat (φ : Elem → K) (x : Mat) : Matrix (Fin 2) (Fin 2) K[X] :=
  !![toPoly φ x.m00, toPoly φ x.m01; toPoly φ x.m10, toPoly φ x.m11]

/-- The entries are over F. -/
def matElems (P : Params) (x : Mat) : Prop :=
  elemsOk P x.m00 ∧ elemsOk P x.m01 ∧ elemsOk P x.m10 ∧ elemsOk P x.m11

theorem matLe.elems {n : Nat} {x : Mat} (h : matLe P n x) : matElems P x := by
  obtain ⟨⟨h0, h1, h2, h3⟩, -⟩ := matLe_iff.1 h
  exact ⟨h0.2, h1.2, h2.2, h3.2⟩

theorem matElems.mul (h : ParamsOk P) {x y : Mat} (hx : matElems P x) (hy : matElems P y) :
    matElems P (matMul P x y) := by
  obtain ⟨x0, x1, x2, x3⟩ := hx
  obtain ⟨y0, y1, y2, y3⟩ := hy
  have M : ∀ {c d : Poly}, elemsOk P c → elemsOk P d → elemsOk P (polyMul P c d) := elemsOk_polyMul h.laws
  exact ⟨elemsOk_polyAdd (M x0 y0) (M x1 y2), elemsOk_polyAdd (M x0 y1) (M x1 y3),
    elemsOk_polyAdd (M x2 y0) (M x3 y2), elemsOk_polyAdd (M x2 y1) (M x3 y3)⟩

theorem FieldMap.toMat_mul (F : FieldMap P φ) (h : ParamsOk P) {x y : Mat} (hx : matElems P x) (hy : matElems P y) :
    toMat φ (matMul P x y) = toMat φ x * toMat φ y := by
  obtain ⟨x0, x1, x2, x3⟩ := hx
  obtain ⟨y0, y1, y2, y3⟩ := hy
  have E : ∀ {c d e f : Poly}, elemsOk P c → elemsOk P d → elemsOk P e → elemsOk P f →
      toPoly φ (polyAdd (polyMul P c d) (polyMul P e f)) = toPoly φ c * toPoly φ d + toPoly φ e * toPoly φ f := by
    intro c d e f hc hd he hf
    rw [F.toPoly_add (elemsOk_polyMul h.laws hc hd) (elemsOk_polyMul h.laws he hf), F.toPoly_mul h.laws hc hd,
      F.toPoly_mul h.laws he hf]
  simp only [toMat, matMul, Matrix.mul_fin_two, E x0 y0 x1 y2, E x0 y1 x1 y3, E x2 y0 x3 y2, E x2 y1 x3 y3]

theorem FieldMap.toMat_stepMat (F : FieldMap P φ) (q : Poly) : toMat φ (stepMat q) = !![toPoly φ q, 1; 1, 0] := by
  simp [toMat, stepMat, F.toPoly_one]

theorem FieldMap.toMat_matId (F : FieldMap P φ) : toMat φ matId = 1 := by
  simp [toMat, matId, F.toPoly_one, Matrix.one_fin_two]

theorem matElems_stepMat (h : ParamsOk P) {q : Poly} (hq : elemsOk P q) : matElems P (stepMat q) :=
  ⟨hq, elemsOk_one (one_lt_card h), elemsOk_one (one_lt_card h), elemsOk_nil⟩

/-- The forward matrix is the product of the step matrices (R151). -/
theorem FieldMap.toMat_forwardMat (F : FieldMap P φ) (h : ParamsOk P) {qs : List Poly}
    (hq : ∀ q ∈ qs, elemsOk P q) :
    toMat φ (forwardMat P qs) = (qs.map fun q => !![toPoly φ q, 1; 1, 0]).prod := by
  suffices H : ∀ x : Mat, matElems P x →
      toMat φ (qs.foldl (fun x q => matMul P x (stepMat q)) x) =
        toMat φ x * (qs.map fun q => !![toPoly φ q, 1; 1, 0]).prod by
    rw [forwardMat, H matId (matLe_matId h).elems, F.toMat_matId, one_mul]
  induction qs with
  | nil => intro x _; simp
  | cons q qs ih =>
    intro x hx
    have hq1 := matElems_stepMat h (hq q List.mem_cons_self)
    rw [List.foldl_cons, ih (fun y hy => hq y (List.mem_cons_of_mem _ hy)) _ (hx.mul h hq1), F.toMat_mul h hx hq1,
      F.toMat_stepMat, List.map_cons, List.prod_cons, Matrix.mul_assoc]

/-- The forward matrix has determinant one (R162). -/
theorem FieldMap.det_forward (F : FieldMap P φ) (qs : List Poly) :
    ((qs.map fun q => !![toPoly φ q, (1 : K[X]); 1, 0]).prod).det = 1 := by
  have h2 := F.charP
  induction qs with
  | nil => simp
  | cons q qs ih =>
    rw [List.map_cons, List.prod_cons, Matrix.det_mul, ih, Matrix.det_fin_two_of, mul_zero, zero_sub, mul_one, mul_one]
    exact CharTwo.neg_eq 1

/-- The forward matrix takes the last pair back to the first (R151). -/
theorem FieldMap.forward_apply (F : FieldMap P φ) (h : ParamsOk P) {qs : List Poly} {a' b' : Poly}
    (e : EuclidSteps P a b qs a' b') (hab : pairOk P a b) :
    !![toPoly φ a; toPoly φ b] =
      (qs.map fun q => !![toPoly φ q, (1 : K[X]); 1, 0]).prod * !![toPoly φ a'; toPoly φ b'] := by
  induction e with
  | done a b => simp
  | turn a b q r qs a' b' hb hd hs ih =>
    rw [List.map_cons, List.prod_cons, Matrix.mul_assoc, ← ih (hd.pairOk hab),
      (F.toPoly_isDivRem h.laws hab.2.1 hab.2.2 hb hd).1]
    simp [Matrix.cons_mul]

theorem FieldMap.two_eq_zero (F : FieldMap P φ) : (2 : K[X]) = 0 := by
  have h2 := F.charP
  exact CharTwo.two_eq_zero

/-- A sum of two products of polynomials over F, in K[X]. -/
theorem FieldMap.toPoly_dot (F : FieldMap P φ) (h : ParamsOk P) {c d e f : Poly} (hc : elemsOk P c)
    (hd : elemsOk P d) (he : elemsOk P e) (hf : elemsOk P f) :
    toPoly φ (polyAdd (polyMul P c d) (polyMul P e f)) = toPoly φ c * toPoly φ d + toPoly φ e * toPoly φ f := by
  rw [F.toPoly_add (elemsOk_polyMul h.laws hc hd) (elemsOk_polyMul h.laws he hf), F.toPoly_mul h.laws hc hd,
    F.toPoly_mul h.laws he hf]

theorem elemsOk_dot (h : ParamsOk P) {c d e f : Poly} (hc : elemsOk P c) (hd : elemsOk P d) (he : elemsOk P e)
    (hf : elemsOk P f) : elemsOk P (polyAdd (polyMul P c d) (polyMul P e f)) :=
  elemsOk_polyAdd (elemsOk_polyMul h.laws hc hd) (elemsOk_polyMul h.laws he hf)

end

/-! ## The matrix identities, on polynomials -/

/-- The forward matrix takes the last pair back to the first, and its adjugate the first to the last (R151). -/
theorem EuclidSteps.matrix (h : ParamsOk P) {qs : List Poly} {a' b' : Poly} (e : EuclidSteps P a b qs a' b')
    (hab : pairOk P a b) (hd : deg b ≤ deg a) :
    matApply P (forwardMat P qs) a' b' = (a, b) ∧ applyAdj P (forwardMat P qs) a b = (a', b') ∧
      matDet P (forwardMat P qs) = [1] ∧ matDet P (matAdj (forwardMat P qs)) = [1] := by
  obtain ⟨K, _, φ, F⟩ := h.exists_fieldMap
  obtain ⟨h1, h2, -, -, -⟩ := e.spec h hab hd
  have hm := F.toMat_forwardMat h fun q hq => (h2 q hq).2
  have hdet := F.det_forward qs
  have happ := F.forward_apply h e hab
  obtain ⟨x0, x1, x2, x3⟩ := (matLe_forwardMat h h2).elems
  rw [← hm] at hdet happ
  simp only [toMat, Matrix.det_fin_two_of] at hdet
  have hA := congrFun (congrFun happ 0) 0
  have hB := congrFun (congrFun happ 1) 0
  simp only [toMat, Matrix.mul_apply, Fin.sum_univ_two, Matrix.of_apply, Matrix.cons_val_zero, Matrix.cons_val_one,
    Matrix.cons_val_fin_one] at hA hB
  have two := F.two_eq_zero
  have one : elemsOk P [1] := elemsOk_one (one_lt_card h)
  have c1 : canonical [1] := by decide
  obtain ⟨⟨ca, ea⟩, cb, eb⟩ := hab
  obtain ⟨⟨ca', ea'⟩, cb', eb'⟩ := h1
  refine ⟨Prod.ext ?_ ?_, Prod.ext ?_ ?_, ?_, ?_⟩
  · refine F.toPoly_inj (canonical_polyAdd _ _) ca (elemsOk_dot h x0 ea' x1 eb') ea ?_
    exact (F.toPoly_dot h x0 ea' x1 eb').trans (by linear_combination (-1 : K[X]) * hA)
  · refine F.toPoly_inj (canonical_polyAdd _ _) cb (elemsOk_dot h x2 ea' x3 eb') eb ?_
    exact (F.toPoly_dot h x2 ea' x3 eb').trans (by linear_combination (-1 : K[X]) * hB)
  · refine F.toPoly_inj (canonical_polyAdd _ _) ca' (elemsOk_dot h x3 ea x1 eb) ea' ?_
    refine (F.toPoly_dot h x3 ea x1 eb).trans ?_
    rw [hA, hB]
    linear_combination toPoly φ a' * hdet + (toPoly φ (forwardMat P qs).m01 * toPoly φ (forwardMat P qs).m10 *
      toPoly φ a' + toPoly φ (forwardMat P qs).m01 * toPoly φ (forwardMat P qs).m11 * toPoly φ b') * two
  · refine F.toPoly_inj (canonical_polyAdd _ _) cb' (elemsOk_dot h x2 ea x0 eb) eb' ?_
    refine (F.toPoly_dot h x2 ea x0 eb).trans ?_
    rw [hA, hB]
    linear_combination toPoly φ b' * hdet + (toPoly φ (forwardMat P qs).m01 * toPoly φ (forwardMat P qs).m10 *
      toPoly φ b' + toPoly φ (forwardMat P qs).m00 * toPoly φ (forwardMat P qs).m10 * toPoly φ a') * two
  · refine F.toPoly_inj (canonical_polyAdd _ _) c1 (elemsOk_dot h x0 x3 x1 x2) one ?_
    refine (F.toPoly_dot h x0 x3 x1 x2).trans ?_
    rw [F.toPoly_one]
    linear_combination hdet + toPoly φ (forwardMat P qs).m01 * toPoly φ (forwardMat P qs).m10 * two
  · refine F.toPoly_inj (canonical_polyAdd _ _) c1 (elemsOk_dot h x3 x0 x1 x2) one ?_
    refine (F.toPoly_dot h x3 x0 x1 x2).trans ?_
    rw [F.toPoly_one]
    linear_combination hdet + toPoly φ (forwardMat P qs).m01 * toPoly φ (forwardMat P qs).m10 * two

/-! ## The modular inverse -/

/-- The Euclidean sequence is a function of the pair: two whole sequences agree (R150). -/
theorem EuclidSteps.unique (h : ParamsOk P) {qs qs' : List Poly} {g g' : Poly} (e : EuclidSteps P a b qs g [])
    (hab : pairOk P a b) (e' : EuclidSteps P a b qs' g' []) : qs' = qs ∧ g' = g := by
  generalize hz : ([] : Poly) = z at e
  induction e generalizing qs' g' with
  | done a b =>
    subst hz
    cases e' with
    | done => exact ⟨rfl, rfl⟩
    | turn _ _ _ _ _ _ _ hb => exact absurd rfl hb
  | turn a b q r qs a' b' hb hd hs ih =>
    cases e' with
    | done => exact absurd rfl hb
    | turn _ _ q' r' qs' _ _ _ hd' hs' =>
      obtain ⟨rfl, rfl⟩ := isDivRem_unique h hab.2.1 hab.2.2 hb hd hd'
      obtain ⟨rfl, rfl⟩ := ih (hd.pairOk hab) hs' hz
      exact ⟨rfl, rfl⟩

theorem EuclidSteps.of_nil {a' b' : Poly} (e : EuclidSteps P a b [] a' b') : a' = a ∧ b' = b := by
  cases e
  exact ⟨rfl, rfl⟩

/-- From a pair with degrees strictly falling, the last quotient has positive degree. -/
theorem EuclidSteps.last_quotient {qs : List Poly} {g : Poly} (e : EuclidSteps P a b qs g [])
    (hab : pairOk P a b) (hd : deg b < deg a) (hb : b ≠ []) : ∃ qs' q, qs = qs' ++ [q] ∧ 0 < deg q := by
  generalize hz : ([] : Poly) = z at e
  induction e with
  | done a b => exact absurd hz.symm hb
  | turn a b q r qs a' b' _ hdr hs ih =>
    obtain ⟨⟨ha, ea⟩, hcb, eb⟩ := hab
    by_cases hr : r = []
    · subst hr
      cases hs with
      | done =>
        refine ⟨[], q, rfl, ?_⟩
        have h1 := hdr.1
        rw [polyAdd_nil (canonical_polyMul _ _)] at h1
        have h2 := length_polyMul_le (P := P) (a := q) hb
        rw [← h1] at h2
        have h3 := deg_add_one hb
        have h4 : a ≠ [] := by
          rintro rfl
          exact absurd hd (Nat.not_lt_zero _)
        have h5 := deg_add_one h4
        unfold deg at *
        omega
      | turn _ _ _ _ _ _ _ hne => exact absurd rfl hne
    · have hdr2 : deg r < deg b := by
        rcases hdr.2.1 with h1 | h1
        · exact absurd h1 hr
        · exact h1
      obtain ⟨qs', q', rfl, h2⟩ := ih (hdr.pairOk ⟨⟨ha, ea⟩, hcb, eb⟩) hdr2 hr hz
      exact ⟨q :: qs', q', rfl, h2⟩

/-- The entry m01 of a forward matrix has length at most the degrees' sum over all quotients but the last, and one. -/
theorem length_forwardMat_m01 (h : ParamsOk P) {qs : List Poly} {q : Poly}
    (hq : ∀ y ∈ qs, canonical y ∧ elemsOk P y) : (forwardMat P (qs ++ [q])).m01.length ≤ 1 + degSum qs := by
  have hm := (matLe_iff.1 (matLe_forwardMat h hq)).2.1
  have h1 := length_polyMul_le_deg (P := P) (forwardMat P qs).m00 [1]
  have h2 := length_polyAdd_le (polyMul P (forwardMat P qs).m00 [1]) (polyMul P (forwardMat P qs).m01 [])
  rw [polyMul_nil] at h2
  simp only [deg, List.length_singleton, List.length_nil, Nat.sub_self] at h1 h2
  have : (forwardMat P (qs ++ [q])).m01 =
      polyAdd (polyMul P (forwardMat P qs).m00 [1]) (polyMul P (forwardMat P qs).m01 []) := by
    rw [forwardMat, List.foldl_append]
    rfl
  rw [this, polyMul_nil]
  omega

theorem degSum_append (qs qs' : List Poly) : degSum (qs ++ qs') = degSum qs + degSum qs' := by simp [degSum]

/-- invert(p, mod): with b = p mod `mod` and g the last non-zero remainder of (mod, b), no inverse when b is zero or g
has positive degree, else the reduced inverse (R155). -/
theorem invert_spec (h : ParamsOk P) {p md : Poly} (hp : canonical p ∧ elemsOk P p) (hm : canonical md ∧ elemsOk P md)
    (hne : md ≠ []) {qs : List Poly} {g : Poly} (e : EuclidSteps P md (divRem P p md).2 qs g []) :
    (((divRem P p md).2 = [] ∨ 0 < deg g) → invert P p md = none ∧ ¬ ∃ q, IsInverse P p md q) ∧
      ((divRem P p md).2 ≠ [] → deg g = 0 → ∃ q, invert P p md = some q ∧ IsInverse P p md q) := by
  obtain ⟨K, _, φ, F⟩ := h.exists_fieldMap
  have hs := divRem_spec h hp.1 hp.2 hm.1 hm.2 hne
  have hb : canonical (divRem P p md).2 ∧ elemsOk P (divRem P p md).2 := ⟨hs.1.2.2.2.1, hs.1.2.2.2.2.2⟩
  have hab : pairOk P md (divRem P p md).2 := ⟨hm, hb⟩
  have hlen := hs.2.2
  have hdm := deg_add_one hne
  have hdeg : deg (divRem P p md).2 ≤ deg md := by
    unfold deg at *
    omega
  obtain ⟨eq1, eq2⟩ := (euclid_steps h hab).unique h hab e
  obtain ⟨hgok, hqs, hsum, -, hne'⟩ := e.spec h hab hdeg
  obtain ⟨-, hadj, -, -⟩ := e.matrix h hab hdeg
  have happ := F.forward_apply h e hab
  have hml := matLe_forwardMat h hqs
  obtain ⟨x0, x1, x2, x3⟩ := hml.elems
  have two := F.two_eq_zero
  have hA := congrFun (congrFun happ 0) 0
  have hB := congrFun (congrFun happ 1) 0
  simp only [Matrix.mul_apply, Fin.sum_univ_two, Matrix.of_apply, Matrix.cons_val_zero, Matrix.cons_val_one,
    Matrix.cons_val_fin_one, toPoly_nil, mul_zero, add_zero] at hA hB
  have hp2 := (F.toPoly_isDivRem h.laws hm.1 hm.2 hne hs.1).1
  have one : elemsOk P [1] := elemsOk_one (one_lt_card h)
  constructor
  · intro hc
    constructor
    · rw [invert]
      split
      · rfl
      · rename_i hbn
        rcases hc with hc | hc
        · exact absurd hc hbn
        · simp [fullGcd, ← eq2, hc]
    · rintro ⟨q, h1, cq, eq, hdq⟩
      have h2 := F.toPoly_rem h (canonical_polyMul p q) (elemsOk_polyMul h.laws hp.2 eq) hm.1 hm.2 hne
      rw [h1, F.toPoly_one, F.toPoly_mul h.laws hp.2 eq] at h2
      have h3 := EuclideanDomain.div_add_mod (toPoly φ p * toPoly φ q) (toPoly φ md)
      rw [← h2] at h3
      rcases hc with hc | hc
      · rw [hc, toPoly_nil, add_zero] at hp2
        have : toPoly φ md ∣ 1 := by
          refine ⟨toPoly φ (divRem P p md).1 * toPoly φ q - toPoly φ p * toPoly φ q / toPoly φ md, ?_⟩
          linear_combination h3 + toPoly φ q * hp2
        have h4 := Polynomial.natDegree_eq_zero_of_isUnit (isUnit_of_dvd_one this)
        rw [F.natDegree_toPoly hm.1 hm.2] at h4
        omega
      · have hgm : toPoly φ g ∣ toPoly φ md := ⟨_, hA.trans (mul_comm _ _)⟩
        have hgb : toPoly φ g ∣ toPoly φ (divRem P p md).2 := ⟨_, hB.trans (mul_comm _ _)⟩
        have hgp : toPoly φ g ∣ toPoly φ p := hp2 ▸ dvd_add (Dvd.dvd.mul_left hgm _) hgb
        have : toPoly φ g ∣ 1 := by
          rw [show (1 : K[X]) = toPoly φ p * toPoly φ q - toPoly φ md * (toPoly φ p * toPoly φ q / toPoly φ md) by
            linear_combination h3]
          exact dvd_sub (Dvd.dvd.mul_right hgp _) (Dvd.dvd.mul_right hgm _)
        have h4 := Polynomial.natDegree_eq_zero_of_isUnit (isUnit_of_dvd_one this)
        rw [F.natDegree_toPoly hgok.1.1 hgok.1.2] at h4
        omega
  · intro hbn hg0
    have hqsne : qs ≠ [] := by
      rintro rfl
      exact hbn e.of_nil.2.symm
    have hgne : g ≠ [] := hne' hqsne
    have hgl := deg_add_one hgne
    obtain ⟨c, rfl⟩ := List.length_eq_one_iff.1 (show g.length = 1 by omega)
    have hc0 : c ≠ 0 := canonical_single.1 hgok.1.1
    have hcl : c < P.card := hgok.1.2 c List.mem_cons_self
    have hil := h.laws.inv_lt c hcl hc0
    have hinv : invert P p md = some (polyScale P (finvOf P c) (forwardMat P qs).m01) := by
      have e1 : (fullGcd P md (divRem P p md).2).gcd = [c] := eq2.symm
      have e2 : (fullGcd P md (divRem P p md).2).t.m01 = (forwardMat P qs).m01 := by
        rw [eq1]
        rfl
      simp only [invert, if_neg hbn, e1, e2, deg, List.length_singleton, Nat.sub_self, lt_irrefl, if_false,
        coef_cons_zero]
    refine ⟨_, hinv, ?_, canonical_polyScale _ _, elemsOk_polyScale h.laws hil x1, ?_⟩
    · have hbdm : deg (divRem P p md).2 < deg md := by
        rcases hs.1.2.1 with h1 | h1
        · exact absurd h1 hbn
        · exact h1
      have es := elemsOk_polyScale h.laws hil x1
      have h1 := congrArg (fun x => toPoly φ x.1) hadj
      have h2 : toPoly φ (forwardMat P qs).m11 * toPoly φ md +
          toPoly φ (forwardMat P qs).m01 * toPoly φ (divRem P p md).2 = C (φ c) := by
        rw [← toPoly_single, ← h1]
        exact (F.toPoly_dot h x3 hm.2 x1 hb.2).symm
      have h3 : φ (finvOf P c) * φ c = 1 := by rw [← F.mul _ hil _ hcl, h.laws.inv_mul c hcl hc0, F.one]
      have h4 : (C (φ (finvOf P c)) : K[X]) * C (φ c) = 1 := by rw [← C_mul, h3, C_1]
      refine F.toPoly_inj (divRem_spec h (canonical_polyMul _ _) (elemsOk_polyMul h.laws hp.2 es) hm.1 hm.2
        hne).1.2.2.2.1 (by decide) (divRem_spec h (canonical_polyMul _ _) (elemsOk_polyMul h.laws hp.2 es) hm.1 hm.2
        hne).1.2.2.2.2.2 one ?_
      rw [F.toPoly_rem h (canonical_polyMul _ _) (elemsOk_polyMul h.laws hp.2 es) hm.1 hm.2 hne,
        F.toPoly_mul h.laws hp.2 es, F.toPoly_scale hil x1, F.toPoly_one]
      refine ((div_mod_unique (Q := C (φ (finvOf P c)) * (toPoly φ (divRem P p md).1 *
        toPoly φ (forwardMat P qs).m01 - toPoly φ (forwardMat P qs).m11)) ?_ ?_).2).symm
      · linear_combination C (φ (finvOf P c)) * h2 + h4 +
          C (φ (finvOf P c)) * toPoly φ (forwardMat P qs).m01 * hp2
      · rw [← F.toPoly_one]
        exact (F.degree_lt_iff (by decide) one hm.1 hm.2 hne).2 (.inr (by simp only [deg, List.length_singleton] at *; omega))
    · have hbdm : deg (divRem P p md).2 < deg md := by
        rcases hs.1.2.1 with h1 | h1
        · exact absurd h1 hbn
        · exact h1
      obtain ⟨qs', q, rfl, hq⟩ := e.last_quotient hab hbdm hbn
      have h1 := length_forwardMat_m01 h (q := q) fun y hy => hqs y (List.mem_append_left _ hy)
      have h2 := length_polyScale_le (P := P) (finvOf P c) (forwardMat P (qs' ++ [q])).m01
      rw [degSum_append, degSum_cons, degSum_nil] at hsum
      have h3 : deg (polyScale P (finvOf P c) (forwardMat P (qs' ++ [q])).m01) ≤ degSum qs' := by
        unfold deg
        omega
      omega

end Sys2Proof.Machine
end

