-- ==== Sys2Proof/Laws/Codec.lean ====
section
/-! SUPPORT. What the codec unit's operations can do: key derivation, encoder, syndrome, gain, selection, flip
(45_codec.md section 1). -/

namespace Sys2Proof.Machine

open Polynomial

variable {P : Params}

/-! ## Sizes and elements -/

theorem elemAt_eq_coef (v : Vec) (i : Nat) : elemAt v i = coef v i := rfl

theorem elemAt_lt {v : Vec} (h : elemsOk P v) (i : Nat) : elemAt v i < P.card := coef_lt h i

theorem elemsOk_map {l : List Nat} {f : Nat → Elem} (h : ∀ i, f i < P.card) : elemsOk P (l.map f) := by
  intro c hc
  obtain ⟨i, -, rfl⟩ := List.mem_map.1 hc
  exact h i

theorem fsum_map_lt {l : List Nat} {f : Nat → Elem} (h : ∀ i, f i < P.card) : fsum (l.map f) < P.card :=
  fsum_lt (elemsOk_map h)

@[simp] theorem elemAt_map_range (f : Nat → Elem) (n i : Nat) :
    elemAt ((List.range n).map f) i = if i < n then f i else 0 := by
  unfold elemAt
  by_cases h : i < n <;> simp [h]

theorem length_zeroVec (n : Nat) : (zeroVec n).length = n := by simp [zeroVec]

theorem weight_le (v : Vec) : weight v ≤ v.length := List.countP_le_length

theorem weight_eq_filter (v : Vec) : weight v = (v.filter (· ≠ 0)).length := List.countP_eq_length_filter

theorem elemsOk_append {l m : List Elem} (hl : elemsOk P l) (hm : elemsOk P m) : elemsOk P (l ++ m) := by
  intro c hc
  rcases List.mem_append.1 hc with h | h
  · exact hl c h
  · exact hm c h

theorem elemsOk_set {l : List Elem} {i : Nat} {v : Elem} (hl : elemsOk P l) (hv : v < P.card) :
    elemsOk P (l.set i v) := by
  intro c hc
  rcases List.mem_or_eq_of_mem_set hc with h | rfl
  · exact hl c h
  · exact hv

/-- ENCODE's vector: 2r elements of F (R201). -/
theorem encodeVec_spec (L : FieldLaws P) {msg g : Vec} (hm : elemsOk P msg) (hg : elemsOk P g) (r : Nat) :
    (encodeVec P msg g r).length = 2 * r ∧ elemsOk P (encodeVec P msg g r) := by
  refine ⟨?_, elemsOk_append (elemsOk_map fun i => elemAt_lt hm i) (elemsOk_map fun p => fsum_map_lt fun j =>
    L.mul_lt _ (elemAt_lt hm _) _ (elemAt_lt hg _))⟩
  simp only [encodeVec, List.length_append, List.length_map, List.length_range]
  omega

/-- SYND's vector: r elements of F (R202). -/
theorem syndromeVec_spec (L : FieldLaws P) {h0 h1 v : Vec} (e0 : elemsOk P h0) (e1 : elemsOk P h1) (ev : elemsOk P v)
    (r : Nat) : (syndromeVec P h0 h1 v r).length = r ∧ elemsOk P (syndromeVec P h0 h1 v r) := by
  refine ⟨by simp [syndromeVec], elemsOk_map fun p => fplus_lt (fsum_map_lt fun j => ?_) (fsum_map_lt fun j => ?_)⟩
  · exact L.mul_lt _ (elemAt_lt e0 _) _ (elemAt_lt ev _)
  · exact L.mul_lt _ (elemAt_lt e1 _) _ (elemAt_lt ev _)

theorem hcol_lt {h0 h1 : Vec} (e0 : elemsOk P h0) (e1 : elemsOk P h1) (r j p : Nat) : hcol h0 h1 r j p < P.card := by
  unfold hcol
  split
  · exact elemAt_lt e0 _
  · exact elemAt_lt e1 _

/-- The flipped syndrome: r elements of F (R203, R205). -/
theorem flipSyndrome_spec (L : FieldLaws P) {h0 h1 s : Vec} (e0 : elemsOk P h0) (e1 : elemsOk P h1) (es : elemsOk P s)
    (r j : Nat) {a : Elem} (ha : a < P.card) :
    (flipSyndrome P h0 h1 r s j a).length = r ∧ elemsOk P (flipSyndrome P h0 h1 r s j a) := by
  refine ⟨by simp [flipSyndrome], elemsOk_map fun p => fplus_lt (elemAt_lt es _) (L.mul_lt _ ha _ (hcol_lt e0 e1 _ _ _))⟩

/-- The flipped error vector keeps its length and its other elements (R205). -/
theorem flipError_spec {e : Vec} {j : Nat} {a : Elem} (he : elemsOk P e) (ha : a < P.card) (hj : j < e.length) :
    (flipError e j a).length = e.length ∧ elemsOk P (flipError e j a) ∧
      ∀ k, elemAt (flipError e j a) k = if k = j then fplus (elemAt e k) a else elemAt e k := by
  refine ⟨by simp [flipError], elemsOk_set he (fplus_lt (elemAt_lt he _) ha), fun k => ?_⟩
  by_cases hk : k = j
  · subst hk
    simp [flipError, elemAt, hj]
  · have : j ≠ k := fun h => hk h.symm
    simp [flipError, elemAt, hk, this]

/-- The zeros of a vector are what its weight leaves. -/
theorem zeroCount_eq (v : Vec) : zeroCount v.length v = (v.filter (· = 0)).length ∧
    zeroCount v.length v + weight v = v.length := by
  have h1 : zeroCount v.length v = v.countP (· = 0) := by
    have : v = (List.range v.length).map (elemAt v) := by
      refine List.ext_getElem (by simp) fun i h1 h2 => ?_
      simp [elemAt, h1]
    conv_rhs => rw [this]
    rw [List.countP_map]
    rfl
  refine ⟨h1.trans List.countP_eq_length_filter, ?_⟩
  rw [h1, weight]
  have := List.length_eq_countP_add_countP (fun x : Elem => decide (x = 0)) (l := v)
  have e : v.countP (fun x => decide (x ≠ 0)) = v.countP (fun x => decide ¬decide (x = 0) = true) := by
    refine List.countP_congr fun x _ => ?_
    simp
  omega

theorem zeroCount_le (r : Nat) (v : Vec) : zeroCount r v ≤ r := by
  have := List.countP_le_length (p := fun p => elemAt v p = 0) (l := List.range r)
  simpa [zeroCount] using this

/-- The gain lies within −r … r (R203). -/
theorem gain_bounds (h0 h1 : Vec) (r : Nat) (s : Vec) (j : Nat) (a : Elem) :
    -(r : Int) ≤ gain P h0 h1 r s j a ∧ gain P h0 h1 r s j a ≤ r := by
  have h2 := zeroCount_le r (flipSyndrome P h0 h1 r s j a)
  have h3 := zeroCount_le r s
  unfold gain
  omega

/-! ## Selection -/

/-- The scan keeps the last pair of greatest gain: none scanned before has a greater gain, all after have a smaller
one (R204). -/
theorem foldl_keepBest (h0 h1 : Vec) (r : Nat) (s : Vec) (l : List (Nat × Elem)) (hl : l ≠ []) :
    ∃ l1 x l2, l = l1 ++ x :: l2 ∧
      l.foldl (keepBest P h0 h1 r s) none = some { j := x.1, a := x.2, sigma := gain P h0 h1 r s x.1 x.2 } ∧
      (∀ y ∈ l1, gain P h0 h1 r s y.1 y.2 ≤ gain P h0 h1 r s x.1 x.2) ∧
      ∀ y ∈ l2, gain P h0 h1 r s y.1 y.2 < gain P h0 h1 r s x.1 x.2 := by
  induction l using List.reverseRecOn with
  | nil => exact absurd rfl hl
  | append_singleton l z ih =>
    rw [List.foldl_append, List.foldl_cons, List.foldl_nil]
    by_cases hl' : l = []
    · subst hl'
      exact ⟨[], z, [], rfl, rfl, by simp, by simp⟩
    · obtain ⟨l1, x, l2, rfl, hx, h2, h3⟩ := ih hl'
      rw [hx]
      by_cases hg : gain P h0 h1 r s x.1 x.2 ≤ gain P h0 h1 r s z.1 z.2
      · refine ⟨l1 ++ x :: l2, z, [], rfl, by simp only [keepBest, if_pos hg], fun y hy => ?_, by simp⟩
        rcases List.mem_append.1 hy with hy | hy
        · exact (h2 y hy).trans hg
        · rcases List.mem_cons.1 hy with rfl | hy
          · exact hg
          · exact (h3 y hy).le.trans hg
      · refine ⟨l1, x, l2 ++ [z], by simp, by simp only [keepBest, if_neg hg], h2, fun y hy => ?_⟩
        rcases List.mem_append.1 hy with hy | hy
        · exact h3 y hy
        · rw [List.mem_singleton.1 hy]
          omega

/-- The scan order: j ascending, then a in NZ order (R204). -/
theorem scanPairs_pairwise (r : Nat) (hn : P.nz.Nodup) :
    (scanPairs P r).Pairwise fun y x => y.1 < x.1 ∨ (y.1 = x.1 ∧ P.nz.idxOf y.2 ≤ P.nz.idxOf x.2) := by
  have hnz : P.nz.Pairwise fun a b => P.nz.idxOf a ≤ P.nz.idxOf b := by
    rw [List.pairwise_iff_getElem]
    intro i j hi hj hij
    rw [hn.idxOf_getElem, hn.idxOf_getElem]
    exact hij.le
  unfold scanPairs
  rw [List.pairwise_flatMap]
  refine ⟨fun j _ => List.pairwise_map.2 (hnz.imp fun h => .inr ⟨rfl, h⟩), ?_⟩
  refine List.pairwise_lt_range.imp fun {j k} hjk y hy x hx => ?_
  obtain ⟨a, -, rfl⟩ := List.mem_map.1 hy
  obtain ⟨b, -, rfl⟩ := List.mem_map.1 hx
  exact .inl hjk

theorem mem_scanPairs {r : Nat} {x : Nat × Elem} : x ∈ scanPairs P r ↔ x.1 < 2 * r ∧ x.2 ∈ P.nz := by
  obtain ⟨j, a⟩ := x
  simp [scanPairs]

/-- The selection: a pair in range, of greatest gain, and the last scanned of those (R204). -/
theorem select_spec (h : ParamsOk P) (h0 h1 : Vec) {r : Nat} (hr : r ≠ 0) (s : Vec) :
    ∃ x, select P h0 h1 r s = some x ∧ x.j < 2 * r ∧ x.a ∈ P.nz ∧ x.a < P.card ∧
      x.sigma = gain P h0 h1 r s x.j x.a ∧
      ∀ j < 2 * r, ∀ a ∈ P.nz, gain P h0 h1 r s j a ≤ x.sigma ∧
        (gain P h0 h1 r s j a = x.sigma → j < x.j ∨ (j = x.j ∧ P.nz.idxOf a ≤ P.nz.idxOf x.a)) := by
  have hne : scanPairs P r ≠ [] := by
    have h1 : (0, 1) ∈ scanPairs P r := mem_scanPairs.2 ⟨by simp; omega, (h.nz_all 1).2 ⟨one_ne_zero, one_lt_card h⟩⟩
    intro he
    rw [he] at h1
    exact absurd h1 List.not_mem_nil
  obtain ⟨l1, x, l2, hl, hs, hb, ha⟩ := foldl_keepBest (P := P) h0 h1 r s _ hne
  have hx : x ∈ scanPairs P r := by rw [hl]; simp
  have hx2 := mem_scanPairs.1 hx
  refine ⟨_, hs, hx2.1, hx2.2, ((h.nz_all _).1 hx2.2).2, rfl, fun j hj a hna => ?_⟩
  dsimp only
  have hy : (j, a) ∈ scanPairs P r := mem_scanPairs.2 ⟨hj, hna⟩
  have hp := scanPairs_pairwise (P := P) r h.nz_nodup
  rw [hl] at hy hp
  rcases List.mem_append.1 hy with hy | hy
  · have b1 := hb (j, a) hy
    have b2 := (List.pairwise_append.1 hp).2.2 (j, a) hy x List.mem_cons_self
    exact And.intro b1 fun _ => b2
  · rcases List.mem_cons.1 hy with hy | hy
    · rw [← hy]
      exact ⟨le_refl _, fun _ => .inr ⟨rfl, le_refl _⟩⟩
    · have b1 := ha (j, a) hy
      exact And.intro b1.le fun h => absurd h b1.ne

/-! ## Key derivation -/

/-- The sum of the coefficients is the value at 1. -/
theorem FieldMap.eval_one {K : Type} [Field K] {φ : Elem → K} (F : FieldMap P φ) {l : List Elem} (h : elemsOk P l) :
    (toPoly φ l).eval 1 = φ (fsum l) := by
  induction l with
  | nil => simp [F.zero]
  | cons c cs ih =>
    obtain ⟨hc, hcs⟩ := elemsOk_cons.1 h
    rw [toPoly_cons, fsum_cons, F.plus c hc _ (fsum_lt hcs)]
    simp [ih hcs]

/-- A row whose elements sum to zero has no inverse in the ring (R174, R200). -/
theorem no_inverse_of_fsum (h : ParamsOk P) {p : Poly} (ep : elemsOk P p) {r : Nat} (hr : r ≠ 0)
    (hs : fsum p = 0) : ¬ ∃ q, IsInverse P p (ringModulus r) q := by
  rintro ⟨q, h1, cq, eq, -⟩
  obtain ⟨K, _, φ, F⟩ := h.exists_fieldMap
  have em := elemsOk_ringModulus (one_lt_card h) r
  have hne : ringModulus r ≠ [] := by
    intro he
    have := length_ringModulus r hr
    rw [he] at this
    simp at this
  have h2 := F.toPoly_rem h (canonical_polyMul p q) (elemsOk_polyMul h.laws ep eq) (canonical_ringModulus r) em hne
  rw [h1, F.toPoly_one, F.toPoly_mul h.laws ep eq, F.toPoly_ringModulus hr] at h2
  have h3 := congrArg (Polynomial.eval 1)
    (EuclideanDomain.div_add_mod (toPoly φ p * toPoly φ q) ((X : K[X]) ^ r + 1))
  rw [← h2] at h3
  have h4 := F.add_self (1 : K)
  simp only [eval_add, eval_mul, eval_pow, eval_X, eval_one, one_pow, h4, zero_mul, zero_add, F.eval_one ep, hs, F.zero,
    one_ne_zero] at h3

theorem ringModulus_ne_nil {r : Nat} (hr : r ≠ 0) : ringModulus r ≠ [] := by
  intro he
  have := length_ringModulus r hr
  rw [he] at this
  simp at this

/-- derive(h0, h1, r): the key g with h1 · g = h0 in the ring when h1 has an inverse there, else a rejection; never
INVERTER_BUG (R200). -/
theorem derive_spec (h : ParamsOk P) {h0 h1 : Vec} (e0 : elemsOk P h0) (e1 : elemsOk P h1) {r : Nat} (hr : r ≠ 0)
    (l0 : h0.length = r) :
    ((∃ q, IsInverse P (polyOfVec h1) (ringModulus r) q) → ∃ g, derive P h0 h1 r = .key g ∧ g.length = r ∧
      elemsOk P g ∧ (divRem P (polyMul P (polyOfVec h1) (polyOfVec g)) (ringModulus r)).2 = polyOfVec h0) ∧
    ((¬ ∃ q, IsInverse P (polyOfVec h1) (ringModulus r) q) → derive P h0 h1 r = .reject) := by
  have cp := canonical_polyOfVec h1
  have ep := elemsOk_polyOfVec e1
  have cm := canonical_ringModulus r
  have em := elemsOk_ringModulus (one_lt_card h) r
  have hne := ringModulus_ne_nil hr
  have hrem := divRem_spec h cp ep cm em hne
  have hpair : pairOk P (ringModulus r) (divRem P (polyOfVec h1) (ringModulus r)).2 :=
    ⟨⟨cm, em⟩, hrem.1.2.2.2.1, hrem.1.2.2.2.2.2⟩
  have hinv := invert_spec h ⟨cp, ep⟩ ⟨cm, em⟩ hne (euclid_steps h hpair)
  have hsum : ∀ l : Vec, fsum (canon l) = fsum l := by
    intro l
    induction l with
    | nil => rfl
    | cons c cs ih =>
      rw [canon_cons, fsum_cons, ← ih]
      split
      · rename_i h5
        rw [h5]
        split
        · rename_i h6
          rw [h6]
          rfl
        · rfl
      · rfl
  constructor
  · intro hex
    have hs : fsum h1 ≠ 0 := fun hs => no_inverse_of_fsum h ep hr (by rw [polyOfVec, hsum]; exact hs) hex
    have hq : ∃ q, invert P (polyOfVec h1) (ringModulus r) = some q ∧ IsInverse P (polyOfVec h1) (ringModulus r) q := by
      by_cases hb : (divRem P (polyOfVec h1) (ringModulus r)).2 = []
      · exact absurd hex (hinv.1 (.inl hb)).2
      · by_cases hd : 0 < deg (euclid P (ringModulus r) (divRem P (polyOfVec h1) (ringModulus r)).2).2
        · exact absurd hex (hinv.1 (.inr hd)).2
        · exact hinv.2 hb (by omega)
    obtain ⟨q, hq1, hq2⟩ := hq
    obtain ⟨hmul, cq, eq, -⟩ := hq2
    have e0' := elemsOk_polyOfVec e0
    have hk := divRem_spec h (canonical_polyMul (P := P) (polyOfVec h0) q) (elemsOk_polyMul h.laws e0' eq) cm em hne
    have lm := length_ringModulus r hr
    have hlen : (divRem P (polyMul P (polyOfVec h0) q) (ringModulus r)).2.length ≤ r := by
      have := hk.2.2
      omega
    refine ⟨vecOfPoly (divRem P (polyMul P (polyOfVec h0) q) (ringModulus r)).2 r, ?_, length_vecOfPoly _ _,
      elemsOk_vecOfPoly hk.1.2.2.2.2.2, ?_⟩
    · simp only [derive, if_neg hs, hq1, hmul, ne_eq, not_true_eq_false, if_false]
    · rw [polyOfVec_vecOfPoly hk.1.2.2.2.1 hlen]
      obtain ⟨K, _, φ, F⟩ := h.exists_fieldMap
      have hfin := divRem_spec h (canonical_polyMul (P := P) (polyOfVec h1)
        (divRem P (polyMul P (polyOfVec h0) q) (ringModulus r)).2) (elemsOk_polyMul h.laws ep hk.1.2.2.2.2.2) cm em hne
      refine F.toPoly_inj hfin.1.2.2.2.1 (canonical_polyOfVec h0) hfin.1.2.2.2.2.2 e0' ?_
      rw [F.toPoly_rem h (canonical_polyMul _ _) (elemsOk_polyMul h.laws ep hk.1.2.2.2.2.2) cm em hne,
        F.toPoly_mul h.laws ep hk.1.2.2.2.2.2,
        F.toPoly_rem h (canonical_polyMul _ _) (elemsOk_polyMul h.laws e0' eq) cm em hne, F.toPoly_mul h.laws e0' eq]
      have h2 := F.toPoly_rem h (canonical_polyMul (P := P) (polyOfVec h1) q) (elemsOk_polyMul h.laws ep eq) cm em hne
      rw [hmul, F.toPoly_one, F.toPoly_mul h.laws ep eq] at h2
      have h3 := EuclideanDomain.div_add_mod (toPoly φ (polyOfVec h1) * toPoly φ q) (toPoly φ (ringModulus r))
      have h4 := EuclideanDomain.div_add_mod (toPoly φ (polyOfVec h0) * toPoly φ q) (toPoly φ (ringModulus r))
      rw [← h2] at h3
      refine ((div_mod_unique (Q := toPoly φ (polyOfVec h0) * (toPoly φ (polyOfVec h1) * toPoly φ q /
        toPoly φ (ringModulus r)) - toPoly φ (polyOfVec h1) * (toPoly φ (polyOfVec h0) * toPoly φ q /
        toPoly φ (ringModulus r))) ?_ ?_).2).symm
      · linear_combination toPoly φ (polyOfVec h1) * h4 - toPoly φ (polyOfVec h0) * h3
      · refine (F.degree_lt_iff (canonical_polyOfVec h0) e0' cm em hne).2 (.inr ?_)
        have : (polyOfVec h0).length ≤ r := (length_canon_le h0).trans l0.le
        unfold deg
        omega
  · intro hno
    unfold derive
    split
    · rfl
    · have : invert P (polyOfVec h1) (ringModulus r) = none := by
        by_cases hb : (divRem P (polyOfVec h1) (ringModulus r)).2 = []
        · exact (hinv.1 (.inl hb)).1
        · by_cases hd : 0 < deg (euclid P (ringModulus r) (divRem P (polyOfVec h1) (ringModulus r)).2).2
          · exact (hinv.1 (.inr hd)).1
          · obtain ⟨q, -, hq⟩ := hinv.2 hb (by omega)
            exact absurd ⟨q, hq⟩ hno
      rw [this]

end Sys2Proof.Machine
end

