-- ==== Sys2Proof/Laws/State.lean ====
section
/-! SUPPORT. One lemma per field per update of the state, so that no proof unfolds a record update; then the accessors of
registers and buffers. -/

namespace Sys2Proof.Machine

variable (s : State)

/-! ## setF -/

@[simp] theorem setF_cfg (i : FReg) (v : Elem) : (s.setF i v).cfg = s.cfg := rfl
@[simp] theorem setF_f (i : FReg) (v : Elem) : (s.setF i v).f = s.f.set i.val v := rfl
@[simp] theorem setF_p (i : FReg) (v : Elem) : (s.setF i v).p = s.p := rfl
@[simp] theorem setF_m (i : FReg) (v : Elem) : (s.setF i v).m = s.m := rfl
@[simp] theorem setF_qseq (i : FReg) (v : Elem) : (s.setF i v).qseq = s.qseq := rfl
@[simp] theorem setF_msg (i : FReg) (v : Elem) : (s.setF i v).msg = s.msg := rfl
@[simp] theorem setF_cw (i : FReg) (v : Elem) : (s.setF i v).cw = s.cw := rfl
@[simp] theorem setF_sy (i : FReg) (v : Elem) : (s.setF i v).sy = s.sy := rfl
@[simp] theorem setF_ev (i : FReg) (v : Elem) : (s.setF i v).ev = s.ev := rfl
@[simp] theorem setF_h0 (i : FReg) (v : Elem) : (s.setF i v).h0 = s.h0 := rfl
@[simp] theorem setF_h1 (i : FReg) (v : Elem) : (s.setF i v).h1 = s.h1 := rfl
@[simp] theorem setF_g (i : FReg) (v : Elem) : (s.setF i v).g = s.g := rfl
@[simp] theorem setF_err (i : FReg) (v : Elem) : (s.setF i v).err = s.err := rfl
@[simp] theorem setF_z (i : FReg) (v : Elem) : (s.setF i v).z = s.z := rfl
@[simp] theorem setF_o (i : FReg) (v : Elem) : (s.setF i v).o = s.o := rfl
@[simp] theorem setF_noinv (i : FReg) (v : Elem) : (s.setF i v).noinv = s.noinv := rfl
@[simp] theorem setF_dfail (i : FReg) (v : Elem) : (s.setF i v).dfail = s.dfail := rfl
@[simp] theorem setF_krej (i : FReg) (v : Elem) : (s.setF i v).krej = s.krej := rfl
@[simp] theorem setF_dout (i : FReg) (v : Elem) : (s.setF i v).dout = s.dout := rfl
@[simp] theorem setF_r (i : FReg) (v : Elem) : (s.setF i v).r = s.r := rfl
@[simp] theorem setF_w (i : FReg) (v : Elem) : (s.setF i v).w = s.w := rfl
@[simp] theorem setF_omega (i : FReg) (v : Elem) : (s.setF i v).omega = s.omega := rfl
@[simp] theorem setF_iter (i : FReg) (v : Elem) : (s.setF i v).iter = s.iter := rfl
@[simp] theorem setF_errcmd (i : FReg) (v : Elem) : (s.setF i v).errcmd = s.errcmd := rfl
@[simp] theorem setF_jstar (i : FReg) (v : Elem) : (s.setF i v).jstar = s.jstar := rfl
@[simp] theorem setF_astar (i : FReg) (v : Elem) : (s.setF i v).astar = s.astar := rfl
@[simp] theorem setF_sigma (i : FReg) (v : Elem) : (s.setF i v).sigma = s.sigma := rfl
@[simp] theorem setF_cix (i : FReg) (v : Elem) : (s.setF i v).cix = s.cix := rfl
@[simp] theorem setF_pending (i : FReg) (v : Elem) : (s.setF i v).pending = s.pending := rfl
@[simp] theorem setF_rdata (i : FReg) (v : Elem) : (s.setF i v).rdata = s.rdata := rfl
@[simp] theorem setF_pr (i : FReg) (v : Elem) (j : PReg) : (s.setF i v).pr j = s.pr j := rfl
@[simp] theorem setF_buf (i : FReg) (v : Elem) (c : Buf) : (s.setF i v).buf c = s.buf c := by cases c <;> rfl
@[simp] theorem setF_bsize (i : FReg) (v : Elem) : (s.setF i v).bsize = s.bsize := rfl
@[simp] theorem setF_bweight (i : FReg) (v : Elem) : (s.setF i v).bweight = s.bweight := rfl
@[simp] theorem setF_halted (i : FReg) (v : Elem) : (s.setF i v).halted = s.halted := rfl

/-! ## setP -/

@[simp] theorem setP_cfg (i : PReg) (v : Poly) : (s.setP i v).cfg = s.cfg := rfl
@[simp] theorem setP_f (i : PReg) (v : Poly) : (s.setP i v).f = s.f := rfl
@[simp] theorem setP_p (i : PReg) (v : Poly) : (s.setP i v).p = s.p.set i.val v := rfl
@[simp] theorem setP_m (i : PReg) (v : Poly) : (s.setP i v).m = s.m := rfl
@[simp] theorem setP_qseq (i : PReg) (v : Poly) : (s.setP i v).qseq = s.qseq := rfl
@[simp] theorem setP_msg (i : PReg) (v : Poly) : (s.setP i v).msg = s.msg := rfl
@[simp] theorem setP_cw (i : PReg) (v : Poly) : (s.setP i v).cw = s.cw := rfl
@[simp] theorem setP_sy (i : PReg) (v : Poly) : (s.setP i v).sy = s.sy := rfl
@[simp] theorem setP_ev (i : PReg) (v : Poly) : (s.setP i v).ev = s.ev := rfl
@[simp] theorem setP_h0 (i : PReg) (v : Poly) : (s.setP i v).h0 = s.h0 := rfl
@[simp] theorem setP_h1 (i : PReg) (v : Poly) : (s.setP i v).h1 = s.h1 := rfl
@[simp] theorem setP_g (i : PReg) (v : Poly) : (s.setP i v).g = s.g := rfl
@[simp] theorem setP_err (i : PReg) (v : Poly) : (s.setP i v).err = s.err := rfl
@[simp] theorem setP_z (i : PReg) (v : Poly) : (s.setP i v).z = s.z := rfl
@[simp] theorem setP_o (i : PReg) (v : Poly) : (s.setP i v).o = s.o := rfl
@[simp] theorem setP_noinv (i : PReg) (v : Poly) : (s.setP i v).noinv = s.noinv := rfl
@[simp] theorem setP_dfail (i : PReg) (v : Poly) : (s.setP i v).dfail = s.dfail := rfl
@[simp] theorem setP_krej (i : PReg) (v : Poly) : (s.setP i v).krej = s.krej := rfl
@[simp] theorem setP_dout (i : PReg) (v : Poly) : (s.setP i v).dout = s.dout := rfl
@[simp] theorem setP_r (i : PReg) (v : Poly) : (s.setP i v).r = s.r := rfl
@[simp] theorem setP_w (i : PReg) (v : Poly) : (s.setP i v).w = s.w := rfl
@[simp] theorem setP_omega (i : PReg) (v : Poly) : (s.setP i v).omega = s.omega := rfl
@[simp] theorem setP_iter (i : PReg) (v : Poly) : (s.setP i v).iter = s.iter := rfl
@[simp] theorem setP_errcmd (i : PReg) (v : Poly) : (s.setP i v).errcmd = s.errcmd := rfl
@[simp] theorem setP_jstar (i : PReg) (v : Poly) : (s.setP i v).jstar = s.jstar := rfl
@[simp] theorem setP_astar (i : PReg) (v : Poly) : (s.setP i v).astar = s.astar := rfl
@[simp] theorem setP_sigma (i : PReg) (v : Poly) : (s.setP i v).sigma = s.sigma := rfl
@[simp] theorem setP_cix (i : PReg) (v : Poly) : (s.setP i v).cix = s.cix := rfl
@[simp] theorem setP_pending (i : PReg) (v : Poly) : (s.setP i v).pending = s.pending := rfl
@[simp] theorem setP_rdata (i : PReg) (v : Poly) : (s.setP i v).rdata = s.rdata := rfl
@[simp] theorem setP_fr (i : PReg) (v : Poly) (j : FReg) : (s.setP i v).fr j = s.fr j := rfl
@[simp] theorem setP_buf (i : PReg) (v : Poly) (c : Buf) : (s.setP i v).buf c = s.buf c := by cases c <;> rfl
@[simp] theorem setP_bsize (i : PReg) (v : Poly) : (s.setP i v).bsize = s.bsize := rfl
@[simp] theorem setP_bweight (i : PReg) (v : Poly) : (s.setP i v).bweight = s.bweight := rfl
@[simp] theorem setP_halted (i : PReg) (v : Poly) : (s.setP i v).halted = s.halted := rfl

/-! ## setMQ -/

@[simp] theorem setMQ_cfg (x : Mat) (qs : List Poly) : (s.setMQ x qs).cfg = s.cfg := rfl
@[simp] theorem setMQ_f (x : Mat) (qs : List Poly) : (s.setMQ x qs).f = s.f := rfl
@[simp] theorem setMQ_p (x : Mat) (qs : List Poly) : (s.setMQ x qs).p = s.p := rfl
@[simp] theorem setMQ_m (x : Mat) (qs : List Poly) : (s.setMQ x qs).m = x := rfl
@[simp] theorem setMQ_qseq (x : Mat) (qs : List Poly) : (s.setMQ x qs).qseq = qs := rfl
@[simp] theorem setMQ_msg (x : Mat) (qs : List Poly) : (s.setMQ x qs).msg = s.msg := rfl
@[simp] theorem setMQ_cw (x : Mat) (qs : List Poly) : (s.setMQ x qs).cw = s.cw := rfl
@[simp] theorem setMQ_sy (x : Mat) (qs : List Poly) : (s.setMQ x qs).sy = s.sy := rfl
@[simp] theorem setMQ_ev (x : Mat) (qs : List Poly) : (s.setMQ x qs).ev = s.ev := rfl
@[simp] theorem setMQ_h0 (x : Mat) (qs : List Poly) : (s.setMQ x qs).h0 = s.h0 := rfl
@[simp] theorem setMQ_h1 (x : Mat) (qs : List Poly) : (s.setMQ x qs).h1 = s.h1 := rfl
@[simp] theorem setMQ_g (x : Mat) (qs : List Poly) : (s.setMQ x qs).g = s.g := rfl
@[simp] theorem setMQ_err (x : Mat) (qs : List Poly) : (s.setMQ x qs).err = s.err := rfl
@[simp] theorem setMQ_z (x : Mat) (qs : List Poly) : (s.setMQ x qs).z = s.z := rfl
@[simp] theorem setMQ_o (x : Mat) (qs : List Poly) : (s.setMQ x qs).o = s.o := rfl
@[simp] theorem setMQ_noinv (x : Mat) (qs : List Poly) : (s.setMQ x qs).noinv = s.noinv := rfl
@[simp] theorem setMQ_dfail (x : Mat) (qs : List Poly) : (s.setMQ x qs).dfail = s.dfail := rfl
@[simp] theorem setMQ_krej (x : Mat) (qs : List Poly) : (s.setMQ x qs).krej = s.krej := rfl
@[simp] theorem setMQ_dout (x : Mat) (qs : List Poly) : (s.setMQ x qs).dout = s.dout := rfl
@[simp] theorem setMQ_r (x : Mat) (qs : List Poly) : (s.setMQ x qs).r = s.r := rfl
@[simp] theorem setMQ_w (x : Mat) (qs : List Poly) : (s.setMQ x qs).w = s.w := rfl
@[simp] theorem setMQ_omega (x : Mat) (qs : List Poly) : (s.setMQ x qs).omega = s.omega := rfl
@[simp] theorem setMQ_iter (x : Mat) (qs : List Poly) : (s.setMQ x qs).iter = s.iter := rfl
@[simp] theorem setMQ_errcmd (x : Mat) (qs : List Poly) : (s.setMQ x qs).errcmd = s.errcmd := rfl
@[simp] theorem setMQ_jstar (x : Mat) (qs : List Poly) : (s.setMQ x qs).jstar = s.jstar := rfl
@[simp] theorem setMQ_astar (x : Mat) (qs : List Poly) : (s.setMQ x qs).astar = s.astar := rfl
@[simp] theorem setMQ_sigma (x : Mat) (qs : List Poly) : (s.setMQ x qs).sigma = s.sigma := rfl
@[simp] theorem setMQ_cix (x : Mat) (qs : List Poly) : (s.setMQ x qs).cix = s.cix := rfl
@[simp] theorem setMQ_pending (x : Mat) (qs : List Poly) : (s.setMQ x qs).pending = s.pending := rfl
@[simp] theorem setMQ_rdata (x : Mat) (qs : List Poly) : (s.setMQ x qs).rdata = s.rdata := rfl
@[simp] theorem setMQ_fr (x : Mat) (qs : List Poly) (j : FReg) : (s.setMQ x qs).fr j = s.fr j := rfl
@[simp] theorem setMQ_pr (x : Mat) (qs : List Poly) (j : PReg) : (s.setMQ x qs).pr j = s.pr j := rfl
@[simp] theorem setMQ_buf (x : Mat) (qs : List Poly) (c : Buf) : (s.setMQ x qs).buf c = s.buf c := by cases c <;> rfl
@[simp] theorem setMQ_bsize (x : Mat) (qs : List Poly) : (s.setMQ x qs).bsize = s.bsize := rfl
@[simp] theorem setMQ_bweight (x : Mat) (qs : List Poly) : (s.setMQ x qs).bweight = s.bweight := rfl
@[simp] theorem setMQ_halted (x : Mat) (qs : List Poly) : (s.setMQ x qs).halted = s.halted := rfl

/-! ## setDout -/

@[simp] theorem setDout_cfg (v : Nat) : (s.setDout v).cfg = s.cfg := rfl
@[simp] theorem setDout_f (v : Nat) : (s.setDout v).f = s.f := rfl
@[simp] theorem setDout_p (v : Nat) : (s.setDout v).p = s.p := rfl
@[simp] theorem setDout_m (v : Nat) : (s.setDout v).m = s.m := rfl
@[simp] theorem setDout_qseq (v : Nat) : (s.setDout v).qseq = s.qseq := rfl
@[simp] theorem setDout_msg (v : Nat) : (s.setDout v).msg = s.msg := rfl
@[simp] theorem setDout_cw (v : Nat) : (s.setDout v).cw = s.cw := rfl
@[simp] theorem setDout_sy (v : Nat) : (s.setDout v).sy = s.sy := rfl
@[simp] theorem setDout_ev (v : Nat) : (s.setDout v).ev = s.ev := rfl
@[simp] theorem setDout_h0 (v : Nat) : (s.setDout v).h0 = s.h0 := rfl
@[simp] theorem setDout_h1 (v : Nat) : (s.setDout v).h1 = s.h1 := rfl
@[simp] theorem setDout_g (v : Nat) : (s.setDout v).g = s.g := rfl
@[simp] theorem setDout_err (v : Nat) : (s.setDout v).err = s.err := rfl
@[simp] theorem setDout_z (v : Nat) : (s.setDout v).z = s.z := rfl
@[simp] theorem setDout_o (v : Nat) : (s.setDout v).o = s.o := rfl
@[simp] theorem setDout_noinv (v : Nat) : (s.setDout v).noinv = s.noinv := rfl
@[simp] theorem setDout_dfail (v : Nat) : (s.setDout v).dfail = s.dfail := rfl
@[simp] theorem setDout_krej (v : Nat) : (s.setDout v).krej = s.krej := rfl
@[simp] theorem setDout_dout (v : Nat) : (s.setDout v).dout = BitVec.ofNat 32 v := rfl
@[simp] theorem setDout_r (v : Nat) : (s.setDout v).r = s.r := rfl
@[simp] theorem setDout_w (v : Nat) : (s.setDout v).w = s.w := rfl
@[simp] theorem setDout_omega (v : Nat) : (s.setDout v).omega = s.omega := rfl
@[simp] theorem setDout_iter (v : Nat) : (s.setDout v).iter = s.iter := rfl
@[simp] theorem setDout_errcmd (v : Nat) : (s.setDout v).errcmd = s.errcmd := rfl
@[simp] theorem setDout_jstar (v : Nat) : (s.setDout v).jstar = s.jstar := rfl
@[simp] theorem setDout_astar (v : Nat) : (s.setDout v).astar = s.astar := rfl
@[simp] theorem setDout_sigma (v : Nat) : (s.setDout v).sigma = s.sigma := rfl
@[simp] theorem setDout_cix (v : Nat) : (s.setDout v).cix = s.cix := rfl
@[simp] theorem setDout_pending (v : Nat) : (s.setDout v).pending = s.pending := rfl
@[simp] theorem setDout_rdata (v : Nat) : (s.setDout v).rdata = s.rdata := rfl
@[simp] theorem setDout_fr (v : Nat) (j : FReg) : (s.setDout v).fr j = s.fr j := rfl
@[simp] theorem setDout_pr (v : Nat) (j : PReg) : (s.setDout v).pr j = s.pr j := rfl
@[simp] theorem setDout_buf (v : Nat) (c : Buf) : (s.setDout v).buf c = s.buf c := by cases c <;> rfl
@[simp] theorem setDout_bsize (v : Nat) : (s.setDout v).bsize = s.bsize := rfl
@[simp] theorem setDout_bweight (v : Nat) : (s.setDout v).bweight = s.bweight := rfl
@[simp] theorem setDout_halted (v : Nat) : (s.setDout v).halted = s.halted := rfl

/-! ## setR -/

@[simp] theorem setR_cfg (v : Nat) : (s.setR v).cfg = s.cfg := rfl
@[simp] theorem setR_f (v : Nat) : (s.setR v).f = s.f := rfl
@[simp] theorem setR_p (v : Nat) : (s.setR v).p = s.p := rfl
@[simp] theorem setR_m (v : Nat) : (s.setR v).m = s.m := rfl
@[simp] theorem setR_qseq (v : Nat) : (s.setR v).qseq = s.qseq := rfl
@[simp] theorem setR_msg (v : Nat) : (s.setR v).msg = s.msg := rfl
@[simp] theorem setR_cw (v : Nat) : (s.setR v).cw = s.cw := rfl
@[simp] theorem setR_sy (v : Nat) : (s.setR v).sy = s.sy := rfl
@[simp] theorem setR_ev (v : Nat) : (s.setR v).ev = s.ev := rfl
@[simp] theorem setR_h0 (v : Nat) : (s.setR v).h0 = s.h0 := rfl
@[simp] theorem setR_h1 (v : Nat) : (s.setR v).h1 = s.h1 := rfl
@[simp] theorem setR_g (v : Nat) : (s.setR v).g = s.g := rfl
@[simp] theorem setR_err (v : Nat) : (s.setR v).err = s.err := rfl
@[simp] theorem setR_z (v : Nat) : (s.setR v).z = s.z := rfl
@[simp] theorem setR_o (v : Nat) : (s.setR v).o = s.o := rfl
@[simp] theorem setR_noinv (v : Nat) : (s.setR v).noinv = s.noinv := rfl
@[simp] theorem setR_dfail (v : Nat) : (s.setR v).dfail = s.dfail := rfl
@[simp] theorem setR_krej (v : Nat) : (s.setR v).krej = s.krej := rfl
@[simp] theorem setR_dout (v : Nat) : (s.setR v).dout = s.dout := rfl
@[simp] theorem setR_r (v : Nat) : (s.setR v).r = BitVec.ofNat 16 v := rfl
@[simp] theorem setR_w (v : Nat) : (s.setR v).w = s.w := rfl
@[simp] theorem setR_omega (v : Nat) : (s.setR v).omega = s.omega := rfl
@[simp] theorem setR_iter (v : Nat) : (s.setR v).iter = s.iter := rfl
@[simp] theorem setR_errcmd (v : Nat) : (s.setR v).errcmd = s.errcmd := rfl
@[simp] theorem setR_jstar (v : Nat) : (s.setR v).jstar = s.jstar := rfl
@[simp] theorem setR_astar (v : Nat) : (s.setR v).astar = s.astar := rfl
@[simp] theorem setR_sigma (v : Nat) : (s.setR v).sigma = s.sigma := rfl
@[simp] theorem setR_cix (v : Nat) : (s.setR v).cix = s.cix := rfl
@[simp] theorem setR_pending (v : Nat) : (s.setR v).pending = s.pending := rfl
@[simp] theorem setR_rdata (v : Nat) : (s.setR v).rdata = s.rdata := rfl
@[simp] theorem setR_fr (v : Nat) (j : FReg) : (s.setR v).fr j = s.fr j := rfl
@[simp] theorem setR_pr (v : Nat) (j : PReg) : (s.setR v).pr j = s.pr j := rfl
@[simp] theorem setR_buf (v : Nat) (c : Buf) : (s.setR v).buf c = s.buf c := by cases c <;> rfl
@[simp] theorem setR_bweight (v : Nat) : (s.setR v).bweight = s.bweight := rfl
@[simp] theorem setR_halted (v : Nat) : (s.setR v).halted = s.halted := rfl

/-! ## setW -/

@[simp] theorem setW_cfg (v : Nat) : (s.setW v).cfg = s.cfg := rfl
@[simp] theorem setW_f (v : Nat) : (s.setW v).f = s.f := rfl
@[simp] theorem setW_p (v : Nat) : (s.setW v).p = s.p := rfl
@[simp] theorem setW_m (v : Nat) : (s.setW v).m = s.m := rfl
@[simp] theorem setW_qseq (v : Nat) : (s.setW v).qseq = s.qseq := rfl
@[simp] theorem setW_msg (v : Nat) : (s.setW v).msg = s.msg := rfl
@[simp] theorem setW_cw (v : Nat) : (s.setW v).cw = s.cw := rfl
@[simp] theorem setW_sy (v : Nat) : (s.setW v).sy = s.sy := rfl
@[simp] theorem setW_ev (v : Nat) : (s.setW v).ev = s.ev := rfl
@[simp] theorem setW_h0 (v : Nat) : (s.setW v).h0 = s.h0 := rfl
@[simp] theorem setW_h1 (v : Nat) : (s.setW v).h1 = s.h1 := rfl
@[simp] theorem setW_g (v : Nat) : (s.setW v).g = s.g := rfl
@[simp] theorem setW_err (v : Nat) : (s.setW v).err = s.err := rfl
@[simp] theorem setW_z (v : Nat) : (s.setW v).z = s.z := rfl
@[simp] theorem setW_o (v : Nat) : (s.setW v).o = s.o := rfl
@[simp] theorem setW_noinv (v : Nat) : (s.setW v).noinv = s.noinv := rfl
@[simp] theorem setW_dfail (v : Nat) : (s.setW v).dfail = s.dfail := rfl
@[simp] theorem setW_krej (v : Nat) : (s.setW v).krej = s.krej := rfl
@[simp] theorem setW_dout (v : Nat) : (s.setW v).dout = s.dout := rfl
@[simp] theorem setW_r (v : Nat) : (s.setW v).r = s.r := rfl
@[simp] theorem setW_w (v : Nat) : (s.setW v).w = BitVec.ofNat 16 v := rfl
@[simp] theorem setW_omega (v : Nat) : (s.setW v).omega = s.omega := rfl
@[simp] theorem setW_iter (v : Nat) : (s.setW v).iter = s.iter := rfl
@[simp] theorem setW_errcmd (v : Nat) : (s.setW v).errcmd = s.errcmd := rfl
@[simp] theorem setW_jstar (v : Nat) : (s.setW v).jstar = s.jstar := rfl
@[simp] theorem setW_astar (v : Nat) : (s.setW v).astar = s.astar := rfl
@[simp] theorem setW_sigma (v : Nat) : (s.setW v).sigma = s.sigma := rfl
@[simp] theorem setW_cix (v : Nat) : (s.setW v).cix = s.cix := rfl
@[simp] theorem setW_pending (v : Nat) : (s.setW v).pending = s.pending := rfl
@[simp] theorem setW_rdata (v : Nat) : (s.setW v).rdata = s.rdata := rfl
@[simp] theorem setW_fr (v : Nat) (j : FReg) : (s.setW v).fr j = s.fr j := rfl
@[simp] theorem setW_pr (v : Nat) (j : PReg) : (s.setW v).pr j = s.pr j := rfl
@[simp] theorem setW_buf (v : Nat) (c : Buf) : (s.setW v).buf c = s.buf c := by cases c <;> rfl
@[simp] theorem setW_bsize (v : Nat) : (s.setW v).bsize = s.bsize := rfl
@[simp] theorem setW_halted (v : Nat) : (s.setW v).halted = s.halted := rfl

/-! ## setOmega -/

@[simp] theorem setOmega_cfg (v : Nat) : (s.setOmega v).cfg = s.cfg := rfl
@[simp] theorem setOmega_f (v : Nat) : (s.setOmega v).f = s.f := rfl
@[simp] theorem setOmega_p (v : Nat) : (s.setOmega v).p = s.p := rfl
@[simp] theorem setOmega_m (v : Nat) : (s.setOmega v).m = s.m := rfl
@[simp] theorem setOmega_qseq (v : Nat) : (s.setOmega v).qseq = s.qseq := rfl
@[simp] theorem setOmega_msg (v : Nat) : (s.setOmega v).msg = s.msg := rfl
@[simp] theorem setOmega_cw (v : Nat) : (s.setOmega v).cw = s.cw := rfl
@[simp] theorem setOmega_sy (v : Nat) : (s.setOmega v).sy = s.sy := rfl
@[simp] theorem setOmega_ev (v : Nat) : (s.setOmega v).ev = s.ev := rfl
@[simp] theorem setOmega_h0 (v : Nat) : (s.setOmega v).h0 = s.h0 := rfl
@[simp] theorem setOmega_h1 (v : Nat) : (s.setOmega v).h1 = s.h1 := rfl
@[simp] theorem setOmega_g (v : Nat) : (s.setOmega v).g = s.g := rfl
@[simp] theorem setOmega_err (v : Nat) : (s.setOmega v).err = s.err := rfl
@[simp] theorem setOmega_z (v : Nat) : (s.setOmega v).z = s.z := rfl
@[simp] theorem setOmega_o (v : Nat) : (s.setOmega v).o = s.o := rfl
@[simp] theorem setOmega_noinv (v : Nat) : (s.setOmega v).noinv = s.noinv := rfl
@[simp] theorem setOmega_dfail (v : Nat) : (s.setOmega v).dfail = s.dfail := rfl
@[simp] theorem setOmega_krej (v : Nat) : (s.setOmega v).krej = s.krej := rfl
@[simp] theorem setOmega_dout (v : Nat) : (s.setOmega v).dout = s.dout := rfl
@[simp] theorem setOmega_r (v : Nat) : (s.setOmega v).r = s.r := rfl
@[simp] theorem setOmega_w (v : Nat) : (s.setOmega v).w = s.w := rfl
@[simp] theorem setOmega_omega (v : Nat) : (s.setOmega v).omega = BitVec.ofNat 16 v := rfl
@[simp] theorem setOmega_iter (v : Nat) : (s.setOmega v).iter = s.iter := rfl
@[simp] theorem setOmega_errcmd (v : Nat) : (s.setOmega v).errcmd = s.errcmd := rfl
@[simp] theorem setOmega_jstar (v : Nat) : (s.setOmega v).jstar = s.jstar := rfl
@[simp] theorem setOmega_astar (v : Nat) : (s.setOmega v).astar = s.astar := rfl
@[simp] theorem setOmega_sigma (v : Nat) : (s.setOmega v).sigma = s.sigma := rfl
@[simp] theorem setOmega_cix (v : Nat) : (s.setOmega v).cix = s.cix := rfl
@[simp] theorem setOmega_pending (v : Nat) : (s.setOmega v).pending = s.pending := rfl
@[simp] theorem setOmega_rdata (v : Nat) : (s.setOmega v).rdata = s.rdata := rfl
@[simp] theorem setOmega_fr (v : Nat) (j : FReg) : (s.setOmega v).fr j = s.fr j := rfl
@[simp] theorem setOmega_pr (v : Nat) (j : PReg) : (s.setOmega v).pr j = s.pr j := rfl
@[simp] theorem setOmega_buf (v : Nat) (c : Buf) : (s.setOmega v).buf c = s.buf c := by cases c <;> rfl
@[simp] theorem setOmega_bsize (v : Nat) : (s.setOmega v).bsize = s.bsize := rfl
@[simp] theorem setOmega_bweight (v : Nat) : (s.setOmega v).bweight = s.bweight := rfl
@[simp] theorem setOmega_halted (v : Nat) : (s.setOmega v).halted = s.halted := rfl

/-! ## setIter -/

@[simp] theorem setIter_cfg (v : Nat) : (s.setIter v).cfg = s.cfg := rfl
@[simp] theorem setIter_f (v : Nat) : (s.setIter v).f = s.f := rfl
@[simp] theorem setIter_p (v : Nat) : (s.setIter v).p = s.p := rfl
@[simp] theorem setIter_m (v : Nat) : (s.setIter v).m = s.m := rfl
@[simp] theorem setIter_qseq (v : Nat) : (s.setIter v).qseq = s.qseq := rfl
@[simp] theorem setIter_msg (v : Nat) : (s.setIter v).msg = s.msg := rfl
@[simp] theorem setIter_cw (v : Nat) : (s.setIter v).cw = s.cw := rfl
@[simp] theorem setIter_sy (v : Nat) : (s.setIter v).sy = s.sy := rfl
@[simp] theorem setIter_ev (v : Nat) : (s.setIter v).ev = s.ev := rfl
@[simp] theorem setIter_h0 (v : Nat) : (s.setIter v).h0 = s.h0 := rfl
@[simp] theorem setIter_h1 (v : Nat) : (s.setIter v).h1 = s.h1 := rfl
@[simp] theorem setIter_g (v : Nat) : (s.setIter v).g = s.g := rfl
@[simp] theorem setIter_err (v : Nat) : (s.setIter v).err = s.err := rfl
@[simp] theorem setIter_z (v : Nat) : (s.setIter v).z = s.z := rfl
@[simp] theorem setIter_o (v : Nat) : (s.setIter v).o = s.o := rfl
@[simp] theorem setIter_noinv (v : Nat) : (s.setIter v).noinv = s.noinv := rfl
@[simp] theorem setIter_dfail (v : Nat) : (s.setIter v).dfail = s.dfail := rfl
@[simp] theorem setIter_krej (v : Nat) : (s.setIter v).krej = s.krej := rfl
@[simp] theorem setIter_dout (v : Nat) : (s.setIter v).dout = s.dout := rfl
@[simp] theorem setIter_r (v : Nat) : (s.setIter v).r = s.r := rfl
@[simp] theorem setIter_w (v : Nat) : (s.setIter v).w = s.w := rfl
@[simp] theorem setIter_omega (v : Nat) : (s.setIter v).omega = s.omega := rfl
@[simp] theorem setIter_iter (v : Nat) : (s.setIter v).iter = BitVec.ofNat 16 v := rfl
@[simp] theorem setIter_errcmd (v : Nat) : (s.setIter v).errcmd = s.errcmd := rfl
@[simp] theorem setIter_jstar (v : Nat) : (s.setIter v).jstar = s.jstar := rfl
@[simp] theorem setIter_astar (v : Nat) : (s.setIter v).astar = s.astar := rfl
@[simp] theorem setIter_sigma (v : Nat) : (s.setIter v).sigma = s.sigma := rfl
@[simp] theorem setIter_cix (v : Nat) : (s.setIter v).cix = s.cix := rfl
@[simp] theorem setIter_pending (v : Nat) : (s.setIter v).pending = s.pending := rfl
@[simp] theorem setIter_rdata (v : Nat) : (s.setIter v).rdata = s.rdata := rfl
@[simp] theorem setIter_fr (v : Nat) (j : FReg) : (s.setIter v).fr j = s.fr j := rfl
@[simp] theorem setIter_pr (v : Nat) (j : PReg) : (s.setIter v).pr j = s.pr j := rfl
@[simp] theorem setIter_buf (v : Nat) (c : Buf) : (s.setIter v).buf c = s.buf c := by cases c <;> rfl
@[simp] theorem setIter_bsize (v : Nat) : (s.setIter v).bsize = s.bsize := rfl
@[simp] theorem setIter_bweight (v : Nat) : (s.setIter v).bweight = s.bweight := rfl
@[simp] theorem setIter_halted (v : Nat) : (s.setIter v).halted = s.halted := rfl

/-! ## setSel -/

@[simp] theorem setSel_cfg (x : Selection) : (s.setSel x).cfg = s.cfg := rfl
@[simp] theorem setSel_f (x : Selection) : (s.setSel x).f = s.f := rfl
@[simp] theorem setSel_p (x : Selection) : (s.setSel x).p = s.p := rfl
@[simp] theorem setSel_m (x : Selection) : (s.setSel x).m = s.m := rfl
@[simp] theorem setSel_qseq (x : Selection) : (s.setSel x).qseq = s.qseq := rfl
@[simp] theorem setSel_msg (x : Selection) : (s.setSel x).msg = s.msg := rfl
@[simp] theorem setSel_cw (x : Selection) : (s.setSel x).cw = s.cw := rfl
@[simp] theorem setSel_sy (x : Selection) : (s.setSel x).sy = s.sy := rfl
@[simp] theorem setSel_ev (x : Selection) : (s.setSel x).ev = s.ev := rfl
@[simp] theorem setSel_h0 (x : Selection) : (s.setSel x).h0 = s.h0 := rfl
@[simp] theorem setSel_h1 (x : Selection) : (s.setSel x).h1 = s.h1 := rfl
@[simp] theorem setSel_g (x : Selection) : (s.setSel x).g = s.g := rfl
@[simp] theorem setSel_err (x : Selection) : (s.setSel x).err = s.err := rfl
@[simp] theorem setSel_z (x : Selection) : (s.setSel x).z = s.z := rfl
@[simp] theorem setSel_o (x : Selection) : (s.setSel x).o = s.o := rfl
@[simp] theorem setSel_noinv (x : Selection) : (s.setSel x).noinv = s.noinv := rfl
@[simp] theorem setSel_dfail (x : Selection) : (s.setSel x).dfail = s.dfail := rfl
@[simp] theorem setSel_krej (x : Selection) : (s.setSel x).krej = s.krej := rfl
@[simp] theorem setSel_dout (x : Selection) : (s.setSel x).dout = s.dout := rfl
@[simp] theorem setSel_r (x : Selection) : (s.setSel x).r = s.r := rfl
@[simp] theorem setSel_w (x : Selection) : (s.setSel x).w = s.w := rfl
@[simp] theorem setSel_omega (x : Selection) : (s.setSel x).omega = s.omega := rfl
@[simp] theorem setSel_iter (x : Selection) : (s.setSel x).iter = s.iter := rfl
@[simp] theorem setSel_errcmd (x : Selection) : (s.setSel x).errcmd = s.errcmd := rfl
@[simp] theorem setSel_jstar (x : Selection) : (s.setSel x).jstar = BitVec.ofNat 16 x.j := rfl
@[simp] theorem setSel_astar (x : Selection) : (s.setSel x).astar = BitVec.ofNat 16 x.a := rfl
@[simp] theorem setSel_sigma (x : Selection) : (s.setSel x).sigma = BitVec.ofInt 32 x.sigma := rfl
@[simp] theorem setSel_cix (x : Selection) : (s.setSel x).cix = s.cix := rfl
@[simp] theorem setSel_pending (x : Selection) : (s.setSel x).pending = s.pending := rfl
@[simp] theorem setSel_rdata (x : Selection) : (s.setSel x).rdata = s.rdata := rfl
@[simp] theorem setSel_fr (x : Selection) (j : FReg) : (s.setSel x).fr j = s.fr j := rfl
@[simp] theorem setSel_pr (x : Selection) (j : PReg) : (s.setSel x).pr j = s.pr j := rfl
@[simp] theorem setSel_buf (x : Selection) (c : Buf) : (s.setSel x).buf c = s.buf c := by cases c <;> rfl
@[simp] theorem setSel_bsize (x : Selection) : (s.setSel x).bsize = s.bsize := rfl
@[simp] theorem setSel_bweight (x : Selection) : (s.setSel x).bweight = s.bweight := rfl
@[simp] theorem setSel_halted (x : Selection) : (s.setSel x).halted = s.halted := rfl

/-! ## raise -/

@[simp] theorem raise_cfg (e : ErrorKind) (cmd : Word) : (s.raise e cmd).cfg = s.cfg := rfl
@[simp] theorem raise_f (e : ErrorKind) (cmd : Word) : (s.raise e cmd).f = s.f := rfl
@[simp] theorem raise_p (e : ErrorKind) (cmd : Word) : (s.raise e cmd).p = s.p := rfl
@[simp] theorem raise_m (e : ErrorKind) (cmd : Word) : (s.raise e cmd).m = s.m := rfl
@[simp] theorem raise_qseq (e : ErrorKind) (cmd : Word) : (s.raise e cmd).qseq = s.qseq := rfl
@[simp] theorem raise_msg (e : ErrorKind) (cmd : Word) : (s.raise e cmd).msg = s.msg := rfl
@[simp] theorem raise_cw (e : ErrorKind) (cmd : Word) : (s.raise e cmd).cw = s.cw := rfl
@[simp] theorem raise_sy (e : ErrorKind) (cmd : Word) : (s.raise e cmd).sy = s.sy := rfl
@[simp] theorem raise_ev (e : ErrorKind) (cmd : Word) : (s.raise e cmd).ev = s.ev := rfl
@[simp] theorem raise_h0 (e : ErrorKind) (cmd : Word) : (s.raise e cmd).h0 = s.h0 := rfl
@[simp] theorem raise_h1 (e : ErrorKind) (cmd : Word) : (s.raise e cmd).h1 = s.h1 := rfl
@[simp] theorem raise_g (e : ErrorKind) (cmd : Word) : (s.raise e cmd).g = s.g := rfl
@[simp] theorem raise_err (e : ErrorKind) (cmd : Word) : (s.raise e cmd).err = some e := rfl
@[simp] theorem raise_z (e : ErrorKind) (cmd : Word) : (s.raise e cmd).z = s.z := rfl
@[simp] theorem raise_o (e : ErrorKind) (cmd : Word) : (s.raise e cmd).o = s.o := rfl
@[simp] theorem raise_noinv (e : ErrorKind) (cmd : Word) : (s.raise e cmd).noinv = s.noinv := rfl
@[simp] theorem raise_dfail (e : ErrorKind) (cmd : Word) : (s.raise e cmd).dfail = s.dfail := rfl
@[simp] theorem raise_krej (e : ErrorKind) (cmd : Word) : (s.raise e cmd).krej = s.krej := rfl
@[simp] theorem raise_dout (e : ErrorKind) (cmd : Word) : (s.raise e cmd).dout = s.dout := rfl
@[simp] theorem raise_r (e : ErrorKind) (cmd : Word) : (s.raise e cmd).r = s.r := rfl
@[simp] theorem raise_w (e : ErrorKind) (cmd : Word) : (s.raise e cmd).w = s.w := rfl
@[simp] theorem raise_omega (e : ErrorKind) (cmd : Word) : (s.raise e cmd).omega = s.omega := rfl
@[simp] theorem raise_iter (e : ErrorKind) (cmd : Word) : (s.raise e cmd).iter = s.iter := rfl
@[simp] theorem raise_errcmd (e : ErrorKind) (cmd : Word) : (s.raise e cmd).errcmd = cmd := rfl
@[simp] theorem raise_jstar (e : ErrorKind) (cmd : Word) : (s.raise e cmd).jstar = s.jstar := rfl
@[simp] theorem raise_astar (e : ErrorKind) (cmd : Word) : (s.raise e cmd).astar = s.astar := rfl
@[simp] theorem raise_sigma (e : ErrorKind) (cmd : Word) : (s.raise e cmd).sigma = s.sigma := rfl
@[simp] theorem raise_cix (e : ErrorKind) (cmd : Word) : (s.raise e cmd).cix = s.cix := rfl
@[simp] theorem raise_pending (e : ErrorKind) (cmd : Word) : (s.raise e cmd).pending = s.pending := rfl
@[simp] theorem raise_rdata (e : ErrorKind) (cmd : Word) : (s.raise e cmd).rdata = s.rdata := rfl
@[simp] theorem raise_fr (e : ErrorKind) (cmd : Word) (j : FReg) : (s.raise e cmd).fr j = s.fr j := rfl
@[simp] theorem raise_pr (e : ErrorKind) (cmd : Word) (j : PReg) : (s.raise e cmd).pr j = s.pr j := rfl
@[simp] theorem raise_buf (e : ErrorKind) (cmd : Word) (c : Buf) : (s.raise e cmd).buf c = s.buf c := by cases c <;> rfl
@[simp] theorem raise_bsize (e : ErrorKind) (cmd : Word) : (s.raise e cmd).bsize = s.bsize := rfl
@[simp] theorem raise_bweight (e : ErrorKind) (cmd : Word) : (s.raise e cmd).bweight = s.bweight := rfl

/-! ## setZO -/

@[simp] theorem setZO_cfg (a b : Bool) : (s.setZO a b).cfg = s.cfg := rfl
@[simp] theorem setZO_f (a b : Bool) : (s.setZO a b).f = s.f := rfl
@[simp] theorem setZO_p (a b : Bool) : (s.setZO a b).p = s.p := rfl
@[simp] theorem setZO_m (a b : Bool) : (s.setZO a b).m = s.m := rfl
@[simp] theorem setZO_qseq (a b : Bool) : (s.setZO a b).qseq = s.qseq := rfl
@[simp] theorem setZO_msg (a b : Bool) : (s.setZO a b).msg = s.msg := rfl
@[simp] theorem setZO_cw (a b : Bool) : (s.setZO a b).cw = s.cw := rfl
@[simp] theorem setZO_sy (a b : Bool) : (s.setZO a b).sy = s.sy := rfl
@[simp] theorem setZO_ev (a b : Bool) : (s.setZO a b).ev = s.ev := rfl
@[simp] theorem setZO_h0 (a b : Bool) : (s.setZO a b).h0 = s.h0 := rfl
@[simp] theorem setZO_h1 (a b : Bool) : (s.setZO a b).h1 = s.h1 := rfl
@[simp] theorem setZO_g (a b : Bool) : (s.setZO a b).g = s.g := rfl
@[simp] theorem setZO_err (a b : Bool) : (s.setZO a b).err = s.err := rfl
@[simp] theorem setZO_z (a b : Bool) : (s.setZO a b).z = a := rfl
@[simp] theorem setZO_o (a b : Bool) : (s.setZO a b).o = b := rfl
@[simp] theorem setZO_noinv (a b : Bool) : (s.setZO a b).noinv = s.noinv := rfl
@[simp] theorem setZO_dfail (a b : Bool) : (s.setZO a b).dfail = s.dfail := rfl
@[simp] theorem setZO_krej (a b : Bool) : (s.setZO a b).krej = s.krej := rfl
@[simp] theorem setZO_dout (a b : Bool) : (s.setZO a b).dout = s.dout := rfl
@[simp] theorem setZO_r (a b : Bool) : (s.setZO a b).r = s.r := rfl
@[simp] theorem setZO_w (a b : Bool) : (s.setZO a b).w = s.w := rfl
@[simp] theorem setZO_omega (a b : Bool) : (s.setZO a b).omega = s.omega := rfl
@[simp] theorem setZO_iter (a b : Bool) : (s.setZO a b).iter = s.iter := rfl
@[simp] theorem setZO_errcmd (a b : Bool) : (s.setZO a b).errcmd = s.errcmd := rfl
@[simp] theorem setZO_jstar (a b : Bool) : (s.setZO a b).jstar = s.jstar := rfl
@[simp] theorem setZO_astar (a b : Bool) : (s.setZO a b).astar = s.astar := rfl
@[simp] theorem setZO_sigma (a b : Bool) : (s.setZO a b).sigma = s.sigma := rfl
@[simp] theorem setZO_cix (a b : Bool) : (s.setZO a b).cix = s.cix := rfl
@[simp] theorem setZO_pending (a b : Bool) : (s.setZO a b).pending = s.pending := rfl
@[simp] theorem setZO_rdata (a b : Bool) : (s.setZO a b).rdata = s.rdata := rfl
@[simp] theorem setZO_fr (a b : Bool) (j : FReg) : (s.setZO a b).fr j = s.fr j := rfl
@[simp] theorem setZO_pr (a b : Bool) (j : PReg) : (s.setZO a b).pr j = s.pr j := rfl
@[simp] theorem setZO_buf (a b : Bool) (c : Buf) : (s.setZO a b).buf c = s.buf c := by cases c <;> rfl
@[simp] theorem setZO_bsize (a b : Bool) : (s.setZO a b).bsize = s.bsize := rfl
@[simp] theorem setZO_bweight (a b : Bool) : (s.setZO a b).bweight = s.bweight := rfl
@[simp] theorem setZO_halted (a b : Bool) : (s.setZO a b).halted = s.halted := rfl

/-! ## setNoinv -/

@[simp] theorem setNoinv_cfg (b : Bool) : (s.setNoinv b).cfg = s.cfg := rfl
@[simp] theorem setNoinv_f (b : Bool) : (s.setNoinv b).f = s.f := rfl
@[simp] theorem setNoinv_p (b : Bool) : (s.setNoinv b).p = s.p := rfl
@[simp] theorem setNoinv_m (b : Bool) : (s.setNoinv b).m = s.m := rfl
@[simp] theorem setNoinv_qseq (b : Bool) : (s.setNoinv b).qseq = s.qseq := rfl
@[simp] theorem setNoinv_msg (b : Bool) : (s.setNoinv b).msg = s.msg := rfl
@[simp] theorem setNoinv_cw (b : Bool) : (s.setNoinv b).cw = s.cw := rfl
@[simp] theorem setNoinv_sy (b : Bool) : (s.setNoinv b).sy = s.sy := rfl
@[simp] theorem setNoinv_ev (b : Bool) : (s.setNoinv b).ev = s.ev := rfl
@[simp] theorem setNoinv_h0 (b : Bool) : (s.setNoinv b).h0 = s.h0 := rfl
@[simp] theorem setNoinv_h1 (b : Bool) : (s.setNoinv b).h1 = s.h1 := rfl
@[simp] theorem setNoinv_g (b : Bool) : (s.setNoinv b).g = s.g := rfl
@[simp] theorem setNoinv_err (b : Bool) : (s.setNoinv b).err = s.err := rfl
@[simp] theorem setNoinv_z (b : Bool) : (s.setNoinv b).z = s.z := rfl
@[simp] theorem setNoinv_o (b : Bool) : (s.setNoinv b).o = s.o := rfl
@[simp] theorem setNoinv_noinv (b : Bool) : (s.setNoinv b).noinv = b := rfl
@[simp] theorem setNoinv_dfail (b : Bool) : (s.setNoinv b).dfail = s.dfail := rfl
@[simp] theorem setNoinv_krej (b : Bool) : (s.setNoinv b).krej = s.krej := rfl
@[simp] theorem setNoinv_dout (b : Bool) : (s.setNoinv b).dout = s.dout := rfl
@[simp] theorem setNoinv_r (b : Bool) : (s.setNoinv b).r = s.r := rfl
@[simp] theorem setNoinv_w (b : Bool) : (s.setNoinv b).w = s.w := rfl
@[simp] theorem setNoinv_omega (b : Bool) : (s.setNoinv b).omega = s.omega := rfl
@[simp] theorem setNoinv_iter (b : Bool) : (s.setNoinv b).iter = s.iter := rfl
@[simp] theorem setNoinv_errcmd (b : Bool) : (s.setNoinv b).errcmd = s.errcmd := rfl
@[simp] theorem setNoinv_jstar (b : Bool) : (s.setNoinv b).jstar = s.jstar := rfl
@[simp] theorem setNoinv_astar (b : Bool) : (s.setNoinv b).astar = s.astar := rfl
@[simp] theorem setNoinv_sigma (b : Bool) : (s.setNoinv b).sigma = s.sigma := rfl
@[simp] theorem setNoinv_cix (b : Bool) : (s.setNoinv b).cix = s.cix := rfl
@[simp] theorem setNoinv_pending (b : Bool) : (s.setNoinv b).pending = s.pending := rfl
@[simp] theorem setNoinv_rdata (b : Bool) : (s.setNoinv b).rdata = s.rdata := rfl
@[simp] theorem setNoinv_fr (b : Bool) (j : FReg) : (s.setNoinv b).fr j = s.fr j := rfl
@[simp] theorem setNoinv_pr (b : Bool) (j : PReg) : (s.setNoinv b).pr j = s.pr j := rfl
@[simp] theorem setNoinv_buf (b : Bool) (c : Buf) : (s.setNoinv b).buf c = s.buf c := by cases c <;> rfl
@[simp] theorem setNoinv_bsize (b : Bool) : (s.setNoinv b).bsize = s.bsize := rfl
@[simp] theorem setNoinv_bweight (b : Bool) : (s.setNoinv b).bweight = s.bweight := rfl
@[simp] theorem setNoinv_halted (b : Bool) : (s.setNoinv b).halted = s.halted := rfl

/-! ## setDfail -/

@[simp] theorem setDfail_cfg (b : Bool) : (s.setDfail b).cfg = s.cfg := rfl
@[simp] theorem setDfail_f (b : Bool) : (s.setDfail b).f = s.f := rfl
@[simp] theorem setDfail_p (b : Bool) : (s.setDfail b).p = s.p := rfl
@[simp] theorem setDfail_m (b : Bool) : (s.setDfail b).m = s.m := rfl
@[simp] theorem setDfail_qseq (b : Bool) : (s.setDfail b).qseq = s.qseq := rfl
@[simp] theorem setDfail_msg (b : Bool) : (s.setDfail b).msg = s.msg := rfl
@[simp] theorem setDfail_cw (b : Bool) : (s.setDfail b).cw = s.cw := rfl
@[simp] theorem setDfail_sy (b : Bool) : (s.setDfail b).sy = s.sy := rfl
@[simp] theorem setDfail_ev (b : Bool) : (s.setDfail b).ev = s.ev := rfl
@[simp] theorem setDfail_h0 (b : Bool) : (s.setDfail b).h0 = s.h0 := rfl
@[simp] theorem setDfail_h1 (b : Bool) : (s.setDfail b).h1 = s.h1 := rfl
@[simp] theorem setDfail_g (b : Bool) : (s.setDfail b).g = s.g := rfl
@[simp] theorem setDfail_err (b : Bool) : (s.setDfail b).err = s.err := rfl
@[simp] theorem setDfail_z (b : Bool) : (s.setDfail b).z = s.z := rfl
@[simp] theorem setDfail_o (b : Bool) : (s.setDfail b).o = s.o := rfl
@[simp] theorem setDfail_noinv (b : Bool) : (s.setDfail b).noinv = s.noinv := rfl
@[simp] theorem setDfail_dfail (b : Bool) : (s.setDfail b).dfail = b := rfl
@[simp] theorem setDfail_krej (b : Bool) : (s.setDfail b).krej = s.krej := rfl
@[simp] theorem setDfail_dout (b : Bool) : (s.setDfail b).dout = s.dout := rfl
@[simp] theorem setDfail_r (b : Bool) : (s.setDfail b).r = s.r := rfl
@[simp] theorem setDfail_w (b : Bool) : (s.setDfail b).w = s.w := rfl
@[simp] theorem setDfail_omega (b : Bool) : (s.setDfail b).omega = s.omega := rfl
@[simp] theorem setDfail_iter (b : Bool) : (s.setDfail b).iter = s.iter := rfl
@[simp] theorem setDfail_errcmd (b : Bool) : (s.setDfail b).errcmd = s.errcmd := rfl
@[simp] theorem setDfail_jstar (b : Bool) : (s.setDfail b).jstar = s.jstar := rfl
@[simp] theorem setDfail_astar (b : Bool) : (s.setDfail b).astar = s.astar := rfl
@[simp] theorem setDfail_sigma (b : Bool) : (s.setDfail b).sigma = s.sigma := rfl
@[simp] theorem setDfail_cix (b : Bool) : (s.setDfail b).cix = s.cix := rfl
@[simp] theorem setDfail_pending (b : Bool) : (s.setDfail b).pending = s.pending := rfl
@[simp] theorem setDfail_rdata (b : Bool) : (s.setDfail b).rdata = s.rdata := rfl
@[simp] theorem setDfail_fr (b : Bool) (j : FReg) : (s.setDfail b).fr j = s.fr j := rfl
@[simp] theorem setDfail_pr (b : Bool) (j : PReg) : (s.setDfail b).pr j = s.pr j := rfl
@[simp] theorem setDfail_buf (b : Bool) (c : Buf) : (s.setDfail b).buf c = s.buf c := by cases c <;> rfl
@[simp] theorem setDfail_bsize (b : Bool) : (s.setDfail b).bsize = s.bsize := rfl
@[simp] theorem setDfail_bweight (b : Bool) : (s.setDfail b).bweight = s.bweight := rfl
@[simp] theorem setDfail_halted (b : Bool) : (s.setDfail b).halted = s.halted := rfl

/-! ## setKrej -/

@[simp] theorem setKrej_cfg (b : Bool) : (s.setKrej b).cfg = s.cfg := rfl
@[simp] theorem setKrej_f (b : Bool) : (s.setKrej b).f = s.f := rfl
@[simp] theorem setKrej_p (b : Bool) : (s.setKrej b).p = s.p := rfl
@[simp] theorem setKrej_m (b : Bool) : (s.setKrej b).m = s.m := rfl
@[simp] theorem setKrej_qseq (b : Bool) : (s.setKrej b).qseq = s.qseq := rfl
@[simp] theorem setKrej_msg (b : Bool) : (s.setKrej b).msg = s.msg := rfl
@[simp] theorem setKrej_cw (b : Bool) : (s.setKrej b).cw = s.cw := rfl
@[simp] theorem setKrej_sy (b : Bool) : (s.setKrej b).sy = s.sy := rfl
@[simp] theorem setKrej_ev (b : Bool) : (s.setKrej b).ev = s.ev := rfl
@[simp] theorem setKrej_h0 (b : Bool) : (s.setKrej b).h0 = s.h0 := rfl
@[simp] theorem setKrej_h1 (b : Bool) : (s.setKrej b).h1 = s.h1 := rfl
@[simp] theorem setKrej_g (b : Bool) : (s.setKrej b).g = s.g := rfl
@[simp] theorem setKrej_err (b : Bool) : (s.setKrej b).err = s.err := rfl
@[simp] theorem setKrej_z (b : Bool) : (s.setKrej b).z = s.z := rfl
@[simp] theorem setKrej_o (b : Bool) : (s.setKrej b).o = s.o := rfl
@[simp] theorem setKrej_noinv (b : Bool) : (s.setKrej b).noinv = s.noinv := rfl
@[simp] theorem setKrej_dfail (b : Bool) : (s.setKrej b).dfail = s.dfail := rfl
@[simp] theorem setKrej_krej (b : Bool) : (s.setKrej b).krej = b := rfl
@[simp] theorem setKrej_dout (b : Bool) : (s.setKrej b).dout = s.dout := rfl
@[simp] theorem setKrej_r (b : Bool) : (s.setKrej b).r = s.r := rfl
@[simp] theorem setKrej_w (b : Bool) : (s.setKrej b).w = s.w := rfl
@[simp] theorem setKrej_omega (b : Bool) : (s.setKrej b).omega = s.omega := rfl
@[simp] theorem setKrej_iter (b : Bool) : (s.setKrej b).iter = s.iter := rfl
@[simp] theorem setKrej_errcmd (b : Bool) : (s.setKrej b).errcmd = s.errcmd := rfl
@[simp] theorem setKrej_jstar (b : Bool) : (s.setKrej b).jstar = s.jstar := rfl
@[simp] theorem setKrej_astar (b : Bool) : (s.setKrej b).astar = s.astar := rfl
@[simp] theorem setKrej_sigma (b : Bool) : (s.setKrej b).sigma = s.sigma := rfl
@[simp] theorem setKrej_cix (b : Bool) : (s.setKrej b).cix = s.cix := rfl
@[simp] theorem setKrej_pending (b : Bool) : (s.setKrej b).pending = s.pending := rfl
@[simp] theorem setKrej_rdata (b : Bool) : (s.setKrej b).rdata = s.rdata := rfl
@[simp] theorem setKrej_fr (b : Bool) (j : FReg) : (s.setKrej b).fr j = s.fr j := rfl
@[simp] theorem setKrej_pr (b : Bool) (j : PReg) : (s.setKrej b).pr j = s.pr j := rfl
@[simp] theorem setKrej_buf (b : Bool) (c : Buf) : (s.setKrej b).buf c = s.buf c := by cases c <;> rfl
@[simp] theorem setKrej_bsize (b : Bool) : (s.setKrej b).bsize = s.bsize := rfl
@[simp] theorem setKrej_bweight (b : Bool) : (s.setKrej b).bweight = s.bweight := rfl
@[simp] theorem setKrej_halted (b : Bool) : (s.setKrej b).halted = s.halted := rfl

/-! ## tick -/

@[simp] theorem tick_cfg : (s.tick).cfg = s.cfg := rfl
@[simp] theorem tick_f : (s.tick).f = s.f := rfl
@[simp] theorem tick_p : (s.tick).p = s.p := rfl
@[simp] theorem tick_m : (s.tick).m = s.m := rfl
@[simp] theorem tick_qseq : (s.tick).qseq = s.qseq := rfl
@[simp] theorem tick_msg : (s.tick).msg = s.msg := rfl
@[simp] theorem tick_cw : (s.tick).cw = s.cw := rfl
@[simp] theorem tick_sy : (s.tick).sy = s.sy := rfl
@[simp] theorem tick_ev : (s.tick).ev = s.ev := rfl
@[simp] theorem tick_h0 : (s.tick).h0 = s.h0 := rfl
@[simp] theorem tick_h1 : (s.tick).h1 = s.h1 := rfl
@[simp] theorem tick_g : (s.tick).g = s.g := rfl
@[simp] theorem tick_err : (s.tick).err = s.err := rfl
@[simp] theorem tick_z : (s.tick).z = s.z := rfl
@[simp] theorem tick_o : (s.tick).o = s.o := rfl
@[simp] theorem tick_noinv : (s.tick).noinv = s.noinv := rfl
@[simp] theorem tick_dfail : (s.tick).dfail = s.dfail := rfl
@[simp] theorem tick_krej : (s.tick).krej = s.krej := rfl
@[simp] theorem tick_dout : (s.tick).dout = s.dout := rfl
@[simp] theorem tick_r : (s.tick).r = s.r := rfl
@[simp] theorem tick_w : (s.tick).w = s.w := rfl
@[simp] theorem tick_omega : (s.tick).omega = s.omega := rfl
@[simp] theorem tick_iter : (s.tick).iter = s.iter := rfl
@[simp] theorem tick_errcmd : (s.tick).errcmd = s.errcmd := rfl
@[simp] theorem tick_jstar : (s.tick).jstar = s.jstar := rfl
@[simp] theorem tick_astar : (s.tick).astar = s.astar := rfl
@[simp] theorem tick_sigma : (s.tick).sigma = s.sigma := rfl
@[simp] theorem tick_cix : (s.tick).cix = s.cix + 1 := rfl
@[simp] theorem tick_pending : (s.tick).pending = s.pending := rfl
@[simp] theorem tick_rdata : (s.tick).rdata = s.rdata := rfl
@[simp] theorem tick_fr (j : FReg) : (s.tick).fr j = s.fr j := rfl
@[simp] theorem tick_pr (j : PReg) : (s.tick).pr j = s.pr j := rfl
@[simp] theorem tick_buf (c : Buf) : (s.tick).buf c = s.buf c := by cases c <;> rfl
@[simp] theorem tick_bsize : (s.tick).bsize = s.bsize := rfl
@[simp] theorem tick_bweight : (s.tick).bweight = s.bweight := rfl
@[simp] theorem tick_halted : (s.tick).halted = s.halted := rfl

/-! ## setPending -/

@[simp] theorem setPending_cfg (l : List HostAction) : (s.setPending l).cfg = s.cfg := rfl
@[simp] theorem setPending_f (l : List HostAction) : (s.setPending l).f = s.f := rfl
@[simp] theorem setPending_p (l : List HostAction) : (s.setPending l).p = s.p := rfl
@[simp] theorem setPending_m (l : List HostAction) : (s.setPending l).m = s.m := rfl
@[simp] theorem setPending_qseq (l : List HostAction) : (s.setPending l).qseq = s.qseq := rfl
@[simp] theorem setPending_msg (l : List HostAction) : (s.setPending l).msg = s.msg := rfl
@[simp] theorem setPending_cw (l : List HostAction) : (s.setPending l).cw = s.cw := rfl
@[simp] theorem setPending_sy (l : List HostAction) : (s.setPending l).sy = s.sy := rfl
@[simp] theorem setPending_ev (l : List HostAction) : (s.setPending l).ev = s.ev := rfl
@[simp] theorem setPending_h0 (l : List HostAction) : (s.setPending l).h0 = s.h0 := rfl
@[simp] theorem setPending_h1 (l : List HostAction) : (s.setPending l).h1 = s.h1 := rfl
@[simp] theorem setPending_g (l : List HostAction) : (s.setPending l).g = s.g := rfl
@[simp] theorem setPending_err (l : List HostAction) : (s.setPending l).err = s.err := rfl
@[simp] theorem setPending_z (l : List HostAction) : (s.setPending l).z = s.z := rfl
@[simp] theorem setPending_o (l : List HostAction) : (s.setPending l).o = s.o := rfl
@[simp] theorem setPending_noinv (l : List HostAction) : (s.setPending l).noinv = s.noinv := rfl
@[simp] theorem setPending_dfail (l : List HostAction) : (s.setPending l).dfail = s.dfail := rfl
@[simp] theorem setPending_krej (l : List HostAction) : (s.setPending l).krej = s.krej := rfl
@[simp] theorem setPending_dout (l : List HostAction) : (s.setPending l).dout = s.dout := rfl
@[simp] theorem setPending_r (l : List HostAction) : (s.setPending l).r = s.r := rfl
@[simp] theorem setPending_w (l : List HostAction) : (s.setPending l).w = s.w := rfl
@[simp] theorem setPending_omega (l : List HostAction) : (s.setPending l).omega = s.omega := rfl
@[simp] theorem setPending_iter (l : List HostAction) : (s.setPending l).iter = s.iter := rfl
@[simp] theorem setPending_errcmd (l : List HostAction) : (s.setPending l).errcmd = s.errcmd := rfl
@[simp] theorem setPending_jstar (l : List HostAction) : (s.setPending l).jstar = s.jstar := rfl
@[simp] theorem setPending_astar (l : List HostAction) : (s.setPending l).astar = s.astar := rfl
@[simp] theorem setPending_sigma (l : List HostAction) : (s.setPending l).sigma = s.sigma := rfl
@[simp] theorem setPending_cix (l : List HostAction) : (s.setPending l).cix = s.cix := rfl
@[simp] theorem setPending_pending (l : List HostAction) : (s.setPending l).pending = l := rfl
@[simp] theorem setPending_rdata (l : List HostAction) : (s.setPending l).rdata = s.rdata := rfl
@[simp] theorem setPending_fr (l : List HostAction) (j : FReg) : (s.setPending l).fr j = s.fr j := rfl
@[simp] theorem setPending_pr (l : List HostAction) (j : PReg) : (s.setPending l).pr j = s.pr j := rfl
@[simp] theorem setPending_buf (l : List HostAction) (c : Buf) : (s.setPending l).buf c = s.buf c := by cases c <;> rfl
@[simp] theorem setPending_bsize (l : List HostAction) : (s.setPending l).bsize = s.bsize := rfl
@[simp] theorem setPending_bweight (l : List HostAction) : (s.setPending l).bweight = s.bweight := rfl
@[simp] theorem setPending_halted (l : List HostAction) : (s.setPending l).halted = s.halted := rfl

/-! ## setRdata -/

@[simp] theorem setRdata_cfg (v : Word) : (s.setRdata v).cfg = s.cfg := rfl
@[simp] theorem setRdata_f (v : Word) : (s.setRdata v).f = s.f := rfl
@[simp] theorem setRdata_p (v : Word) : (s.setRdata v).p = s.p := rfl
@[simp] theorem setRdata_m (v : Word) : (s.setRdata v).m = s.m := rfl
@[simp] theorem setRdata_qseq (v : Word) : (s.setRdata v).qseq = s.qseq := rfl
@[simp] theorem setRdata_msg (v : Word) : (s.setRdata v).msg = s.msg := rfl
@[simp] theorem setRdata_cw (v : Word) : (s.setRdata v).cw = s.cw := rfl
@[simp] theorem setRdata_sy (v : Word) : (s.setRdata v).sy = s.sy := rfl
@[simp] theorem setRdata_ev (v : Word) : (s.setRdata v).ev = s.ev := rfl
@[simp] theorem setRdata_h0 (v : Word) : (s.setRdata v).h0 = s.h0 := rfl
@[simp] theorem setRdata_h1 (v : Word) : (s.setRdata v).h1 = s.h1 := rfl
@[simp] theorem setRdata_g (v : Word) : (s.setRdata v).g = s.g := rfl
@[simp] theorem setRdata_err (v : Word) : (s.setRdata v).err = s.err := rfl
@[simp] theorem setRdata_z (v : Word) : (s.setRdata v).z = s.z := rfl
@[simp] theorem setRdata_o (v : Word) : (s.setRdata v).o = s.o := rfl
@[simp] theorem setRdata_noinv (v : Word) : (s.setRdata v).noinv = s.noinv := rfl
@[simp] theorem setRdata_dfail (v : Word) : (s.setRdata v).dfail = s.dfail := rfl
@[simp] theorem setRdata_krej (v : Word) : (s.setRdata v).krej = s.krej := rfl
@[simp] theorem setRdata_dout (v : Word) : (s.setRdata v).dout = s.dout := rfl
@[simp] theorem setRdata_r (v : Word) : (s.setRdata v).r = s.r := rfl
@[simp] theorem setRdata_w (v : Word) : (s.setRdata v).w = s.w := rfl
@[simp] theorem setRdata_omega (v : Word) : (s.setRdata v).omega = s.omega := rfl
@[simp] theorem setRdata_iter (v : Word) : (s.setRdata v).iter = s.iter := rfl
@[simp] theorem setRdata_errcmd (v : Word) : (s.setRdata v).errcmd = s.errcmd := rfl
@[simp] theorem setRdata_jstar (v : Word) : (s.setRdata v).jstar = s.jstar := rfl
@[simp] theorem setRdata_astar (v : Word) : (s.setRdata v).astar = s.astar := rfl
@[simp] theorem setRdata_sigma (v : Word) : (s.setRdata v).sigma = s.sigma := rfl
@[simp] theorem setRdata_cix (v : Word) : (s.setRdata v).cix = s.cix := rfl
@[simp] theorem setRdata_pending (v : Word) : (s.setRdata v).pending = s.pending := rfl
@[simp] theorem setRdata_rdata (v : Word) : (s.setRdata v).rdata = v := rfl
@[simp] theorem setRdata_fr (v : Word) (j : FReg) : (s.setRdata v).fr j = s.fr j := rfl
@[simp] theorem setRdata_pr (v : Word) (j : PReg) : (s.setRdata v).pr j = s.pr j := rfl
@[simp] theorem setRdata_buf (v : Word) (c : Buf) : (s.setRdata v).buf c = s.buf c := by cases c <;> rfl
@[simp] theorem setRdata_bsize (v : Word) : (s.setRdata v).bsize = s.bsize := rfl
@[simp] theorem setRdata_bweight (v : Word) : (s.setRdata v).bweight = s.bweight := rfl
@[simp] theorem setRdata_halted (v : Word) : (s.setRdata v).halted = s.halted := rfl

/-! ## setBuf -/

@[simp] theorem setBuf_cfg (b : Buf) (v : Vec) : (s.setBuf b v).cfg = s.cfg := by cases b <;> rfl
@[simp] theorem setBuf_f (b : Buf) (v : Vec) : (s.setBuf b v).f = s.f := by cases b <;> rfl
@[simp] theorem setBuf_p (b : Buf) (v : Vec) : (s.setBuf b v).p = s.p := by cases b <;> rfl
@[simp] theorem setBuf_m (b : Buf) (v : Vec) : (s.setBuf b v).m = s.m := by cases b <;> rfl
@[simp] theorem setBuf_qseq (b : Buf) (v : Vec) : (s.setBuf b v).qseq = s.qseq := by cases b <;> rfl
@[simp] theorem setBuf_err (b : Buf) (v : Vec) : (s.setBuf b v).err = s.err := by cases b <;> rfl
@[simp] theorem setBuf_z (b : Buf) (v : Vec) : (s.setBuf b v).z = s.z := by cases b <;> rfl
@[simp] theorem setBuf_o (b : Buf) (v : Vec) : (s.setBuf b v).o = s.o := by cases b <;> rfl
@[simp] theorem setBuf_noinv (b : Buf) (v : Vec) : (s.setBuf b v).noinv = s.noinv := by cases b <;> rfl
@[simp] theorem setBuf_dfail (b : Buf) (v : Vec) : (s.setBuf b v).dfail = s.dfail := by cases b <;> rfl
@[simp] theorem setBuf_krej (b : Buf) (v : Vec) : (s.setBuf b v).krej = s.krej := by cases b <;> rfl
@[simp] theorem setBuf_dout (b : Buf) (v : Vec) : (s.setBuf b v).dout = s.dout := by cases b <;> rfl
@[simp] theorem setBuf_r (b : Buf) (v : Vec) : (s.setBuf b v).r = s.r := by cases b <;> rfl
@[simp] theorem setBuf_w (b : Buf) (v : Vec) : (s.setBuf b v).w = s.w := by cases b <;> rfl
@[simp] theorem setBuf_omega (b : Buf) (v : Vec) : (s.setBuf b v).omega = s.omega := by cases b <;> rfl
@[simp] theorem setBuf_iter (b : Buf) (v : Vec) : (s.setBuf b v).iter = s.iter := by cases b <;> rfl
@[simp] theorem setBuf_errcmd (b : Buf) (v : Vec) : (s.setBuf b v).errcmd = s.errcmd := by cases b <;> rfl
@[simp] theorem setBuf_jstar (b : Buf) (v : Vec) : (s.setBuf b v).jstar = s.jstar := by cases b <;> rfl
@[simp] theorem setBuf_astar (b : Buf) (v : Vec) : (s.setBuf b v).astar = s.astar := by cases b <;> rfl
@[simp] theorem setBuf_sigma (b : Buf) (v : Vec) : (s.setBuf b v).sigma = s.sigma := by cases b <;> rfl
@[simp] theorem setBuf_cix (b : Buf) (v : Vec) : (s.setBuf b v).cix = s.cix := by cases b <;> rfl
@[simp] theorem setBuf_pending (b : Buf) (v : Vec) : (s.setBuf b v).pending = s.pending := by cases b <;> rfl
@[simp] theorem setBuf_rdata (b : Buf) (v : Vec) : (s.setBuf b v).rdata = s.rdata := by cases b <;> rfl
@[simp] theorem setBuf_fr (b : Buf) (v : Vec) (j : FReg) : (s.setBuf b v).fr j = s.fr j := by cases b <;> rfl
@[simp] theorem setBuf_pr (b : Buf) (v : Vec) (j : PReg) : (s.setBuf b v).pr j = s.pr j := by cases b <;> rfl
@[simp] theorem setBuf_bsize (b : Buf) (v : Vec) : (s.setBuf b v).bsize = s.bsize := by cases b <;> rfl
@[simp] theorem setBuf_bweight (b : Buf) (v : Vec) : (s.setBuf b v).bweight = s.bweight := by cases b <;> rfl
@[simp] theorem setBuf_halted (b : Buf) (v : Vec) : (s.setBuf b v).halted = s.halted := by cases b <;> rfl

@[simp] theorem setBuf_msg_msg (v : Vec) : (s.setBuf .msg v).msg = v := rfl
@[simp] theorem setBuf_msg_cw (v : Vec) : (s.setBuf .msg v).cw = s.cw := rfl
@[simp] theorem setBuf_msg_sy (v : Vec) : (s.setBuf .msg v).sy = s.sy := rfl
@[simp] theorem setBuf_msg_ev (v : Vec) : (s.setBuf .msg v).ev = s.ev := rfl
@[simp] theorem setBuf_msg_h0 (v : Vec) : (s.setBuf .msg v).h0 = s.h0 := rfl
@[simp] theorem setBuf_msg_h1 (v : Vec) : (s.setBuf .msg v).h1 = s.h1 := rfl
@[simp] theorem setBuf_msg_g (v : Vec) : (s.setBuf .msg v).g = s.g := rfl
@[simp] theorem setBuf_cw_msg (v : Vec) : (s.setBuf .cw v).msg = s.msg := rfl
@[simp] theorem setBuf_cw_cw (v : Vec) : (s.setBuf .cw v).cw = v := rfl
@[simp] theorem setBuf_cw_sy (v : Vec) : (s.setBuf .cw v).sy = s.sy := rfl
@[simp] theorem setBuf_cw_ev (v : Vec) : (s.setBuf .cw v).ev = s.ev := rfl
@[simp] theorem setBuf_cw_h0 (v : Vec) : (s.setBuf .cw v).h0 = s.h0 := rfl
@[simp] theorem setBuf_cw_h1 (v : Vec) : (s.setBuf .cw v).h1 = s.h1 := rfl
@[simp] theorem setBuf_cw_g (v : Vec) : (s.setBuf .cw v).g = s.g := rfl
@[simp] theorem setBuf_sy_msg (v : Vec) : (s.setBuf .sy v).msg = s.msg := rfl
@[simp] theorem setBuf_sy_cw (v : Vec) : (s.setBuf .sy v).cw = s.cw := rfl
@[simp] theorem setBuf_sy_sy (v : Vec) : (s.setBuf .sy v).sy = v := rfl
@[simp] theorem setBuf_sy_ev (v : Vec) : (s.setBuf .sy v).ev = s.ev := rfl
@[simp] theorem setBuf_sy_h0 (v : Vec) : (s.setBuf .sy v).h0 = s.h0 := rfl
@[simp] theorem setBuf_sy_h1 (v : Vec) : (s.setBuf .sy v).h1 = s.h1 := rfl
@[simp] theorem setBuf_sy_g (v : Vec) : (s.setBuf .sy v).g = s.g := rfl
@[simp] theorem setBuf_ev_msg (v : Vec) : (s.setBuf .ev v).msg = s.msg := rfl
@[simp] theorem setBuf_ev_cw (v : Vec) : (s.setBuf .ev v).cw = s.cw := rfl
@[simp] theorem setBuf_ev_sy (v : Vec) : (s.setBuf .ev v).sy = s.sy := rfl
@[simp] theorem setBuf_ev_ev (v : Vec) : (s.setBuf .ev v).ev = v := rfl
@[simp] theorem setBuf_ev_h0 (v : Vec) : (s.setBuf .ev v).h0 = s.h0 := rfl
@[simp] theorem setBuf_ev_h1 (v : Vec) : (s.setBuf .ev v).h1 = s.h1 := rfl
@[simp] theorem setBuf_ev_g (v : Vec) : (s.setBuf .ev v).g = s.g := rfl
@[simp] theorem setBuf_h0_msg (v : Vec) : (s.setBuf .h0 v).msg = s.msg := rfl
@[simp] theorem setBuf_h0_cw (v : Vec) : (s.setBuf .h0 v).cw = s.cw := rfl
@[simp] theorem setBuf_h0_sy (v : Vec) : (s.setBuf .h0 v).sy = s.sy := rfl
@[simp] theorem setBuf_h0_ev (v : Vec) : (s.setBuf .h0 v).ev = s.ev := rfl
@[simp] theorem setBuf_h0_h0 (v : Vec) : (s.setBuf .h0 v).h0 = v := rfl
@[simp] theorem setBuf_h0_h1 (v : Vec) : (s.setBuf .h0 v).h1 = s.h1 := rfl
@[simp] theorem setBuf_h0_g (v : Vec) : (s.setBuf .h0 v).g = s.g := rfl
@[simp] theorem setBuf_h1_msg (v : Vec) : (s.setBuf .h1 v).msg = s.msg := rfl
@[simp] theorem setBuf_h1_cw (v : Vec) : (s.setBuf .h1 v).cw = s.cw := rfl
@[simp] theorem setBuf_h1_sy (v : Vec) : (s.setBuf .h1 v).sy = s.sy := rfl
@[simp] theorem setBuf_h1_ev (v : Vec) : (s.setBuf .h1 v).ev = s.ev := rfl
@[simp] theorem setBuf_h1_h0 (v : Vec) : (s.setBuf .h1 v).h0 = s.h0 := rfl
@[simp] theorem setBuf_h1_h1 (v : Vec) : (s.setBuf .h1 v).h1 = v := rfl
@[simp] theorem setBuf_h1_g (v : Vec) : (s.setBuf .h1 v).g = s.g := rfl
@[simp] theorem setBuf_g_msg (v : Vec) : (s.setBuf .g v).msg = s.msg := rfl
@[simp] theorem setBuf_g_cw (v : Vec) : (s.setBuf .g v).cw = s.cw := rfl
@[simp] theorem setBuf_g_sy (v : Vec) : (s.setBuf .g v).sy = s.sy := rfl
@[simp] theorem setBuf_g_ev (v : Vec) : (s.setBuf .g v).ev = s.ev := rfl
@[simp] theorem setBuf_g_h0 (v : Vec) : (s.setBuf .g v).h0 = s.h0 := rfl
@[simp] theorem setBuf_g_h1 (v : Vec) : (s.setBuf .g v).h1 = s.h1 := rfl
@[simp] theorem setBuf_g_g (v : Vec) : (s.setBuf .g v).g = v := rfl

/-! ## The named buffers -/

@[simp] theorem buf_msg : s.buf .msg = s.msg := rfl
@[simp] theorem buf_cw : s.buf .cw = s.cw := rfl
@[simp] theorem buf_sy : s.buf .sy = s.sy := rfl
@[simp] theorem buf_ev : s.buf .ev = s.ev := rfl
@[simp] theorem buf_h0 : s.buf .h0 = s.h0 := rfl
@[simp] theorem buf_h1 : s.buf .h1 = s.h1 := rfl
@[simp] theorem buf_g : s.buf .g = s.g := rfl

/-! ## Reading after writing -/

/-- Reading the buffer written gives the value; reading another leaves it alone. -/
@[simp] theorem buf_setBuf (b c : Buf) (v : Vec) : (s.setBuf b v).buf c = if c = b then v else s.buf c := by
  cases b <;> cases c <;> rfl

@[simp] theorem fr_setF (i j : FReg) (v : Elem) : (s.setF i v).fr j = if j = i then v else s.fr j := by
  unfold State.fr State.setF
  simp only [Vector.getElem_set, Fin.ext_iff, eq_comm]

@[simp] theorem pr_setP (i j : PReg) (v : Poly) : (s.setP i v).pr j = if j = i then v else s.pr j := by
  unfold State.pr State.setP
  simp only [Vector.getElem_set, Fin.ext_iff, eq_comm]

theorem halted_iff : s.halted = true ↔ s.err ≠ none := by
  unfold State.halted
  cases s.err <;> simp

/-! ## reset_state() -/

@[simp] theorem resetState_cfg : s.resetState.cfg = s.cfg := rfl
@[simp] theorem resetState_f : s.resetState.f = Vector.replicate 16 0 := rfl
@[simp] theorem resetState_p : s.resetState.p = Vector.replicate 16 [] := rfl
@[simp] theorem resetState_m : s.resetState.m = matId := rfl
@[simp] theorem resetState_qseq : s.resetState.qseq = [] := rfl
@[simp] theorem resetState_msg : s.resetState.msg = [] := rfl
@[simp] theorem resetState_cw : s.resetState.cw = [] := rfl
@[simp] theorem resetState_sy : s.resetState.sy = [] := rfl
@[simp] theorem resetState_ev : s.resetState.ev = [] := rfl
@[simp] theorem resetState_h0 : s.resetState.h0 = [] := rfl
@[simp] theorem resetState_h1 : s.resetState.h1 = [] := rfl
@[simp] theorem resetState_g : s.resetState.g = [] := rfl
@[simp] theorem resetState_err : s.resetState.err = none := rfl
@[simp] theorem resetState_z : s.resetState.z = false := rfl
@[simp] theorem resetState_o : s.resetState.o = false := rfl
@[simp] theorem resetState_noinv : s.resetState.noinv = false := rfl
@[simp] theorem resetState_dfail : s.resetState.dfail = false := rfl
@[simp] theorem resetState_krej : s.resetState.krej = false := rfl
@[simp] theorem resetState_dout : s.resetState.dout = 0 := rfl
@[simp] theorem resetState_r : s.resetState.r = 0 := rfl
@[simp] theorem resetState_w : s.resetState.w = 0 := rfl
@[simp] theorem resetState_omega : s.resetState.omega = 0 := rfl
@[simp] theorem resetState_iter : s.resetState.iter = 0 := rfl
@[simp] theorem resetState_errcmd : s.resetState.errcmd = 0 := rfl
@[simp] theorem resetState_jstar : s.resetState.jstar = 0 := rfl
@[simp] theorem resetState_astar : s.resetState.astar = 0 := rfl
@[simp] theorem resetState_sigma : s.resetState.sigma = 0 := rfl
@[simp] theorem resetState_cix : s.resetState.cix = 0 := rfl
@[simp] theorem resetState_pending : s.resetState.pending = s.pending := rfl
@[simp] theorem resetState_rdata : s.resetState.rdata = s.rdata := rfl

@[simp] theorem resetState_fr (i : FReg) : s.resetState.fr i = 0 := by
  unfold State.fr
  simp

@[simp] theorem resetState_pr (i : PReg) : s.resetState.pr i = [] := by
  unfold State.pr
  simp

@[simp] theorem resetState_buf (b : Buf) : s.resetState.buf b = [] := by cases b <;> rfl

/-- Two states that hold the same in every component are the same state. -/
theorem state_ext {s t : State} (h : ∀ c : Comp, c.same s t) : t = s := by
  have hf : t.f = s.f := by
    apply Vector.ext
    intro i hi
    exact h (.f ⟨i, hi⟩)
  have hp : t.p = s.p := by
    apply Vector.ext
    intro i hi
    exact h (.p ⟨i, hi⟩)
  have hb : ∀ b : Buf, t.buf b = s.buf b := fun b => h (.buf b)
  have hm := h .m
  cases s
  cases t
  simp only [State.mk.injEq]
  exact ⟨h .cfg, hf, hp, hm, h .qseq, hb .msg, hb .cw, hb .sy, hb .ev, hb .h0, hb .h1, hb .g, h .err, h .z, h .o,
    h .noinv, h .dfail, h .krej, h .dout, h .r, h .w, h .omega, h .iter, h .errcmd, h .jstar, h .astar, h .sigma,
    h .cix, h .pending, h .rdata⟩

end Sys2Proof.Machine
end

