-- ==== Sys2Proof/Laws/Frames.lean ====
section
/-! SUPPORT. Frames: what each update and each shared operation leaves unchanged. -/

namespace Sys2Proof.Machine

variable {s t u : State} {l m : List Comp}

theorem SameExcept.refl (l : List Comp) (s : State) : SameExcept l s s := fun c _ => by cases c <;> rfl

theorem Comp.same_trans {c : Comp} (h1 : c.same s t) (h2 : c.same t u) : c.same s u := by
  cases c <;> exact Eq.trans h2 h1

theorem SameExcept.trans (h1 : SameExcept l s t) (h2 : SameExcept m t u) : SameExcept (l ++ m) s u := fun _ hc =>
  Comp.same_trans (h1 _ fun h => hc (List.mem_append_left _ h)) (h2 _ fun h => hc (List.mem_append_right _ h))

theorem SameExcept.mono (h : SameExcept l s t) (hl : l ⊆ m) : SameExcept m s t := fun c hc => h c fun h => hc (hl h)

/-- A frame that names nothing: the states are equal. -/
theorem SameExcept.eq (h : SameExcept [] s t) : t = s := state_ext fun c => h c List.not_mem_nil

/-! ## Updates -/

theorem same_setF (s : State) (i : FReg) (v : Elem) : SameExcept [.f i] s (s.setF i v) := by
  intro c hc
  cases c <;> simp [Comp.same] at hc ⊢
  exact fun h => absurd h hc

theorem same_setP (s : State) (i : PReg) (v : Poly) : SameExcept [.p i] s (s.setP i v) := by
  intro c hc
  cases c <;> simp [Comp.same] at hc ⊢
  exact fun h => absurd h hc

theorem same_setBuf (s : State) (b : Buf) (v : Vec) : SameExcept [.buf b] s (s.setBuf b v) := by
  intro c hc
  cases c <;> simp [Comp.same] at hc ⊢
  rename_i d
  cases b <;> cases d <;> simp_all [State.buf]

theorem same_setMQ (s : State) (x : Mat) (qs : List Poly) : SameExcept [.m, .qseq] s (s.setMQ x qs) := by
  intro c hc
  cases c <;> simp [Comp.same] at hc ⊢

theorem same_setDout (s : State) (v : Nat) : SameExcept [.dout] s (s.setDout v) := by
  intro c hc
  cases c <;> simp [Comp.same] at hc ⊢

theorem same_setR (s : State) (v : Nat) : SameExcept [.r] s (s.setR v) := by
  intro c hc
  cases c <;> simp [Comp.same] at hc ⊢

theorem same_setW (s : State) (v : Nat) : SameExcept [.w] s (s.setW v) := by
  intro c hc
  cases c <;> simp [Comp.same] at hc ⊢

theorem same_setOmega (s : State) (v : Nat) : SameExcept [.omega] s (s.setOmega v) := by
  intro c hc
  cases c <;> simp [Comp.same] at hc ⊢

theorem same_setIter (s : State) (v : Nat) : SameExcept [.iter] s (s.setIter v) := by
  intro c hc
  cases c <;> simp [Comp.same] at hc ⊢

theorem same_setSel (s : State) (x : Selection) : SameExcept [.jstar, .astar, .sigma] s (s.setSel x) := by
  intro c hc
  cases c <;> simp [Comp.same] at hc ⊢

theorem same_raise (s : State) (e : ErrorKind) (w : Word) : SameExcept [.err, .errcmd] s (s.raise e w) := by
  intro c hc
  cases c <;> simp [Comp.same] at hc ⊢

theorem same_setZO (s : State) (x y : Bool) : SameExcept [.z, .o] s (s.setZO x y) := by
  intro c hc
  cases c <;> simp [Comp.same] at hc ⊢

theorem same_setNoinv (s : State) (b : Bool) : SameExcept [.noinv] s (s.setNoinv b) := by
  intro c hc
  cases c <;> simp [Comp.same] at hc ⊢

theorem same_setDfail (s : State) (b : Bool) : SameExcept [.dfail] s (s.setDfail b) := by
  intro c hc
  cases c <;> simp [Comp.same] at hc ⊢

theorem same_setKrej (s : State) (b : Bool) : SameExcept [.krej] s (s.setKrej b) := by
  intro c hc
  cases c <;> simp [Comp.same] at hc ⊢

theorem same_tick (s : State) : SameExcept [.cix] s s.tick := by
  intro c hc
  cases c <;> simp [Comp.same] at hc ⊢

theorem same_setPending (s : State) (l : List HostAction) : SameExcept [.pending] s (s.setPending l) := by
  intro c hc
  cases c <;> simp [Comp.same] at hc ⊢

theorem same_setRdata (s : State) (v : Word) : SameExcept [.rdata] s (s.setRdata v) := by
  intro c hc
  cases c <;> simp [Comp.same] at hc ⊢

/-! ## Shared operations -/

theorem same_putInverse_none (s : State) (rd : PReg) : SameExcept [.noinv] s (s.putInverse rd none) :=
  same_setNoinv s true

theorem same_putInverse_some (s : State) (rd : PReg) (q : Poly) :
    SameExcept [.noinv, .p rd] s (s.putInverse rd (some q)) := (same_setNoinv s false).trans (same_setP _ rd q)

theorem same_setSyndrome (s : State) (v : Vec) : SameExcept [.buf .sy, .omega] s (s.setSyndrome v) :=
  (same_setBuf s .sy v).trans (same_setOmega _ _)

theorem same_flipAt (s : State) (x : Selection) :
    SameExcept [.buf .sy, .omega, .buf .ev, .jstar, .astar, .sigma] s (s.flipAt x) :=
  ((same_setSyndrome s _).trans (same_setBuf _ .ev _)).trans (same_setSel _ x)

theorem same_iterate (s : State) :
    SameExcept [.buf .sy, .buf .ev, .omega, .jstar, .astar, .sigma] s s.iterate := by
  unfold State.iterate
  split
  · exact .refl _ _
  · exact (same_flipAt s _).mono (by decide)

theorem same_iterateTimes (k : Nat) (s : State) :
    SameExcept [.buf .sy, .buf .ev, .omega, .iter, .jstar, .astar, .sigma] s (State.iterateTimes k s) := by
  induction k generalizing s with
  | zero => exact .refl _ _
  | succ k ih => exact (((same_iterate s).trans (same_setIter _ _)).trans (ih _)).mono (by decide)

theorem same_decodeStart (s : State) : SameExcept [.buf .sy, .omega, .buf .ev, .iter] s s.decodeStart :=
  ((same_setSyndrome s _).trans (same_setBuf _ .ev _)).trans (same_setIter _ _)

/-- reset_state() leaves the parameters and the host's side of the port (R36; log entries 2, 3). -/
theorem resetState_spec (s : State) :
    s.resetState = { State.resetWith s.cfg with pending := s.pending, rdata := s.rdata } := rfl

end Sys2Proof.Machine
end

