-- ==== Sys2Proof/Laws/Params.lean ====
section
/-! SUPPORT. The concrete instance of R5, and GF(4) with any other RMAX, meet the constraints on the parameters. -/

namespace Sys2Proof.Machine

/-- GF(4) with the multiplication of R102 is a field (R102, R117). -/
theorem fieldLaws_gf4 : FieldLaws Params.gf4 where
  mul_lt := by decide
  mul_comm := by decide
  mul_assoc := by decide
  mul_plus := by decide
  mul_one := by decide
  mul_zero := by decide
  inv_lt := by decide
  inv_mul := by decide

/-- GF(4) with another bound on the block size. -/
def gf4With (rmax : Nat) : Params := { Params.gf4 with rmax := rmax }

theorem fieldLaws_gf4With (rmax : Nat) : FieldLaws (gf4With rmax) where
  mul_lt := fieldLaws_gf4.mul_lt
  mul_comm := fieldLaws_gf4.mul_comm
  mul_assoc := fieldLaws_gf4.mul_assoc
  mul_plus := fieldLaws_gf4.mul_plus
  mul_one := fieldLaws_gf4.mul_one
  mul_zero := fieldLaws_gf4.mul_zero
  inv_lt := fieldLaws_gf4.inv_lt
  inv_mul := fieldLaws_gf4.inv_mul

theorem irreducible_gf4 : Irreducible2 2 7 := by
  unfold Irreducible2
  decide

theorem mem_nz_gf4 (a : Elem) : a ∈ Params.gf4.nz ↔ a ≠ 0 ∧ a < Params.gf4.card := by
  have h : ∀ n : Nat, (n = 1 ∨ n = 2 ∨ n = 3) ↔ n ≠ 0 ∧ n < 4 := by omega
  change a ∈ [1, 2, 3] ↔ a ≠ 0 ∧ a < 4
  simp only [List.mem_cons, List.not_mem_nil, or_false]
  exact h a

/-- GF(4) meets R5 with every RMAX of R5. -/
theorem paramsOk_gf4With {rmax : Nat} (h1 : 1 ≤ rmax) (h2 : rmax ≤ 32767) : ParamsOk (gf4With rmax) where
  n_pos := show 1 ≤ 2 by decide
  n_le := show 2 ≤ 16 by decide
  poly_top := show (7).testBit 2 = true by decide
  poly_low := show (7).testBit 0 = true by decide
  poly_lt := show 7 < 2 ^ (2 + 1) by decide
  poly_irreducible := irreducible_gf4
  nz_nodup := show [1, 2, 3].Nodup by decide
  nz_all := mem_nz_gf4
  rmax_pos := h1
  rmax_le := h2
  laws := fieldLaws_gf4With rmax

/-- The concrete instance meets R5. -/
theorem paramsOk_gf4 : ParamsOk Params.gf4 := paramsOk_gf4With (rmax := 4096) (by decide) (by decide)

end Sys2Proof.Machine
end

