-- ==== Sys2Proof/Laws/PerInstr.lean ====
section
/-! SUPPORT. Families proved one command at a time. `EncodedOpcode`: the encoder puts the command's opcode of R85 into
bits [31:24]. -/

namespace Sys2Proof.Laws

/-- The opcode of a command (R85). -/
def opcode : Instr → Nat
  | .nop => 0x00
  | .sreset => 0x01
  | .fli _ _ => 0x10
  | .fmov _ _ => 0x11
  | .fadd _ _ _ => 0x12
  | .fsub _ _ _ => 0x13
  | .fmul _ _ _ => 0x14
  | .fdiv _ _ _ => 0x15
  | .finv _ _ => 0x16
  | .ftst _ => 0x17
  | .fnze _ _ => 0x18
  | .fmax => 0x19
  | .fget _ => 0x1A
  | .pclr _ => 0x20
  | .pmov _ _ => 0x21
  | .psetc _ _ _ => 0x22
  | .pgetc _ _ _ => 0x23
  | .pdeg _ => 0x24
  | .ptst _ => 0x25
  | .padd _ _ _ => 0x26
  | .psub _ _ _ => 0x27
  | .pmul _ _ _ => 0x28
  | .pscl _ _ _ => 0x29
  | .pdivrem _ _ _ _ => 0x2A
  | .pshr _ _ _ => 0x2B
  | .phgcd _ _ => 0x30
  | .pfgcd _ _ _ => 0x31
  | .mapply _ _ _ _ => 0x32
  | .mget _ _ => 0x33
  | .qget _ _ => 0x34
  | .pinv _ _ _ => 0x35
  | .ksetr _ => 0x40
  | .pmodf _ => 0x41
  | .rmul _ _ _ => 0x42
  | .rinv _ _ => 0x43
  | .ksetw _ => 0x50
  | .vinit _ _ => 0x51
  | .vsete _ _ _ => 0x52
  | .vgete _ _ _ => 0x53
  | .vwt _ => 0x54
  | .p2v _ _ _ => 0x55
  | .v2p _ _ => 0x56
  | .kder => 0x58
  | .encodeMsg => 0x59
  | .synd => 0x5A
  | .dstep => 0x5B
  | .decodeCw _ => 0x5C

theorem opField_wordR {op rd ra rb rc : Nat} (h : op < 256) (hd : rd < 16) (ha : ra < 16) (hb : rb < 16)
    (hc : rc < 16) : opField (wordR op rd ra rb rc) = op := by
  simp only [opField, wordR, BitVec.toNat_ofNat]
  omega

theorem opField_wordI {op rd ra imm : Nat} (h : op < 256) (hd : rd < 16) (ha : ra < 16) :
    opField (wordI op rd ra imm) = op := by
  simp only [opField, wordI, BitVec.toNat_ofNat]
  omega

theorem bufId_lt (b : Buf) : bufId b < 16 := by cases b <;> decide

/-- The opcode byte of the encoded command is the opcode map's (R80, R85). -/
def EncodedOpcode.Statement (i : Instr) : Prop := opField (encode i) = opcode i

theorem EncodedOpcode.nop : EncodedOpcode.Statement (.nop) :=
  opField_wordR (by decide) (by decide) (by decide) (by decide) (by decide)

theorem EncodedOpcode.sreset : EncodedOpcode.Statement (.sreset) :=
  opField_wordR (by decide) (by decide) (by decide) (by decide) (by decide)

theorem EncodedOpcode.fli (rd : FReg) (imm : Nat) : EncodedOpcode.Statement (.fli rd imm) :=
  opField_wordI (by decide) rd.isLt (by decide)

theorem EncodedOpcode.fmov (rd ra : FReg) : EncodedOpcode.Statement (.fmov rd ra) :=
  opField_wordR (by decide) rd.isLt ra.isLt (by decide) (by decide)

theorem EncodedOpcode.fadd (rd ra rb : FReg) : EncodedOpcode.Statement (.fadd rd ra rb) :=
  opField_wordR (by decide) rd.isLt ra.isLt rb.isLt (by decide)

theorem EncodedOpcode.fsub (rd ra rb : FReg) : EncodedOpcode.Statement (.fsub rd ra rb) :=
  opField_wordR (by decide) rd.isLt ra.isLt rb.isLt (by decide)

theorem EncodedOpcode.fmul (rd ra rb : FReg) : EncodedOpcode.Statement (.fmul rd ra rb) :=
  opField_wordR (by decide) rd.isLt ra.isLt rb.isLt (by decide)

theorem EncodedOpcode.fdiv (rd ra rb : FReg) : EncodedOpcode.Statement (.fdiv rd ra rb) :=
  opField_wordR (by decide) rd.isLt ra.isLt rb.isLt (by decide)

theorem EncodedOpcode.finv (rd ra : FReg) : EncodedOpcode.Statement (.finv rd ra) :=
  opField_wordR (by decide) rd.isLt ra.isLt (by decide) (by decide)

theorem EncodedOpcode.ftst (ra : FReg) : EncodedOpcode.Statement (.ftst ra) :=
  opField_wordR (by decide) (by decide) ra.isLt (by decide) (by decide)

theorem EncodedOpcode.fnze (rd : FReg) (imm : Nat) : EncodedOpcode.Statement (.fnze rd imm) :=
  opField_wordI (by decide) rd.isLt (by decide)

theorem EncodedOpcode.fmax : EncodedOpcode.Statement (.fmax) :=
  opField_wordR (by decide) (by decide) (by decide) (by decide) (by decide)

theorem EncodedOpcode.fget (ra : FReg) : EncodedOpcode.Statement (.fget ra) :=
  opField_wordR (by decide) (by decide) ra.isLt (by decide) (by decide)

theorem EncodedOpcode.pclr (rd : PReg) : EncodedOpcode.Statement (.pclr rd) :=
  opField_wordR (by decide) rd.isLt (by decide) (by decide) (by decide)

theorem EncodedOpcode.pmov (rd ra : PReg) : EncodedOpcode.Statement (.pmov rd ra) :=
  opField_wordR (by decide) rd.isLt ra.isLt (by decide) (by decide)

theorem EncodedOpcode.psetc (rd : PReg) (ra : FReg) (imm : Nat) : EncodedOpcode.Statement (.psetc rd ra imm) :=
  opField_wordI (by decide) rd.isLt ra.isLt

theorem EncodedOpcode.pgetc (rd : FReg) (ra : PReg) (imm : Nat) : EncodedOpcode.Statement (.pgetc rd ra imm) :=
  opField_wordI (by decide) rd.isLt ra.isLt

theorem EncodedOpcode.pdeg (ra : PReg) : EncodedOpcode.Statement (.pdeg ra) :=
  opField_wordR (by decide) (by decide) ra.isLt (by decide) (by decide)

theorem EncodedOpcode.ptst (ra : PReg) : EncodedOpcode.Statement (.ptst ra) :=
  opField_wordR (by decide) (by decide) ra.isLt (by decide) (by decide)

theorem EncodedOpcode.padd (rd ra rb : PReg) : EncodedOpcode.Statement (.padd rd ra rb) :=
  opField_wordR (by decide) rd.isLt ra.isLt rb.isLt (by decide)

theorem EncodedOpcode.psub (rd ra rb : PReg) : EncodedOpcode.Statement (.psub rd ra rb) :=
  opField_wordR (by decide) rd.isLt ra.isLt rb.isLt (by decide)

theorem EncodedOpcode.pmul (rd ra rb : PReg) : EncodedOpcode.Statement (.pmul rd ra rb) :=
  opField_wordR (by decide) rd.isLt ra.isLt rb.isLt (by decide)

theorem EncodedOpcode.pscl (rd ra : PReg) (rb : FReg) : EncodedOpcode.Statement (.pscl rd ra rb) :=
  opField_wordR (by decide) rd.isLt ra.isLt rb.isLt (by decide)

theorem EncodedOpcode.pdivrem (rd rc ra rb : PReg) : EncodedOpcode.Statement (.pdivrem rd rc ra rb) :=
  opField_wordR (by decide) rd.isLt ra.isLt rb.isLt rc.isLt

theorem EncodedOpcode.pshr (rd ra : PReg) (imm : Nat) : EncodedOpcode.Statement (.pshr rd ra imm) :=
  opField_wordI (by decide) rd.isLt ra.isLt

theorem EncodedOpcode.phgcd (ra rb : PReg) : EncodedOpcode.Statement (.phgcd ra rb) :=
  opField_wordR (by decide) (by decide) ra.isLt rb.isLt (by decide)

theorem EncodedOpcode.pfgcd (rd ra rb : PReg) : EncodedOpcode.Statement (.pfgcd rd ra rb) :=
  opField_wordR (by decide) rd.isLt ra.isLt rb.isLt (by decide)

theorem EncodedOpcode.mapply (rd rc ra rb : PReg) : EncodedOpcode.Statement (.mapply rd rc ra rb) :=
  opField_wordR (by decide) rd.isLt ra.isLt rb.isLt rc.isLt

theorem EncodedOpcode.mget (rd : PReg) (imm : Nat) : EncodedOpcode.Statement (.mget rd imm) :=
  opField_wordI (by decide) rd.isLt (by decide)

theorem EncodedOpcode.qget (rd : PReg) (imm : Nat) : EncodedOpcode.Statement (.qget rd imm) :=
  opField_wordI (by decide) rd.isLt (by decide)

theorem EncodedOpcode.pinv (rd ra rb : PReg) : EncodedOpcode.Statement (.pinv rd ra rb) :=
  opField_wordR (by decide) rd.isLt ra.isLt rb.isLt (by decide)

theorem EncodedOpcode.ksetr (imm : Nat) : EncodedOpcode.Statement (.ksetr imm) :=
  opField_wordI (by decide) (by decide) (by decide)

theorem EncodedOpcode.pmodf (rd : PReg) : EncodedOpcode.Statement (.pmodf rd) :=
  opField_wordR (by decide) rd.isLt (by decide) (by decide) (by decide)

theorem EncodedOpcode.rmul (rd ra rb : PReg) : EncodedOpcode.Statement (.rmul rd ra rb) :=
  opField_wordR (by decide) rd.isLt ra.isLt rb.isLt (by decide)

theorem EncodedOpcode.rinv (rd ra : PReg) : EncodedOpcode.Statement (.rinv rd ra) :=
  opField_wordR (by decide) rd.isLt ra.isLt (by decide) (by decide)

theorem EncodedOpcode.ksetw (imm : Nat) : EncodedOpcode.Statement (.ksetw imm) :=
  opField_wordI (by decide) (by decide) (by decide)

theorem EncodedOpcode.vinit (b : Buf) (imm : Nat) : EncodedOpcode.Statement (.vinit b imm) :=
  opField_wordI (by decide) (bufId_lt b) (by decide)

theorem EncodedOpcode.vsete (b : Buf) (ra : FReg) (imm : Nat) : EncodedOpcode.Statement (.vsete b ra imm) :=
  opField_wordI (by decide) (bufId_lt b) ra.isLt

theorem EncodedOpcode.vgete (rd : FReg) (b : Buf) (imm : Nat) : EncodedOpcode.Statement (.vgete rd b imm) :=
  opField_wordI (by decide) rd.isLt (bufId_lt b)

theorem EncodedOpcode.vwt (b : Buf) : EncodedOpcode.Statement (.vwt b) :=
  opField_wordR (by decide) (by decide) (bufId_lt b) (by decide) (by decide)

theorem EncodedOpcode.p2v (b : Buf) (ra : PReg) (imm : Nat) : EncodedOpcode.Statement (.p2v b ra imm) :=
  opField_wordI (by decide) (bufId_lt b) ra.isLt

theorem EncodedOpcode.v2p (rd : PReg) (b : Buf) : EncodedOpcode.Statement (.v2p rd b) :=
  opField_wordR (by decide) rd.isLt (bufId_lt b) (by decide) (by decide)

theorem EncodedOpcode.kder : EncodedOpcode.Statement (.kder) :=
  opField_wordR (by decide) (by decide) (by decide) (by decide) (by decide)

theorem EncodedOpcode.encodeMsg : EncodedOpcode.Statement (.encodeMsg) :=
  opField_wordR (by decide) (by decide) (by decide) (by decide) (by decide)

theorem EncodedOpcode.synd : EncodedOpcode.Statement (.synd) :=
  opField_wordR (by decide) (by decide) (by decide) (by decide) (by decide)

theorem EncodedOpcode.dstep : EncodedOpcode.Statement (.dstep) :=
  opField_wordR (by decide) (by decide) (by decide) (by decide) (by decide)

theorem EncodedOpcode.decodeCw (imm : Nat) : EncodedOpcode.Statement (.decodeCw imm) :=
  opField_wordI (by decide) (by decide) (by decide)

end Sys2Proof.Laws
end

