-- ==== Sys2Proof/Laws/Step.lean ====
section
/-! SUPPORT. What one step can do, said once: by the host's next action, and for an issued word by the four ways of the
engine step (46_system.md R232, R233). -/

namespace Sys2Proof.Machine

variable {s t : State}

/-- With no host action pending nothing happens (log entry 2). -/
theorem step_idle (h : s.pending = []) : step s = .next s := by simp only [step, stepPending, h]

/-- A host action is taken off the list, then carried out (R232). -/
theorem step_action {a : HostAction} {rest : List HostAction} (h : s.pending = a :: rest) :
    step s = hostStep a (s.setPending rest) := by simp only [step, stepPending, h]

/-- The engine step of a word: counted, then obeyed, ignored, refused as illegal, or run (R233). -/
theorem engineStep_cases (w : Word) (s : State) :
    (s.err ≠ none ∧ w = sresetWord ∧ engineStep w s = .next s.tick.resetState) ∨
    (s.err ≠ none ∧ w ≠ sresetWord ∧ engineStep w s = .next s.tick) ∨
    (s.err = none ∧ (∃ e, decode w = .error e) ∧ engineStep w s = .next (s.tick.raise .illegalCommand w)) ∨
    (s.err = none ∧ ∃ i, decode w = .ok i ∧ engineStep w s = exec i s.tick) := by
  unfold engineStep
  by_cases h : s.err = none
  · have h1 : ¬ s.tick.halted = true := by rw [halted_iff]; simp [h]
    rw [if_neg h1]
    cases hd : decode w with
    | error e => exact .inr (.inr (.inl ⟨h, ⟨e, rfl⟩, rfl⟩))
    | ok i => exact .inr (.inr (.inr ⟨h, i, rfl, rfl⟩))
  · have h1 : s.tick.halted = true := by rw [halted_iff]; simpa using h
    rw [if_pos h1]
    by_cases hw : w = sresetWord
    · exact .inl ⟨h, hw, if_pos hw⟩
    · exact .inr (.inl ⟨h, hw, if_neg hw⟩)

/-- Everything one step can do. -/
theorem step_cases (h : step s = .next t) :
    (s.pending = [] ∧ t = s) ∨
    (∃ w rest, s.pending = .issue w :: rest ∧ engineStep w (s.setPending rest) = .next t) ∨
    (∃ n rest, s.pending = .readCsr n :: rest ∧ t = (s.setPending rest).setRdata (readCsr (s.setPending rest) n.toNat)) ∨
    (∃ rest, s.pending = .reset :: rest ∧ t = (s.setPending rest).resetState) := by
  cases hp : s.pending with
  | nil =>
    rw [step_idle hp] at h
    injection h with h
    exact .inl ⟨rfl, h.symm⟩
  | cons a rest =>
    rw [step_action hp] at h
    cases a with
    | issue w => exact .inr (.inl ⟨w, rest, rfl, h⟩)
    | readCsr n =>
      injection h with h
      exact .inr (.inr (.inl ⟨n, rest, rfl, h.symm⟩))
    | reset =>
      injection h with h
      exact .inr (.inr (.inr ⟨rest, rfl, h.symm⟩))

/-- The step a pending table word leads to is that word's engine step. -/
theorem step_withFetchWord (s : State) (nbits w : Nat) :
    step (s.withFetchWord nbits w) = engineStep (tableWord nbits w) s := by
  rw [step_action (rest := s.pending) rfl]
  rfl

end Sys2Proof.Machine
end

