-- ==== Sys2Proof/Laws/Storage.lean ====
section
/-! SUPPORT. Every storage operation keeps the one canonical form of the storage (`Memory.wf`), and with it the storage
invariant; the state after reset has both. -/

namespace Sys2Proof.Machine

variable {s : State}

/-! ## Polynomials that fit their container -/

theorem polyOk_nil (P : Params) : polyOk P [] := ⟨canonical_nil, elemsOk_nil, Nat.zero_le _⟩

theorem lmax_pos {P : Params} (h : ParamsOk P) : 1 ≤ P.lmax := by
  have := h.rmax_pos
  unfold Params.lmax
  omega

theorem polyOk_one {P : Params} (h : ParamsOk P) : polyOk P [1] :=
  ⟨by decide, elemsOk_one (one_lt_card h), lmax_pos h⟩

theorem matOk_matId {P : Params} (h : ParamsOk P) : matOk P matId :=
  ⟨polyOk_one h, polyOk_nil P, polyOk_nil P, polyOk_one h⟩

/-- Row-major access to a sound matrix gives a sound polynomial (R159). -/
theorem polyOk_entry {P : Params} {x : Mat} (hx : matOk P x) {i : Nat} {y : Poly} (h : x.entry i = some y) :
    polyOk P y := by
  match i, h with
  | 0, h => exact Option.some.inj h ▸ hx.1
  | 1, h => exact Option.some.inj h ▸ hx.2.1
  | 2, h => exact Option.some.inj h ▸ hx.2.2.1
  | 3, h => exact Option.some.inj h ▸ hx.2.2.2

/-! ## Reading sound storage -/

theorem Memory.wf.fr (h : Memory.wf s) (i : FReg) : s.fr i < s.cfg.card := h.1 i

theorem Memory.wf.pr (h : Memory.wf s) (i : PReg) : polyOk s.cfg (s.pr i) := h.2.1 i

theorem Memory.wf.m (h : Memory.wf s) : matOk s.cfg s.m := h.2.2.1

theorem Memory.wf.qseq (h : Memory.wf s) : qseqOk s.cfg s.qseq := h.2.2.2.1

theorem Memory.wf.buf (h : Memory.wf s) (b : Buf) : bufOk s.cfg b (s.buf b) := by
  obtain ⟨-, -, -, -, h0, h1, h2, h3, h4, h5, h6⟩ := h
  cases b
  · exact h0
  · exact h1
  · exact h2
  · exact h3
  · exact h4
  · exact h5
  · exact h6

/-- Sound storage from its parts. -/
theorem Memory.wf_of (hf : ∀ i : FReg, s.fr i < s.cfg.card) (hp : ∀ i : PReg, polyOk s.cfg (s.pr i))
    (hm : matOk s.cfg s.m) (hq : qseqOk s.cfg s.qseq) (hb : ∀ b : Buf, bufOk s.cfg b (s.buf b)) : Memory.wf s :=
  ⟨hf, hp, hm, hq, hb .msg, hb .cw, hb .sy, hb .ev, hb .h0, hb .h1, hb .g⟩

/-- Storage that no field of `t` changes stays sound. -/
theorem Memory.wf.same {t : State} (h : Memory.wf s) (hc : t.cfg = s.cfg) (hf : ∀ i, t.fr i = s.fr i)
    (hp : ∀ i, t.pr i = s.pr i) (hm : t.m = s.m) (hq : t.qseq = s.qseq) (hb : ∀ b, t.buf b = s.buf b) :
    Memory.wf t := by
  refine Memory.wf_of (fun i => ?_) (fun i => ?_) ?_ ?_ fun b => ?_
  · rw [hc, hf]
    exact h.fr i
  · rw [hc, hp]
    exact h.pr i
  · rw [hc, hm]
    exact h.m
  · rw [hc, hq]
    exact h.qseq
  · rw [hc, hb]
    exact h.buf b

/-! ## Writing sound storage -/

theorem Memory.wf.setF (h : Memory.wf s) {i : FReg} {v : Elem} (hv : v < s.cfg.card) : Memory.wf (s.setF i v) := by
  refine Memory.wf_of (fun j => ?_) h.pr h.m h.qseq fun b => ?_
  · rw [fr_setF]
    split
    · exact hv
    · exact h.fr j
  · rw [setF_buf]
    exact h.buf b

theorem Memory.wf.setP (h : Memory.wf s) {i : PReg} {v : Poly} (hv : polyOk s.cfg v) : Memory.wf (s.setP i v) := by
  refine Memory.wf_of h.fr (fun j => ?_) h.m h.qseq fun b => ?_
  · rw [pr_setP]
    split
    · exact hv
    · exact h.pr j
  · rw [setP_buf]
    exact h.buf b

theorem Memory.wf.setBuf (h : Memory.wf s) {b : Buf} {v : Vec} (hv : bufOk s.cfg b v) : Memory.wf (s.setBuf b v) := by
  refine Memory.wf_of (fun j => ?_) (fun j => ?_) ?_ ?_ fun c => ?_
  · rw [setBuf_fr, setBuf_cfg]
    exact h.fr j
  · rw [setBuf_pr, setBuf_cfg]
    exact h.pr j
  · rw [setBuf_m, setBuf_cfg]
    exact h.m
  · rw [setBuf_qseq, setBuf_cfg]
    exact h.qseq
  · rw [buf_setBuf, setBuf_cfg]
    split
    · rename_i hc
      exact hc ▸ hv
    · exact h.buf c

theorem Memory.wf.setMQ (h : Memory.wf s) {x : Mat} {qs : List Poly} (hx : matOk s.cfg x) (hq : qseqOk s.cfg qs) :
    Memory.wf (s.setMQ x qs) :=
  Memory.wf_of h.fr h.pr hx hq h.buf

/-! ## The storage invariant under the updates -/

/-- Updates of the other fields keep the invariant when they keep the parameters, the storage and the sizes. -/
theorem State.Inv.same {t : State} (h : s.Inv) (hc : t.cfg = s.cfg) (hf : ∀ i, t.fr i = s.fr i)
    (hp : ∀ i, t.pr i = s.pr i) (hm : t.m = s.m) (hq : t.qseq = s.qseq) (hb : ∀ b, t.buf b = s.buf b)
    (hr : t.r = s.r) (hw : t.w = s.w) : t.Inv := by
  refine ⟨hc ▸ h.params, h.storage.same hc hf hp hm hq hb, ?_⟩
  have := h.sizes
  unfold sizesOk State.bsize State.bweight at *
  rw [hc, hr, hw]
  exact this

theorem State.Inv.setF (h : s.Inv) {i : FReg} {v : Elem} (hv : v < s.cfg.card) : (s.setF i v).Inv :=
  ⟨h.params, h.storage.setF hv, h.sizes⟩

theorem State.Inv.setP (h : s.Inv) {i : PReg} {v : Poly} (hv : polyOk s.cfg v) : (s.setP i v).Inv :=
  ⟨h.params, h.storage.setP hv, h.sizes⟩

theorem State.Inv.setMQ (h : s.Inv) {x : Mat} {qs : List Poly} (hx : matOk s.cfg x) (hq : qseqOk s.cfg qs) :
    (s.setMQ x qs).Inv := ⟨h.params, h.storage.setMQ hx hq, h.sizes⟩

theorem State.Inv.setBuf (h : s.Inv) {b : Buf} {v : Vec} (hv : bufOk s.cfg b v) : (s.setBuf b v).Inv := by
  refine ⟨by rw [setBuf_cfg]; exact h.params, h.storage.setBuf hv, ?_⟩
  unfold sizesOk
  rw [setBuf_bsize, setBuf_bweight, setBuf_cfg]
  exact h.sizes

theorem State.Inv.setR (h : s.Inv) {v : Nat} (hv : v ≤ s.cfg.rmax) (hw : s.bweight ≤ v) : (s.setR v).Inv := by
  refine ⟨h.params, h.storage.same rfl (fun _ => rfl) (fun _ => rfl) rfl rfl fun b => by simp, ?_⟩
  have hle := h.params.rmax_le
  have : (s.setR v).bsize = v := by
    unfold State.bsize
    rw [setR_r, BitVec.toNat_ofNat, Nat.mod_eq_of_lt (by omega)]
  unfold sizesOk
  rw [this]
  exact ⟨hw, hv⟩

theorem State.Inv.setW (h : s.Inv) {v : Nat} (hv : v ≤ s.bsize) : (s.setW v).Inv := by
  refine ⟨h.params, h.storage.same rfl (fun _ => rfl) (fun _ => rfl) rfl rfl fun b => by simp, ?_⟩
  refine ⟨?_, h.sizes.2⟩
  unfold State.bweight
  rw [setW_w, BitVec.toNat_ofNat]
  exact (Nat.mod_le _ _).trans hv

theorem State.Inv.setDout (h : s.Inv) (v : Nat) : (s.setDout v).Inv :=
  h.same rfl (fun _ => rfl) (fun _ => rfl) rfl rfl (fun b => by simp) rfl rfl

theorem State.Inv.setOmega (h : s.Inv) (v : Nat) : (s.setOmega v).Inv :=
  h.same rfl (fun _ => rfl) (fun _ => rfl) rfl rfl (fun b => by simp) rfl rfl

theorem State.Inv.setIter (h : s.Inv) (v : Nat) : (s.setIter v).Inv :=
  h.same rfl (fun _ => rfl) (fun _ => rfl) rfl rfl (fun b => by simp) rfl rfl

theorem State.Inv.setSel (h : s.Inv) (x : Selection) : (s.setSel x).Inv :=
  h.same rfl (fun _ => rfl) (fun _ => rfl) rfl rfl (fun b => by simp) rfl rfl

theorem State.Inv.setZO (h : s.Inv) (x y : Bool) : (s.setZO x y).Inv :=
  h.same rfl (fun _ => rfl) (fun _ => rfl) rfl rfl (fun b => by simp) rfl rfl

theorem State.Inv.setNoinv (h : s.Inv) (x : Bool) : (s.setNoinv x).Inv :=
  h.same rfl (fun _ => rfl) (fun _ => rfl) rfl rfl (fun b => by simp) rfl rfl

theorem State.Inv.setDfail (h : s.Inv) (x : Bool) : (s.setDfail x).Inv :=
  h.same rfl (fun _ => rfl) (fun _ => rfl) rfl rfl (fun b => by simp) rfl rfl

theorem State.Inv.setKrej (h : s.Inv) (x : Bool) : (s.setKrej x).Inv :=
  h.same rfl (fun _ => rfl) (fun _ => rfl) rfl rfl (fun b => by simp) rfl rfl

theorem State.Inv.raise (h : s.Inv) (e : ErrorKind) (w : Word) : (s.raise e w).Inv :=
  h.same rfl (fun _ => rfl) (fun _ => rfl) rfl rfl (fun b => by simp) rfl rfl

theorem State.Inv.tick (h : s.Inv) : s.tick.Inv :=
  h.same rfl (fun _ => rfl) (fun _ => rfl) rfl rfl (fun b => by simp) rfl rfl

theorem State.Inv.setPending (h : s.Inv) (l : List HostAction) : (s.setPending l).Inv :=
  h.same rfl (fun _ => rfl) (fun _ => rfl) rfl rfl (fun b => by simp) rfl rfl

theorem State.Inv.setRdata (h : s.Inv) (v : Word) : (s.setRdata v).Inv :=
  h.same rfl (fun _ => rfl) (fun _ => rfl) rfl rfl (fun b => by simp) rfl rfl

/-- The state after reset has sound storage, for sound parameters (R42). -/
theorem Inv_resetState (h : ParamsOk s.cfg) : s.resetState.Inv := by
  refine ⟨h, Memory.wf_of (fun i => ?_) (fun i => ?_) (matOk_matId h) ?_ fun b => ?_, ?_⟩
  · rw [resetState_fr]
    exact card_pos
  · rw [resetState_pr]
    exact polyOk_nil _
  · exact ⟨fun _ hq => absurd hq List.not_mem_nil, Nat.zero_le _, Nat.zero_le _⟩
  · rw [resetState_buf]
    exact ⟨elemsOk_nil, Nat.zero_le _⟩
  · exact ⟨le_rfl, Nat.zero_le _⟩

/-! ## The storage invariant under the shared operations -/

theorem State.Inv.putInverse (h : s.Inv) (rd : PReg) {res : Option Poly} (hq : ∀ q, res = some q → polyOk s.cfg q) :
    (s.putInverse rd res).Inv := by
  cases res with
  | none => exact h.setNoinv true
  | some q => exact (h.setNoinv false).setP (hq q rfl)

theorem State.Inv.setSyndrome (h : s.Inv) {v : Vec} (hv : bufOk s.cfg .sy v) : (s.setSyndrome v).Inv :=
  (h.setBuf hv).setOmega _

/-- The bound of the block size on a syndrome. -/
theorem State.Inv.bufOk_sy (h : s.Inv) {v : Vec} (hl : v.length = s.bsize) (he : elemsOk s.cfg v) :
    bufOk s.cfg .sy v := ⟨he, hl.le.trans h.sizes.2⟩

theorem State.Inv.syndrome (h : s.Inv) : s.syndrome.Inv := by
  have hs := syndromeVec_spec h.params.laws (h.storage.buf .h0).1 (h.storage.buf .h1).1 (h.storage.buf .cw).1 s.bsize
  exact h.setSyndrome (h.bufOk_sy hs.1 hs.2)

/-- A flip at a position of the error vector keeps the storage sound (R205). -/
theorem State.Inv.flipAt (h : s.Inv) {x : Selection} (ha : x.a < s.cfg.card) (hj : x.j < s.ev.length) :
    (s.flipAt x).Inv := by
  have hs := flipSyndrome_spec h.params.laws (h.storage.buf .h0).1 (h.storage.buf .h1).1 (h.storage.buf .sy).1 s.bsize
    x.j ha
  have he := flipError_spec (h.storage.buf .ev).1 ha hj
  refine ((h.setSyndrome (h.bufOk_sy hs.1 hs.2)).setBuf ⟨he.2.1, ?_⟩).setSel x
  exact he.1.le.trans (h.storage.buf .ev).2

/-- One decoder iteration flips the selected pair (R204, R205). -/
theorem iterate_spec (h : s.Inv) (hr : s.bsize ≠ 0) :
    ∃ x, select s.cfg s.h0 s.h1 s.bsize s.sy = some x ∧ s.iterate = s.flipAt x ∧ x.j < 2 * s.bsize ∧
      x.a < s.cfg.card := by
  obtain ⟨x, h1, h2, -, h3, -⟩ := select_spec h.params s.h0 s.h1 hr s.sy
  exact ⟨x, h1, by simp only [State.iterate, h1], h2, h3⟩

theorem State.Inv.iterate (h : s.Inv) (hr : s.bsize ≠ 0) (he : s.ev.length = 2 * s.bsize) :
    s.iterate.Inv ∧ s.iterate.bsize = s.bsize ∧ s.iterate.ev.length = 2 * s.bsize := by
  obtain ⟨x, -, h2, h3, h4⟩ := iterate_spec h hr
  rw [h2]
  have hj : x.j < s.ev.length := by
    rw [he]
    exact h3
  refine ⟨h.flipAt h4 hj, rfl, ?_⟩
  rw [← he]
  exact (flipError_spec (h.storage.buf .ev).1 h4 hj).1

theorem State.Inv.iterateTimes (h : s.Inv) (hr : s.bsize ≠ 0) (he : s.ev.length = 2 * s.bsize) (k : Nat) :
    (State.iterateTimes k s).Inv := by
  induction k generalizing s with
  | zero => exact h
  | succ k ih =>
    obtain ⟨h1, h2, h3⟩ := h.iterate hr he
    exact ih (h1.setIter _) (by rw [setIter_bsize, h2]; exact hr) (by rw [setIter_bsize, h2]; exact h3)

end Sys2Proof.Machine
end

