-- ==== Sys2Proof/Tests/Slice0.lean ====
section
/-! SUPPORT. The model's own tests: ill-formed commands are refused, words written out from the spec's encodings decode to
their commands, one step on the spec's vectors (95_test_vectors.md), and a witness for the hypotheses of each statement. -/

namespace Sys2Proof.Tests

open Sys2Proof.Machine Sys2Proof.Statements

set_option Elab.async false

/-! ## Well-formedness: an immediate of 65536 does not fit imm16 (R82) -/

theorem test_illformed_fli : (Instr.fli 1 65536).wellFormed = false := by decide

theorem test_illformed_fnze : (Instr.fnze 1 65536).wellFormed = false := by decide

theorem test_illformed_psetc : (Instr.psetc 1 1 65536).wellFormed = false := by decide

theorem test_illformed_pgetc : (Instr.pgetc 1 1 65536).wellFormed = false := by decide

theorem test_illformed_pshr : (Instr.pshr 1 1 65536).wellFormed = false := by decide

theorem test_illformed_mget : (Instr.mget 1 65536).wellFormed = false := by decide

theorem test_illformed_qget : (Instr.qget 1 65536).wellFormed = false := by decide

theorem test_illformed_ksetr : (Instr.ksetr 65536).wellFormed = false := by decide

theorem test_illformed_ksetw : (Instr.ksetw 65536).wellFormed = false := by decide

theorem test_illformed_vinit : (Instr.vinit .msg 65536).wellFormed = false := by decide

theorem test_illformed_vsete : (Instr.vsete .h0 1 65536).wellFormed = false := by decide

theorem test_illformed_vgete : (Instr.vgete 1 .sy 65536).wellFormed = false := by decide

theorem test_illformed_p2v : (Instr.p2v .g 1 65536).wellFormed = false := by decide

theorem test_illformed_decodeCw : (Instr.decodeCw 65536).wellFormed = false := by decide

theorem test_wellformed_largest_immediate : (Instr.decodeCw 65535).wellFormed = true := by decide

/-! ## Decoding: words assembled field by field as R81 and R82 print them, opcodes from R85 -/

/-- A format R word (R81). -/
def bitsR (op : BitVec 8) (rd ra rb rc : BitVec 4) : Word := op ++ rd ++ ra ++ rb ++ rc ++ 0#8

/-- A format I word (R82). -/
def bitsI (op : BitVec 8) (rd ra : BitVec 4) (imm : BitVec 16) : Word := op ++ rd ++ ra ++ imm

theorem test_decode_system :
    decode (bitsR 0x00 0 0 0 0) = .ok .nop ∧
    decode (bitsR 0x01 0 0 0 0) = .ok .sreset := by decide +kernel

theorem test_decode_field :
    decode (bitsI 0x10 15 0 65535) = .ok (.fli 15 65535) ∧
    decode (bitsR 0x11 4 3 0 0) = .ok (.fmov 4 3) ∧
    decode (bitsR 0x12 4 1 2 0) = .ok (.fadd 4 1 2) ∧
    decode (bitsR 0x13 3 1 2 0) = .ok (.fsub 3 1 2) ∧
    decode (bitsR 0x14 5 1 2 0) = .ok (.fmul 5 1 2) ∧
    decode (bitsR 0x15 6 5 1 0) = .ok (.fdiv 6 5 1) ∧
    decode (bitsR 0x16 7 1 0 0) = .ok (.finv 7 1) ∧
    decode (bitsR 0x17 0 3 0 0) = .ok (.ftst 3) ∧
    decode (bitsI 0x18 1 0 2) = .ok (.fnze 1 2) ∧
    decode (bitsR 0x19 0 0 0 0) = .ok .fmax ∧
    decode (bitsR 0x1A 0 7 0 0) = .ok (.fget 7) := by decide +kernel

theorem test_decode_poly :
    decode (bitsR 0x20 15 0 0 0) = .ok (.pclr 15) ∧
    decode (bitsR 0x21 2 1 0 0) = .ok (.pmov 2 1) ∧
    decode (bitsI 0x22 1 15 8191) = .ok (.psetc 1 15 8191) ∧
    decode (bitsI 0x23 1 2 3) = .ok (.pgetc 1 2 3) ∧
    decode (bitsR 0x24 0 1 0 0) = .ok (.pdeg 1) ∧
    decode (bitsR 0x25 0 1 0 0) = .ok (.ptst 1) ∧
    decode (bitsR 0x26 3 1 2 0) = .ok (.padd 3 1 2) ∧
    decode (bitsR 0x27 3 1 2 0) = .ok (.psub 3 1 2) ∧
    decode (bitsR 0x28 3 1 2 0) = .ok (.pmul 3 1 2) ∧
    decode (bitsR 0x29 2 1 15 0) = .ok (.pscl 2 1 15) ∧
    decode (bitsR 0x2A 3 1 2 4) = .ok (.pdivrem 3 4 1 2) ∧
    decode (bitsI 0x2B 2 1 5) = .ok (.pshr 2 1 5) := by decide +kernel

theorem test_decode_gcd :
    decode (bitsR 0x30 0 1 2 0) = .ok (.phgcd 1 2) ∧
    decode (bitsR 0x31 3 1 2 0) = .ok (.pfgcd 3 1 2) ∧
    decode (bitsR 0x32 5 1 2 6) = .ok (.mapply 5 6 1 2) ∧
    decode (bitsI 0x33 5 0 3) = .ok (.mget 5 3) ∧
    decode (bitsI 0x34 5 0 1) = .ok (.qget 5 1) ∧
    decode (bitsR 0x35 3 1 2 0) = .ok (.pinv 3 1 2) := by decide +kernel

theorem test_decode_ring :
    decode (bitsI 0x40 0 0 2339) = .ok (.ksetr 2339) ∧
    decode (bitsR 0x41 1 0 0 0) = .ok (.pmodf 1) ∧
    decode (bitsR 0x42 3 2 4 0) = .ok (.rmul 3 2 4) ∧
    decode (bitsR 0x43 3 1 0 0) = .ok (.rinv 3 1) := by decide +kernel

theorem test_decode_vector :
    decode (bitsI 0x50 0 0 37) = .ok (.ksetw 37) ∧
    decode (bitsI 0x51 0 0 7) = .ok (.vinit .msg 7) ∧
    decode (bitsI 0x51 6 0 7) = .ok (.vinit .g 7) ∧
    decode (bitsI 0x52 4 1 6) = .ok (.vsete .h0 1 6) ∧
    decode (bitsI 0x53 1 2 3) = .ok (.vgete 1 .sy 3) ∧
    decode (bitsR 0x54 0 3 0 0) = .ok (.vwt .ev) ∧
    decode (bitsI 0x55 1 4 14) = .ok (.p2v .cw 4 14) ∧
    decode (bitsR 0x56 1 5 0 0) = .ok (.v2p 1 .h1) := by decide +kernel

theorem test_decode_codec :
    decode (bitsR 0x58 0 0 0 0) = .ok .kder ∧
    decode (bitsR 0x59 0 0 0 0) = .ok .encodeMsg ∧
    decode (bitsR 0x5A 0 0 0 0) = .ok .synd ∧
    decode (bitsR 0x5B 0 0 0 0) = .ok .dstep ∧
    decode (bitsI 0x5C 0 0 100) = .ok (.decodeCw 100) := by decide +kernel

/-- The three grounds of R86, with the words of vectors S3 to S12 and V12. -/
theorem test_decode_illegal :
    decode 0x02000000 = .error .unassignedOpcode ∧ decode 0xFFFFFFFF = .error .unassignedOpcode ∧
    decode 0x57000000 = .error .unassignedOpcode ∧ decode 0x00000001 = .error .nonzeroField ∧
    decode 0x01000100 = .error .nonzeroField ∧ decode 0x12312001 = .error .nonzeroField ∧
    decode 0x11210100 = .error .nonzeroField ∧ decode 0x10510003 = .error .nonzeroField ∧
    decode 0x40010007 = .error .nonzeroField ∧ decode 0x54070000 = .error .badBuffer ∧
    decode 0x51700003 = .error .badBuffer := by decide +kernel

/-! ## One step on the vectors of 95_test_vectors.md; the number of the vector stands in the comment -/

/-- After one step that takes the word, `post` holds of the next state. -/
def after (w : Word) (s : State) (post : State → Bool) : Bool :=
  match step (s.setPending [.issue w]) with
  | .next t => post t
  | .fault _ => false
  | .refused _ => false

/-- The step took the error, and ERRCMD is the word. -/
def errored (e : ErrorKind) (w : Word) (t : State) : Bool := t.err == some e && t.errcmd == w

/-- The key of section 2.6: R = 7, W = 3, H0, H1. -/
def key : State := (((State.reset.setR 7).setW 3).setBuf .h0 [1, 0, 2, 0, 0, 3, 0]).setBuf .h1 [1, 2, 0, 0, 1, 0, 0]

/-- The key with G derived (C1). -/
def keyG : State := key.setBuf .g [0, 2, 3, 1, 2, 2, 0]

/-- The key with the syndrome of vector C14 and a zero error vector, as vector C16 begins. -/
def keySy : State := ((key.setBuf .sy [0, 3, 0, 2, 0, 1, 0]).setBuf .ev (List.replicate 14 0)).setOmega 3

/-- The key with the received word of vector C14. -/
def keyCw : State := key.setBuf .cw [2, 0, 3, 3, 0, 0, 1, 3, 0, 3, 2, 0, 0, 2]

/-- After vector G1: M and QSEQ. -/
def gcd1 : State :=
  ((State.reset.setMQ { m00 := [1, 3, 3], m01 := [2, 2], m10 := [0, 2], m11 := [1] } [[2, 2], [0, 2]]).setP 1
    [1, 2, 3, 1, 2, 2]).setP 2 [2, 3, 1, 0, 1]

/-- S1. -/
theorem test_nop :
    after 0x00000000 (State.reset.setF 1 2)
      (fun t => t.fr 1 == 2 && t.err == none && t.cix == 1) = true := by decide +kernel

/-- S2. -/
theorem test_sreset :
    after 0x01000000 (key.setF 1 2)
      (fun t => t.fr 1 == 0 && t.h0 == [] && t.r == 0 && t.cix == 0) = true := by decide +kernel

/-- F4. -/
theorem test_fli :
    after 0x10500003 State.reset
      (fun t => t.fr 5 == 3 && t.err == none) = true := by decide +kernel

/-- F5. -/
theorem test_fli_range :
    after 0x10500004 State.reset
      (fun t => errored .incorrectValueRange 0x10500004 t && t.fr 5 == 0) = true := by decide +kernel

/-- F7. -/
theorem test_fmov :
    after 0x11210000 (State.reset.setF 1 3)
      (fun t => t.fr 2 == 3) = true := by decide +kernel

/-- F2. -/
theorem test_fadd :
    after 0x12312000 ((State.reset.setF 1 2).setF 2 3)
      (fun t => t.fr 3 == 1) = true := by decide +kernel

/-- F8. -/
theorem test_fadd_same_register :
    after 0x12111000 (State.reset.setF 1 3)
      (fun t => t.fr 1 == 0) = true := by decide +kernel

/-- F9. -/
theorem test_fsub :
    after 0x13312000 ((State.reset.setF 1 3).setF 2 1)
      (fun t => t.fr 3 == 2) = true := by decide +kernel

/-- F1. -/
theorem test_fmul :
    after 0x14312000 ((State.reset.setF 1 2).setF 2 3)
      (fun t => t.fr 3 == 1) = true := by decide +kernel

/-- F10. -/
theorem test_fmul_square :
    after 0x14211000 (State.reset.setF 1 3)
      (fun t => t.fr 2 == 2) = true := by decide +kernel

/-- F3. -/
theorem test_fdiv :
    after 0x15312000 ((State.reset.setF 1 1).setF 2 2)
      (fun t => t.fr 3 == 3) = true := by decide +kernel

/-- F14. -/
theorem test_fdiv_by_zero :
    after 0x15210000 (State.reset.setF 1 3)
      (fun t => errored .divisionByZero 0x15210000 t && t.fr 2 == 0) = true := by decide +kernel

/-- F15. -/
theorem test_finv :
    after 0x16210000 (State.reset.setF 1 2)
      (fun t => t.fr 2 == 3) = true := by decide +kernel

/-- F18. -/
theorem test_finv_of_zero :
    after 0x16200000 State.reset
      (fun t => errored .divisionByZero 0x16200000 t) = true := by decide +kernel

/-- F20. -/
theorem test_ftst :
    after 0x17010000 (State.reset.setF 1 1)
      (fun t => t.status == 0x020) = true := by decide +kernel

/-- F21. -/
theorem test_ftst_rewrites_both :
    after 0x17010000 ((State.reset.setF 1 2).setZO true false)
      (fun t => t.status == 0x000) = true := by decide +kernel

/-- F24. -/
theorem test_fnze :
    after 0x18100002 State.reset
      (fun t => t.fr 1 == 3) = true := by decide +kernel

/-- F25. -/
theorem test_fnze_beyond :
    after 0x18100003 State.reset
      (fun t => errored .illegalOperand 0x18100003 t) = true := by decide +kernel

/-- F26. -/
theorem test_fmax :
    after 0x19000000 State.reset
      (fun t => t.dout == 3) = true := by decide +kernel

/-- F27. -/
theorem test_fget :
    after 0x1A070000 (State.reset.setF 7 3)
      (fun t => t.dout == 3) = true := by decide +kernel

/-- P1. -/
theorem test_pclr :
    after 0x20100000 (State.reset.setP 1 [1, 2])
      (fun t => t.pr 1 == []) = true := by decide +kernel

/-- P2. -/
theorem test_pmov :
    after 0x21210000 (State.reset.setP 1 [1, 2])
      (fun t => t.pr 2 == [1, 2]) = true := by decide +kernel

/-- P3. -/
theorem test_psetc :
    after 0x22110002 (State.reset.setF 1 3)
      (fun t => t.pr 1 == [0, 0, 3]) = true := by decide +kernel

/-- P4. -/
theorem test_psetc_canonical :
    after 0x22100002 (State.reset.setP 1 [1, 0, 3])
      (fun t => t.pr 1 == [1]) = true := by decide +kernel

/-- P8. -/
theorem test_pgetc :
    after 0x23110001 (State.reset.setP 1 [1, 2, 3])
      (fun t => t.fr 1 == 2) = true := by decide +kernel

/-- P9. -/
theorem test_pgetc_above :
    after 0x23110003 ((State.reset.setP 1 [1, 2, 3]).setF 1 1)
      (fun t => t.fr 1 == 0) = true := by decide +kernel

/-- P13. -/
theorem test_pdeg :
    after 0x24010000 (State.reset.setP 1 [0, 2, 0, 0, 2])
      (fun t => t.dout == 4) = true := by decide +kernel

/-- P11. -/
theorem test_pdeg_zero :
    after 0x24010000 (State.reset.setDout 3)
      (fun t => t.dout == 0) = true := by decide +kernel

/-- P15. -/
theorem test_ptst :
    after 0x25010000 (State.reset.setP 1 [1])
      (fun t => t.status == 0x020) = true := by decide +kernel

/-- P16. -/
theorem test_ptst_constant :
    after 0x25010000 ((State.reset.setP 1 [2]).setZO true false)
      (fun t => t.status == 0x000) = true := by decide +kernel

/-- P18. -/
theorem test_padd :
    after 0x26312000 ((State.reset.setP 1 [1, 2, 3]).setP 2 [0, 2, 3])
      (fun t => t.pr 3 == [1]) = true := by decide +kernel

/-- P20. -/
theorem test_psub :
    after 0x27312000 ((State.reset.setP 1 [1, 2]).setP 2 [0, 0, 3])
      (fun t => t.pr 3 == [1, 2, 3]) = true := by decide +kernel

/-- P21. -/
theorem test_pmul :
    after 0x28312000 ((State.reset.setP 1 [1, 1, 1]).setP 2 [0, 1, 1, 0, 1, 1, 0, 1])
      (fun t => t.pr 3 == [0, 1, 0, 0, 0, 0, 0, 0, 1, 1]) = true := by decide +kernel

/-- P23. -/
theorem test_pmul_same_register :
    after 0x28111000 (State.reset.setP 1 [1, 2])
      (fun t => t.pr 1 == [1, 0, 3]) = true := by decide +kernel

/-- P26. -/
theorem test_pscl :
    after 0x29211000 ((State.reset.setP 1 [1, 2, 3]).setF 1 2)
      (fun t => t.pr 2 == [2, 3, 1]) = true := by decide +kernel

/-- P33. -/
theorem test_pdivrem_aliased :
    after 0x2A112200 ((State.reset.setP 1 [1, 0, 0, 0, 0, 0, 0, 0, 1]).setP 2 [1, 1, 1])
      (fun t => t.pr 1 == [1, 0, 1, 1, 0, 1, 1] && t.pr 2 == [0, 1]) = true := by decide +kernel

/-- P34. -/
theorem test_pdivrem_remainder_stays :
    after 0x2A312300 ((State.reset.setP 1 [1, 0, 0, 0, 0, 0, 0, 0, 1]).setP 2 [1, 1, 1])
      (fun t => t.pr 3 == [0, 1]) = true := by decide +kernel

/-- P36. -/
theorem test_pshr :
    after 0x2B210003 (State.reset.setP 1 [1, 2, 3, 0, 1])
      (fun t => t.pr 2 == [0, 1]) = true := by decide +kernel

/-- P38. -/
theorem test_pshr_beyond :
    after 0x2B210005 ((State.reset.setP 1 [1, 2, 3, 0, 1]).setP 2 [1])
      (fun t => t.pr 2 == []) = true := by decide +kernel

/-- G1. -/
theorem test_phgcd :
    after 0x30012000 ((State.reset.setP 1 [1, 2, 3, 1, 2, 2]).setP 2 [2, 3, 1, 0, 1])
      (fun t => t.m == gcd1.m && t.qseq == gcd1.qseq) = true := by decide +kernel

/-- G8. -/
theorem test_phgcd_degrees :
    after 0x30012000 ((State.reset.setP 1 [1, 1]).setP 2 [1, 1, 1])
      (fun t => errored .illegalOperand 0x30012000 t) = true := by decide +kernel

/-- G10. -/
theorem test_pfgcd :
    after 0x31312000 ((State.reset.setP 1 [1, 0, 0, 0, 0, 0, 0, 0, 1]).setP 2 [0, 2, 0, 0, 2])
      (fun t => t.pr 3 == [2, 2] && t.m == Mat.mk [2, 0, 2] [1, 1, 0, 1, 1, 0, 1] [0, 1, 1, 1]
        [3, 3, 3, 3, 3, 3, 3, 3] && t.qseq == [[0, 3, 0, 0, 3], [2, 0, 2], [3, 3]]) = true := by decide +kernel

/-- G13. -/
theorem test_pfgcd_zero_first :
    after 0x31302000 ((State.reset.setP 2 [3]).setP 3 [1, 1])
      (fun t => t.pr 3 == [3] && t.qseq == [[]]) = true := by decide +kernel

/-- G2. -/
theorem test_mapply :
    after 0x32312400 gcd1
      (fun t => t.pr 3 == [2, 0, 0, 3] && t.pr 4 == [2, 0, 1]) = true := by decide +kernel

/-- G17. -/
theorem test_mget :
    after 0x33500000 gcd1
      (fun t => t.pr 5 == [1, 3, 3]) = true := by decide +kernel

/-- G19. -/
theorem test_mget_beyond :
    after 0x33500004 State.reset
      (fun t => errored .illegalOperand 0x33500004 t) = true := by decide +kernel

/-- G20. -/
theorem test_qget :
    after 0x34500001 gcd1
      (fun t => t.pr 5 == [0, 2]) = true := by decide +kernel

/-- G21. -/
theorem test_qget_beyond :
    after 0x34500002 gcd1
      (fun t => errored .illegalOperand 0x34500002 t) = true := by decide +kernel

/-- G26. -/
theorem test_pinv :
    after 0x35312000 (((State.reset.setP 1 [1, 1, 1]).setP 2 [1, 0, 0, 0, 0, 0, 0, 0, 1]).setNoinv true)
      (fun t => t.pr 3 == [0, 1, 1, 0, 1, 1, 0, 1] && t.status == 0) = true := by decide +kernel

/-- G24. -/
theorem test_pinv_none :
    after 0x35312000 (((State.reset.setP 1 [0, 2, 0, 0, 2]).setP 2 [1, 0, 0, 0, 0, 0, 0, 0, 1]).setP 3 [1])
      (fun t => t.status == 0x040 && t.pr 3 == [1]) = true := by decide +kernel

/-- Q2. -/
theorem test_ksetr :
    after 0x40001000 State.reset
      (fun t => t.r == 4096 && t.err == none) = true := by decide +kernel

/-- Q5. -/
theorem test_ksetr_weight :
    after 0x40000002 key
      (fun t => errored .impossibleHammingWeight 0x40000002 t && t.r == 7) = true := by decide +kernel

/-- Q7. -/
theorem test_pmodf :
    after 0x41100000 (State.reset.setR 8)
      (fun t => t.pr 1 == [1, 0, 0, 0, 0, 0, 0, 0, 1]) = true := by decide +kernel

/-- Q12. -/
theorem test_rmul :
    after 0x42312000 (((State.reset.setP 1 [0, 0, 0, 0, 0, 0, 2]).setP 2 [0, 3]).setR 7)
      (fun t => t.pr 3 == [1]) = true := by decide +kernel

/-- Q19. -/
theorem test_rinv :
    after 0x43310000 ((State.reset.setP 1 [1, 2, 0, 0, 1]).setR 7)
      (fun t => t.pr 3 == [2, 2, 3, 2, 1, 0, 3]) = true := by decide +kernel

/-- Q18. -/
theorem test_rinv_none :
    after 0x43310000 ((State.reset.setP 1 [1, 1]).setR 1)
      (fun t => t.status == 0x040 && t.pr 3 == []) = true := by decide +kernel

/-- V2. -/
theorem test_ksetw :
    after 0x50000007 (State.reset.setR 7)
      (fun t => t.w == 7) = true := by decide +kernel

/-- V3. -/
theorem test_ksetw_above :
    after 0x50000008 (State.reset.setR 7)
      (fun t => errored .impossibleHammingWeight 0x50000008 t) = true := by decide +kernel

/-- V7. -/
theorem test_vinit :
    after 0x51000002 (State.reset.setBuf .msg [1, 2, 3])
      (fun t => t.msg == [0, 0]) = true := by decide +kernel

/-- V10. -/
theorem test_vinit_capacity :
    after 0x51102001 State.reset
      (fun t => errored .capacityExceeded 0x51102001 t && t.cw == []) = true := by decide +kernel

/-- V13. -/
theorem test_vsete :
    after 0x52410006 ((State.reset.setF 1 2).setBuf .h0 [0, 0, 0, 0, 0, 0, 0])
      (fun t => t.h0 == [0, 0, 0, 0, 0, 0, 2]) = true := by decide +kernel

/-- V14. -/
theorem test_vsete_beyond :
    after 0x52410007 ((State.reset.setF 1 2).setBuf .h0 [0, 0, 0, 0, 0, 0, 0])
      (fun t => errored .illegalOperand 0x52410007 t) = true := by decide +kernel

/-- V16. -/
theorem test_vgete :
    after 0x53120003 (State.reset.setBuf .sy [0, 3, 0, 2])
      (fun t => t.fr 1 == 2) = true := by decide +kernel

/-- V17. -/
theorem test_vgete_beyond :
    after 0x53120004 (State.reset.setBuf .sy [0, 3, 0, 2])
      (fun t => errored .illegalOperand 0x53120004 t) = true := by decide +kernel

/-- V18. -/
theorem test_vwt :
    after 0x54020000 (State.reset.setBuf .sy [0, 3, 0, 2, 0, 1, 0])
      (fun t => t.dout == 3) = true := by decide +kernel

/-- V20. -/
theorem test_p2v :
    after 0x55610007 (State.reset.setP 1 [1, 2])
      (fun t => t.g == [1, 2, 0, 0, 0, 0, 0]) = true := by decide +kernel

/-- V25. -/
theorem test_p2v_capacity_first :
    after 0x55611001 (State.reset.setP 1 [1, 2, 3])
      (fun t => errored .capacityExceeded 0x55611001 t) = true := by decide +kernel

/-- V26. -/
theorem test_v2p :
    after 0x56150000 key
      (fun t => t.pr 1 == [1, 2, 0, 0, 1]) = true := by decide +kernel

/-- C1. -/
theorem test_kder :
    after 0x58000000 key
      (fun t => t.g == keyG.g && t.krej == false) = true := by decide +kernel

/-- C5. -/
theorem test_kder_reject :
    after 0x58000000 (key.setBuf .h1 [1, 1, 0, 1, 0, 0, 0])
      (fun t => t.status == 0x100 && t.g == []) = true := by decide +kernel

/-- C9. -/
theorem test_encode :
    after 0x59000000 (keyG.setBuf .msg [2, 0, 3, 1, 0, 0, 1])
      (fun t => t.cw == [2, 0, 3, 1, 0, 0, 1, 3, 0, 3, 2, 0, 0, 2]) = true := by decide +kernel

/-- C14. -/
theorem test_synd :
    after 0x5A000000 keyCw
      (fun t => t.sy == [0, 3, 0, 2, 0, 1, 0] && t.omega == 3) = true := by decide +kernel

/-- C16. -/
theorem test_dstep :
    after 0x5B000000 keySy
      (fun t => t.sy == List.replicate 7 0 && t.ev == [0, 0, 0, 2, 0, 0, 0, 0, 0, 0, 0, 0, 0, 0] && t.omega == 0 &&
        t.jstar == 3 && t.astar == 2 && t.sigma == 3) = true := by decide +kernel

/-- C17. -/
theorem test_dstep_on_zero_syndrome :
    after 0x5B000000 ((keySy.setBuf .sy (List.replicate 7 0)).setOmega 0)
      (fun t => t.sy == [0, 0, 3, 0, 0, 1, 3] && t.jstar == 13 && t.astar == 3 && t.sigma == 0xFFFFFFFD) = true := by decide +kernel

/-- C22. -/
theorem test_decode_three_steps :
    after 0x5C000003 keyCw
      (fun t => t.ev == [0, 0, 0, 2, 0, 0, 0, 0, 0, 0, 0, 0, 0, 0] && t.iter == 3 && t.jstar == 13 && t.dfail == false) = true := by decide +kernel

/-- C23. -/
theorem test_decode_no_step :
    after 0x5C000000 keyCw
      (fun t => t.status == 0x080 && t.omega == 3 && t.iter == 0) = true := by decide +kernel

/-- S7: an illegal word. -/
theorem test_illegal_word :
    after 0x12312001 ((State.reset.setF 1 2).setF 2 3) (fun t => errored .illegalCommand 0x12312001 t && t.fr 3 == 0) =
      true := by decide +kernel

/-- R242: halted after vector F14, a word is counted and ignored, and SRESET is obeyed. -/
theorem test_halted :
    after 0x10500003 (State.reset.raise .divisionByZero 0x15210000)
        (fun t => errored .divisionByZero 0x15210000 t && t.fr 5 == 0 && t.cix == 1) = true ∧
    after 0x01000000 (State.reset.raise .divisionByZero 0x15210000) (fun t => t.err == none && t.cix == 0) = true := by
  decide +kernel

/-- R12 of section 2.8: ReadCSR of STATUS while halted; R4: CFG_LMAX; R6: LEN[G] at reset; R11: an unassigned number. -/
theorem test_read_csr :
    readCsr (State.reset.raise .divisionByZero 0x15210000) 0x00 = 1 ∧ readCsr State.reset 0x12 = 8192 ∧
    readCsr State.reset 0x26 = 0 ∧ readCsr keyG 0x26 = 7 ∧ readCsr keyG 0xFF = 0 := by decide +kernel

/-- The word placed by `withFetchWord` is the one the next step runs. -/
theorem test_fetch_word :
    (match step (State.reset.withFetchWord 32 0x10500003) with
      | .next t => t.fr 5 == 3
      | .fault _ => false
      | .refused _ => false) = true := by decide +kernel

/-! ## Witnesses: states and operands that meet the hypotheses of each statement of Obligations.lean, clause by clause -/

/-- GF(4), RMAX 2, LMAX 4, with registers f0 … f3 = 0 … 3 and p0 = 0, p1 = 1, p2 = x, p3 = x², p4 = 1 + x², p5 = 2. -/
def tiny : State :=
  ((((((((State.resetWith (gf4With 2)).setF 1 1).setF 2 2).setF 3 3).setP 1 [1]).setP 2 [0, 1]).setP 3
    [0, 0, 1]).setP 4 [1, 0, 1]).setP 5 [2]

theorem witness_inv_reset : State.reset.Inv := ⟨paramsOk_gf4, by decide +kernel, by decide +kernel⟩

theorem witness_inv_tiny : tiny.Inv :=
  ⟨paramsOk_gf4With (by decide) (by decide), by decide +kernel, by decide +kernel⟩

theorem witness_inv_key : key.Inv := ⟨paramsOk_gf4, by decide +kernel, by decide +kernel⟩

theorem witness_inv_keySy : keySy.Inv := ⟨paramsOk_gf4, by decide +kernel, by decide +kernel⟩

theorem witness_inv_gcd1 : gcd1.Inv := ⟨paramsOk_gf4, by decide +kernel, by decide +kernel⟩

/-- The halted state after vector F14. -/
def stopped : State := State.reset.raise .divisionByZero 0x15210000

/-- DecodeOfEncodeIsTheCommand: the largest immediate, every operand field in use. -/
theorem witness_decode_of_encode : (Instr.vsete .g 15 65535).wellFormed = true ∧
    (Instr.pdivrem 15 15 15 15).wellFormed = true := by decide

/-- EncodeOfDecodeIsTheWord. -/
theorem witness_encode_of_decode : decode 0x526FFFFF = .ok (.vsete .g 15 65535) := by decide +kernel

/-- OpcodeMapDecidesEveryWord: a row that accepts its word, with a buffer field at its last value. -/
theorem witness_opcode_map : ∃ row ∈ opcodeMap, row.mnemonic = "VWT" ∧ row.accepts 0x54060000 :=
  ⟨⟨"VWT", 0xFFF0FFFF, 0x54000000, some 16⟩, by simp [opcodeMap], rfl, by decide, fun lo h => by
    injection h with h
    subst h
    decide⟩

/-- No row accepts an unassigned opcode, nor buffer 7. -/
theorem witness_illegal_words : (∀ row ∈ opcodeMap, ¬ row.accepts 0x57000000) ∧
    ∀ row ∈ opcodeMap, ¬ row.accepts 0x51700003 := by
  have h1 : ∀ row ∈ opcodeMap, ¬ ((0x57000000 : Word) &&& row.mask = row.pattern) := by decide +kernel
  have h2 : ∀ row ∈ opcodeMap, (0x51700003 : Word) &&& row.mask = row.pattern → row.bufLow = some 20 := by
    decide +kernel
  refine ⟨fun row hr h => h1 row hr h.1, fun row hr h => ?_⟩
  exact absurd (h.2 20 (h2 row hr h.1)) (by decide)

/-- SoftAndHardResetGiveTheResetState, StepRunsTheDecodedCommand, IllegalWordRaisesIllegalCommand,
EveryAcceptedWordIsCounted, ErrorsArePrecise: a pending word in a running engine. -/
theorem witness_pending_word :
    (key.setPending [.reset]).pending = .reset :: [] ∧
    (stopped.setPending [.issue 0x01000000]).pending = .issue 0x01000000 :: [] ∧
    (key.setPending [.issue 0x58000000]).pending = .issue 0x58000000 :: [] ∧ (key.setPending [.issue 0]).err = none ∧
    decode 0x58000000 = .ok .kder ∧ (State.reset.setPending [.issue 0x57000000]).err = none := by decide +kernel

/-- HaltedEngineIgnoresEveryOtherWord: halted, with a command and with an illegal word next to SRESET's. -/
theorem witness_halted : stopped.err ≠ none ∧ (0x00000000 : Word) ≠ 0x01000000 ∧ (0x01000001 : Word) ≠ 0x01000000 ∧
    (stopped.setPending [.issue 0x01000001]).pending = .issue 0x01000001 :: [] := by decide

/-- HaltedStateIsLeftOnlyByReset: a halted state that steps, with SRESET and with another word. -/
theorem witness_halted_steps :
    stopped.err ≠ none ∧ step (stopped.setPending [.issue 0x01000000]) = .next stopped.tick.resetState ∧
    step (stopped.setPending [.issue 0]) = .next ((stopped.setPending [.issue 0]).setPending []).tick :=
  ⟨by decide, rfl, rfl⟩

/-- ReadCsrHasNoSideEffect, CsrMapReadsAsListed: a pending read, the first and the last unassigned number. -/
theorem witness_read_csr : (key.setPending [.readCsr 0x0B]).pending = .readCsr 0x0B :: [] ∧ key.Inv ∧
    (0x0A < 0x0B ∧ 0x0B ∉ [0x10, 0x11, 0x12, 0x13, 0x20, 0x21, 0x22, 0x23, 0x24, 0x25, 0x26]) ∧
    0x0A < 0xFF ∧ 0xFF ∉ [0x10, 0x11, 0x12, 0x13, 0x20, 0x21, 0x22, 0x23, 0x24, 0x25, 0x26] :=
  ⟨rfl, witness_inv_key, by decide, by decide⟩

/-- EveryAcceptedWordIsCounted, ErrorsArePrecise, ParametersNeverChange and the three invariants: a step that raises. -/
theorem witness_step_raises : (State.reset.setPending [.issue 0x40000000]).err = none ∧
    (∃ t, step (State.reset.setPending [.issue 0x40000000]) = .next t ∧ t.err ≠ none) ∧
    (State.reset.setPending [.issue 0x40000000]).Inv ∧ (State.reset.setPending [.issue 0x40000000]).detOk ∧
    sizesOk (State.reset.setPending [.issue 0x40000000]) :=
  ⟨rfl, ⟨_, rfl, by decide +kernel⟩, witness_inv_reset.setPending _,
    show matDet Params.gf4 matId = [1] by decide +kernel, by decide +kernel⟩

/-- RaiseRecordsTheCodeAndTheWord: the first and the last row of the table. -/
theorem witness_codes : (ErrorKind.divisionByZero, 1) ∈ [(ErrorKind.divisionByZero, 1), (.illegalOperand, 8)] ∧
    (ErrorKind.illegalOperand, 8) ∈ [(ErrorKind.divisionByZero, 1), (.illegalOperand, 8)] := by decide

/-- CommandsWriteOnlyWhatTheTablesSay. -/
theorem witness_writes : Instr.fmax ≠ .sreset ∧ State.reset.err = none ∧
    ∃ t, exec .fmax State.reset = .next t ∧ t.err = none := ⟨by decide, rfl, _, rfl, rfl⟩

/-- NopChangesNothing: a word with opcode 0x00 that is not zero. -/
theorem witness_nop : opField 0x00000001 = 0 ∧ (0x00000001 : Word) ≠ 0 := by decide

/-- The immediate of format I at its largest value, for every FormatI. -/
theorem witness_format : 65535 < 2 ^ 16 := by decide

/-- FliLoadsAnElement, FnzeEnumeratesTheNonZeroElements: the last value accepted and the first refused. -/
theorem witness_field_immediates : (3 < 2 ^ State.reset.cfg.n ∧ 2 ^ State.reset.cfg.n ≤ 4) ∧ State.reset.Inv ∧
    (2 < 2 ^ State.reset.cfg.n - 1 ∧ 2 ^ State.reset.cfg.n - 1 ≤ 3) ∧
    State.reset.cfg.nz = (List.range (2 ^ State.reset.cfg.n - 1)).map (· + 1) :=
  ⟨by decide, witness_inv_reset, by decide, by decide⟩

/-- FmulIsTheFieldProduct, FdivIsTheFieldQuotient, FinvIsTheMultiplicativeInverse, FieldTestAndReadOut: elements 0, 1
and others, with the concrete parameters. -/
theorem witness_field_operands : gcd1.Inv ∧ gcd1.cfg = Params.gf4 ∧ gcd1.fr 0 = 0 ∧ tiny.Inv ∧ tiny.fr 0 = 0 ∧
    tiny.fr 1 = 1 ∧ tiny.fr 2 ≠ 0 ∧ ((key.setF 1 1).cfg = Params.gf4 ∧ (key.setF 1 1).fr 1 = 1) :=
  ⟨witness_inv_gcd1, rfl, rfl, witness_inv_tiny, by decide +kernel⟩

/-- PsetcSetsOneCoefficient: index LMAX − 1 and LMAX. -/
theorem witness_psetc : 8191 < State.reset.cfg.lmax ∧ State.reset.cfg.lmax ≤ 8192 := by decide

/-- PolyReadDegreeTest, PshrDropsLowCoefficients: the index just above the degree, the zero polynomial and another. -/
theorem witness_poly_operands : tiny.Inv ∧ (tiny.pr 3).length ≤ 3 ∧ tiny.pr 0 = [] ∧ tiny.pr 3 ≠ [] :=
  ⟨witness_inv_tiny, by decide +kernel⟩

/-- PmulIsThePolynomialProduct: a zero factor, a degree sum of LMAX − 1, and of LMAX. -/
theorem witness_pmul : tiny.Inv ∧ tiny.pr 0 = [] ∧ tiny.pr 2 ≠ [] ∧ tiny.pr 3 ≠ [] ∧
    deg (tiny.pr 3) + deg (tiny.pr 2) < tiny.cfg.lmax ∧ tiny.cfg.lmax ≤ deg (tiny.pr 3) + deg (tiny.pr 3) :=
  ⟨witness_inv_tiny, by decide +kernel⟩

/-- PsclScalesEveryCoefficient, PdivremIsEuclideanDivision: a zero and another scalar, a zero and another divisor. -/
theorem witness_pscl_pdivrem : tiny.Inv ∧ tiny.fr 0 = 0 ∧ tiny.fr 3 ≠ 0 ∧ tiny.pr 0 = [] ∧ tiny.pr 4 ≠ [] :=
  ⟨witness_inv_tiny, by decide +kernel⟩

/-- PhgcdIsTheMinimalEuclideanPrefix, PfgcdIsTheFullExtendedGcd: degrees equal, and smaller first. -/
theorem witness_gcd_operands : tiny.Inv ∧ deg (tiny.pr 3) ≤ deg (tiny.pr 4) ∧ deg (tiny.pr 2) < deg (tiny.pr 3) :=
  ⟨witness_inv_tiny, by decide +kernel⟩

/-- MapplyAppliesTheAdjugate: with m11 = x² and M else the identity, A = x² has a component of degree LMAX, and A = x
one of degree LMAX − 1. -/
theorem witness_mapply :
    let s := tiny.setMQ (Mat.mk [1] [] [] [0, 0, 1]) []
    let x := fun a b => polyAdd (polyMul s.cfg s.m.m11 (s.pr a)) (polyMul s.cfg s.m.m01 (s.pr b))
    let y := fun a b => polyAdd (polyMul s.cfg s.m.m10 (s.pr a)) (polyMul s.cfg s.m.m00 (s.pr b))
    (x 3 0 ≠ [] ∧ s.cfg.lmax ≤ deg (x 3 0)) ∧ deg (x 2 0) < s.cfg.lmax ∧ y 2 0 = [] := by decide +kernel

/-- MatrixAndQuotientReads: entry 3 and 4, the last quotient and the one after. -/
theorem witness_matrix_reads : (3 ≤ 3 ∧ 3 < 4) ∧ 1 < gcd1.qseq.length ∧ gcd1.qseq.length ≤ 2 := by decide

/-- PinvIsTheModularInverse: with the modulus 1 + x², the operand x coprime to it, and the zero operand. -/
theorem witness_pinv : tiny.Inv ∧ tiny.pr 0 = [] ∧ tiny.pr 4 ≠ [] ∧
    (∃ b g qs, b = (divRem tiny.cfg (tiny.pr 2) (tiny.pr 4)).2 ∧ EuclidSteps tiny.cfg (tiny.pr 4) b qs g [] ∧
      b ≠ [] ∧ deg g = 0) ∧
    ∃ b g qs, b = (divRem tiny.cfg (tiny.pr 0) (tiny.pr 4)).2 ∧ EuclidSteps tiny.cfg (tiny.pr 4) b qs g [] ∧ b = [] :=
  ⟨witness_inv_tiny, by decide +kernel, by decide +kernel,
    ⟨_, _, _, rfl, euclid_steps witness_inv_tiny.params (by unfold pairOk; decide +kernel), by decide +kernel⟩,
    ⟨_, _, _, rfl, euclid_steps witness_inv_tiny.params (by unfold pairOk; decide +kernel), by decide +kernel⟩⟩

/-- PinvIsTheModularInverse, RinvIsTheRingInverse: a gcd of positive degree, 1 + x modulo 1 + x². -/
theorem witness_no_inverse :
    let s := (tiny.setP 6 [1, 1]).setR 2
    s.r ≠ 0 ∧ s.pr 4 = ringModulus s.r.toNat ∧
    ∃ b g qs, b = (divRem s.cfg (s.pr 6) (s.pr 4)).2 ∧ EuclidSteps s.cfg (s.pr 4) b qs g [] ∧ 0 < deg g :=
  ⟨by decide, by decide +kernel, _, _, _, rfl,
    euclid_steps (P := gf4With 2) (paramsOk_gf4With (by decide) (by decide)) (by unfold pairOk; decide +kernel),
    by decide +kernel⟩

/-- BlockSizeAndWeightAreSet: below, at and above each bound, in a state with W = 3. -/
theorem witness_sizes : (0 : Nat) < 2 ^ 16 ∧ key.cfg.rmax < 4097 ∧ 4096 ≤ key.cfg.rmax ∧ 2 < key.w.toNat ∧
    key.w.toNat ≤ 3 ∧ key.r.toNat < 8 ∧ 7 ≤ key.r.toNat := by decide +kernel

/-- PmodfWritesTheRingModulus, RmulFoldsTheProduct, RinvIsTheRingInverse: no block size, and one. -/
theorem witness_ring : State.reset.Inv ∧ State.reset.r = 0 ∧ key.Inv ∧ key.r ≠ 0 :=
  ⟨witness_inv_reset, rfl, witness_inv_key, by decide⟩

/-- ZeroCoefficientSumHasNoRingInverse: 1 + x + 3 x² + 3 x³ at R = 7. -/
theorem witness_zero_sum : (key.setP 1 [1, 1, 3, 3]).Inv ∧ (key.setP 1 [1, 1, 3, 3]).r ≠ 0 ∧
    fsum ((key.setP 1 [1, 1, 3, 3]).pr 1) = 0 :=
  ⟨witness_inv_key.setP ⟨by decide, by decide, by decide⟩, by decide +kernel⟩

/-- BufferInitAndElementWrite, BufferElementReadAndWeight: a length at capacity and above, the last index and the one
after. -/
theorem witness_buffers : key.Inv ∧ 8192 ≤ bufCap key.cfg .cw ∧ bufCap key.cfg .cw < 8193 ∧ 6 < (key.buf .h0).length ∧
    (key.buf .h0).length ≤ 7 := ⟨witness_inv_key, by decide +kernel⟩

/-- PolynomialVectorConversions: above capacity, too short, an exact fit. -/
theorem witness_p2v : bufCap tiny.cfg .g < 3 ∧ (2 ≤ bufCap tiny.cfg .g ∧ 2 < (tiny.pr 3).length) ∧
    2 ≤ bufCap tiny.cfg .g ∧ (tiny.pr 2).length ≤ 2 := by decide +kernel

/-- ConversionsAreInverse: the four commands answer without an error. -/
theorem witness_conversions : key.Inv ∧ key.err = none ∧
    (∃ t u, exec (.v2p 1 .h1) key = .next t ∧ exec (.p2v .h1 1 (key.buf .h1).length) t = .next u) ∧
    ∃ t u, exec (.p2v .g 1 7) key = .next t ∧ t.err = none ∧ exec (.v2p 2 .g) t = .next u :=
  ⟨witness_inv_key, rfl, ⟨_, _, rfl, rfl⟩, _, _, rfl, rfl, rfl⟩

/-- KderDerivesThePublicRow: no block size; a wrong length; an invertible h1 (C1); one that is not (C2). -/
theorem witness_kder : State.reset.r = 0 ∧ (key.r ≠ 0 ∧ (key.setBuf .h1 []).h1.length ≠ key.bsize) ∧ key.Inv ∧
    key.h0.length = key.bsize ∧ key.h1.length = key.bsize ∧
    (∃ q, IsInverse key.cfg (polyOfVec key.h1) (ringModulus key.bsize) q) ∧
    ¬ ∃ q, IsInverse key.cfg (polyOfVec [2, 3, 0, 0, 1, 0, 0]) (ringModulus key.bsize) q :=
  ⟨rfl, by decide +kernel, witness_inv_key, by decide +kernel, by decide +kernel,
    ⟨[2, 2, 3, 2, 1, 0, 3], by unfold IsInverse; decide +kernel⟩,
    no_inverse_of_fsum paramsOk_gf4 (by decide +kernel) (by decide +kernel) (by decide +kernel)⟩

/-- EncodeWritesTheSystematicCodeword: a wrong length, and right ones. -/
theorem witness_encode : keyG.r ≠ 0 ∧ keyG.msg.length ≠ keyG.bsize ∧ keyG.g.length = keyG.bsize ∧
    (keyG.setBuf .msg [2, 0, 3, 1, 0, 0, 1]).msg.length = keyG.bsize := by decide +kernel

/-- SyndComputesTheSyndrome, DecodeIsSyndThenExactlyKSteps: wrong lengths, right ones with a non-zero and with a zero
syndrome, K at both ends. -/
theorem witness_synd : (key.r ≠ 0 ∧ ¬ SyndReady key) ∧ SyndReady keyCw ∧ keyCw.syndrome.omega ≠ 0 ∧
    SyndReady (key.setBuf .cw (List.replicate 14 0)) ∧
    (key.setBuf .cw (List.replicate 14 0)).syndrome.omega = 0 ∧ 0 < 2 ^ 16 ∧ 65535 < 2 ^ 16 := by decide +kernel

/-- DstepFlipsTheSelectedPosition, DstepSelectsTheLastScannedMaximum. -/
theorem witness_dstep : (key.r ≠ 0 ∧ ¬ DstepReady key) ∧ keySy.Inv ∧ DstepReady keySy ∧
    ∃ t, exec .dstep keySy = .next t ∧ 13 < 2 * keySy.bsize ∧ 3 ∈ keySy.cfg.nz :=
  ⟨by decide +kernel, witness_inv_keySy, by decide +kernel, _, rfl, by decide +kernel⟩

/-- EncodedMessagesHaveZeroSyndrome: the key of section 2.6 and the message of vector C9. -/
theorem witness_encoded_messages :
    let s := key.setBuf .msg [2, 0, 3, 1, 0, 0, 1]
    s.Inv ∧ s.err = none ∧ s.r ≠ 0 ∧ s.msg.length = s.bsize ∧
    ∃ s1 s2, exec .kder s = .next s1 ∧ s1.err = none ∧ s1.krej = false ∧ exec .encodeMsg s1 = .next s2 := by
  refine ⟨witness_inv_key.setBuf (by decide +kernel), rfl, by decide, rfl,
    ((key.setBuf .msg [2, 0, 3, 1, 0, 0, 1]).setKrej false).setBuf .g [0, 2, 3, 1, 2, 2, 0], ?_⟩
  exact ⟨_, rfl, rfl, rfl, rfl⟩

end Sys2Proof.Tests
end

/-! # Proofs: the scope (00_scope.md). Every step answers a next state; the state after reset is sound. -/

namespace Sys2Proof.Scope

open Sys2Proof.Machine Sys2Proof.Statements

/-! ## A command's answer -/

/-- The answer is a next state: the command is executed to completion, with no fault and no refusal (R2). -/
def Completes (a : Answer) : Prop := ∃ t, a = .next t

theorem completes_next (t : State) : Completes (.next t) := ⟨t, rfl⟩

/-- An error of the spec is a next state, the halted one (R241). -/
theorem completes_raised (e : ErrorKind) (i : Instr) (s : State) : Completes (raised e i s) := completes_next _

theorem Completes.ite {c : Prop} [Decidable c] {a b : Answer} (ha : Completes a) (hb : Completes b) :
    Completes (if c then a else b) := by
  split
  · exact ha
  · exact hb

/-- A command guarded by one test raises when the test is met, and else does as without it. -/
theorem Completes.guard {c : Prop} [Decidable c] {e : ErrorKind} {i : Instr} {s : State} {b : Answer}
    (hb : Completes b) : Completes (if c then raised e i s else b) := .ite (completes_raised e i s) hb

/-! ## The commands that look a value up -/

theorem execMget_completes (rd : PReg) (imm : Nat) (s : State) : Completes (execMget rd imm s) := by
  unfold execMget
  cases s.m.entry imm with
  | none => exact completes_raised _ _ s
  | some x => exact completes_next _

theorem execQget_completes (rd : PReg) (imm : Nat) (s : State) : Completes (execQget rd imm s) := by
  unfold execQget
  cases s.qseq[imm]? with
  | none => exact completes_raised _ _ s
  | some x => exact completes_next _

theorem execKder_completes (s : State) : Completes (execKder s) := by
  refine .guard (.guard ?_)
  cases derive s.cfg s.h0 s.h1 s.bsize with
  | reject => exact completes_next _
  | inverterBug => exact completes_raised _ _ s
  | key g => exact completes_next _

/-! ## Every command, every step -/

/-- Every command completes: those with no error, with one test, with two, with the test last, and the look-ups. -/
theorem exec_completes (i : Instr) (s : State) : Completes (exec i s) := by
  cases i with
  | nop | sreset | fmov | fadd | fsub | fmul | ftst | fmax | fget | pclr | pmov | pgetc | pdeg | ptst | padd | psub
  | pscl | pshr | vwt | v2p => exact completes_next _
  | fli | fdiv | finv | fnze | psetc | pdivrem | phgcd | pfgcd | pinv | pmodf | rmul | rinv | ksetw | vinit | vsete
  | vgete => exact .guard (completes_next _)
  | ksetr | p2v | encodeMsg | synd | dstep => exact .guard (.guard (completes_next _))
  | decodeCw => exact .guard (.guard (.ite (completes_next _) (completes_next _)))
  | pmul | mapply => exact .ite (completes_next _) (completes_raised _ _ s)
  | mget rd imm => exact execMget_completes rd imm s
  | qget rd imm => exact execQget_completes rd imm s
  | kder => exact execKder_completes s

/-- Every word has an outcome: obeyed or ignored while halted, illegal, or run (R233). -/
theorem engineStep_completes (w : Word) (s : State) : Completes (engineStep w s) := by
  obtain ⟨-, -, h⟩ | ⟨-, -, h⟩ | ⟨-, -, h⟩ | ⟨-, i, -, h⟩ := engineStep_cases w s
  · exact ⟨_, h⟩
  · exact ⟨_, h⟩
  · exact ⟨_, h⟩
  · rw [h]
    exact exec_completes i s.tick

theorem hostStep_completes (a : HostAction) (s : State) : Completes (hostStep a s) := by
  cases a with
  | issue w => exact engineStep_completes w s
  | readCsr n => exact completes_next _
  | reset => exact completes_next _

theorem step_completes (s : State) : Completes (step s) := by
  cases hp : s.pending with
  | nil => exact ⟨s, step_idle hp⟩
  | cons a rest =>
    rw [step_action hp]
    exact hostStep_completes a (s.setPending rest)

/-- Settles O14: by the host's next action, and for an issued word by the ways of the engine step. -/
theorem everyStepAnswersANextState : Obligations.EveryStepAnswersANextState := step_completes

/-! ## The state after reset -/

/-- det M = [1] for the identity, the forward matrix of the empty quotient sequence (R151, R162). -/
theorem matDet_matId {P : Params} (h : ParamsOk P) : matDet P matId = [1] := by
  have hnil : canonical [] ∧ elemsOk P [] := ⟨canonical_nil, elemsOk_nil⟩
  obtain ⟨-, -, hdet, -⟩ := (EuclidSteps.done [] []).matrix h ⟨hnil, hnil⟩ le_rfl
  exact hdet

/-- reset_state() puts the identity into M, for any sound parameters (R22, R42). -/
theorem detOk_resetState {s : State} (h : ParamsOk s.cfg) : s.resetState.detOk := matDet_matId h

/-- The state after reset is its own reset_state() (R42, R270). -/
theorem resetState_reset : State.reset.resetState = State.reset := rfl

/-- Settles O20: reset_state() is sound for sound parameters, and GF(4) with RMAX = 4096 are sound ones. -/
theorem resetStateMeetsTheInvariants : Obligations.ResetStateMeetsTheInvariants := by
  unfold Obligations.ResetStateMeetsTheInvariants
  rw [← resetState_reset]
  exact ⟨Inv_resetState paramsOk_gf4, detOk_resetState paramsOk_gf4⟩

end Sys2Proof.Scope

/-! # Proofs: the state (10_state.md). What a step writes, and what it keeps. -/

namespace Sys2Proof.StateRules

open Sys2Proof.Machine Sys2Proof.Statements Sys2Proof.Scope

/-! ## What holds of an answer -/

/-- Every next state the answer can be has the property. -/
def Ensures (Q : State → Prop) (a : Answer) : Prop := ∀ t, a = .next t → Q t

variable {Q : State → Prop} {s t : State} {a b : Answer} {i : Instr}

theorem ensures_next (h : Q t) : Ensures Q (.next t) := fun _ ht => Host.Outcome.next.inj ht ▸ h

theorem Ensures.ite {c : Prop} [Decidable c] (ha : c → Ensures Q a) (hb : ¬ c → Ensures Q b) :
    Ensures Q (if c then a else b) := by
  split
  · exact ha ‹_›
  · exact hb ‹_›

/-- A command guarded by one test: the halted state has the property, and so has the answer when the test is not met. -/
theorem Ensures.guard {c : Prop} [Decidable c] {e : ErrorKind} (hr : Q (s.raise e (encode i)))
    (hb : ¬ c → Ensures Q b) : Ensures Q (if c then raised e i s else b) := .ite (fun _ => ensures_next hr) hb

/-! ## What a command writes (R20–R24, R26, R27, R241) -/

/-- The two outcomes of a command: it raised, or it wrote only what the tables give it. -/
def RaisedOrWrote (i : Instr) (s t : State) : Prop :=
  (∃ e, t = s.raise e (encode i)) ∨ SameExcept (writtenBy i) s t

theorem raisedOrWrote_raise (i : Instr) (s : State) (e : ErrorKind) : RaisedOrWrote i s (s.raise e (encode i)) :=
  .inl ⟨e, rfl⟩

/-- A command that ends by writing what its row names. -/
theorem writes (h : SameExcept (writtenBy i) s t) : Ensures (RaisedOrWrote i s) (.next t) := ensures_next (.inr h)

/-- The same behind a test that raises. -/
theorem guardedWrites {c : Prop} [Decidable c] {e : ErrorKind} (h : SameExcept (writtenBy i) s t) :
    Ensures (RaisedOrWrote i s) (if c then raised e i s else .next t) :=
  .guard (raisedOrWrote_raise i s e) fun _ => writes h

theorem putInverse_same (s : State) (rd : PReg) (res : Option Poly) :
    SameExcept [.noinv, .p rd] s (s.putInverse rd res) := by
  cases res with
  | none => exact (same_putInverse_none s rd).mono (List.cons_subset_cons _ (List.nil_subset _))
  | some q => exact same_putInverse_some s rd q

theorem execMget_writes (rd : PReg) (imm : Nat) (s : State) :
    Ensures (RaisedOrWrote (.mget rd imm) s) (execMget rd imm s) := by
  unfold execMget
  cases s.m.entry imm with
  | none => exact ensures_next (raisedOrWrote_raise _ s _)
  | some x => exact writes (same_setP s rd x)

theorem execQget_writes (rd : PReg) (imm : Nat) (s : State) :
    Ensures (RaisedOrWrote (.qget rd imm) s) (execQget rd imm s) := by
  unfold execQget
  cases s.qseq[imm]? with
  | none => exact ensures_next (raisedOrWrote_raise _ s _)
  | some x => exact writes (same_setP s rd x)

theorem execKder_writes (s : State) : Ensures (RaisedOrWrote .kder s) (execKder s) := by
  refine .guard (raisedOrWrote_raise _ s _) fun _ => .guard (raisedOrWrote_raise _ s _) fun _ => ?_
  cases derive s.cfg s.h0 s.h1 s.bsize with
  | reject => exact writes ((same_setKrej s true).mono (by decide))
  | inverterBug => exact ensures_next (raisedOrWrote_raise _ s _)
  | key g => exact writes ((same_setKrej s false).trans (same_setBuf _ .g g))

theorem execDecode_writes (imm : Nat) (s : State) :
    Ensures (RaisedOrWrote (.decodeCw imm) s) (execDecode imm s) := by
  refine .guard (raisedOrWrote_raise _ s _) fun _ => .guard (raisedOrWrote_raise _ s _) fun _ => .ite (fun _ => ?_)
    fun _ => ?_
  · exact writes (((same_decodeStart s).trans (same_setDfail _ _)).mono (by decide : _ ⊆ writtenBy (.decodeCw 0)))
  · exact writes ((((same_decodeStart s).trans (same_iterateTimes imm _)).trans (same_setDfail _ _)).mono
      (by decide : _ ⊆ writtenBy (.decodeCw 0)))

/-- What each command can do: raise, or write what its row of the tables names. -/
theorem exec_writes (i : Instr) (s : State) (hi : i ≠ .sreset) : Ensures (RaisedOrWrote i s) (exec i s) := by
  cases i with
  | sreset => exact absurd rfl hi
  | nop => exact writes (.refl _ s)
  | fmov | fadd | fsub | fmul | pgetc => exact writes (same_setF s _ _)
  | fli | fdiv | finv | fnze | vgete => exact guardedWrites (same_setF s _ _)
  | ftst | ptst => exact writes (same_setZO s _ _)
  | fmax | fget | pdeg | vwt => exact writes (same_setDout s _)
  | pclr | pmov | padd | psub | pscl | pshr | v2p => exact writes (same_setP s _ _)
  | psetc | pmodf | rmul => exact guardedWrites (same_setP s _ _)
  | pmul => exact .ite (fun _ => writes (same_setP s _ _)) fun _ => ensures_next (raisedOrWrote_raise _ s _)
  | mapply =>
    exact .ite (fun _ => writes ((same_setP s _ _).trans (same_setP _ _ _))) fun _ =>
      ensures_next (raisedOrWrote_raise _ s _)
  | pdivrem => exact guardedWrites ((same_setP s _ _).trans (same_setP _ _ _))
  | phgcd => exact guardedWrites (same_setMQ s _ _)
  | pfgcd => exact guardedWrites ((same_setMQ s _ _).trans (same_setP _ _ _))
  | pinv | rinv => exact guardedWrites (putInverse_same s _ _)
  | ksetr => exact .guard (raisedOrWrote_raise _ s _) fun _ => guardedWrites (same_setR s _)
  | ksetw => exact guardedWrites (same_setW s _)
  | vinit | vsete => exact guardedWrites (same_setBuf s _ _)
  | p2v | encodeMsg => exact .guard (raisedOrWrote_raise _ s _) fun _ => guardedWrites (same_setBuf s _ _)
  | synd => exact .guard (raisedOrWrote_raise _ s _) fun _ => guardedWrites (same_setSyndrome s _)
  | dstep => exact .guard (raisedOrWrote_raise _ s _) fun _ => guardedWrites (same_iterate s)
  | mget rd imm => exact execMget_writes rd imm s
  | qget rd imm => exact execQget_writes rd imm s
  | kder => exact execKder_writes s
  | decodeCw imm => exact execDecode_writes imm s

/-- No command's row names the parameters or the command index. -/
theorem cfg_cix_not_written (i : Instr) : .cfg ∉ writtenBy i ∧ .cix ∉ writtenBy i := by
  cases i <;> simp [writtenBy]

/-- Only KSETR writes R, only KSETW writes W. -/
theorem r_w_written {i : Instr} :
    (.r ∈ writtenBy i → ∃ imm, i = .ksetr imm) ∧ (.w ∈ writtenBy i → ∃ imm, i = .ksetw imm) := by
  cases i <;> simp [writtenBy]

/-- Settles O17: a command that has not raised wrote what its row names. -/
theorem commandsWriteOnlyWhatTheTablesSay : Obligations.CommandsWriteOnlyWhatTheTablesSay := by
  intro i s t hi _ ht herr
  obtain ⟨e, rfl⟩ | h := exec_writes i s hi t ht
  · exact absurd herr (Option.some_ne_none e)
  · exact h

/-- What neither raising nor the command's row names stays. -/
theorem exec_same {c : Comp} (hi : i ≠ .sreset) (ht : exec i s = .next t) (hr : c ∉ [.err, .errcmd])
    (hc : c ∉ writtenBy i) : c.same s t := by
  obtain ⟨e, rfl⟩ | h := exec_writes i s hi t ht
  · exact same_raise s e _ c hr
  · exact h c hc

theorem exec_cfg (ht : exec i s = .next t) : t.cfg = s.cfg := by
  by_cases hi : i = .sreset
  · subst hi
    exact Host.Outcome.next.inj ht ▸ resetState_cfg s
  · exact exec_same (c := .cfg) hi ht (by decide) (cfg_cix_not_written i).1

theorem exec_cix (hi : i ≠ .sreset) (ht : exec i s = .next t) : t.cix = s.cix :=
  exec_same (c := .cix) hi ht (by decide) (cfg_cix_not_written i).2

/-! ## What every step keeps -/

/-- The components the engine and the host's port write beside the commands: the error, the command's word, the count,
the host's list and the word it read (R233, R234, R241). -/
def bookkeeping : List Comp := [.err, .errcmd, .cix, .pending, .rdata]

/-- A property that does not read the bookkeeping, and that a reset and every decoded command keep, is kept by every
step. -/
theorem step_keeps (hframe : ∀ s t, SameExcept bookkeeping s t → Q s → Q t) (hreset : ∀ s, Q s → Q s.resetState)
    (hexec : ∀ w i s, decode w = .ok i → Q s → Ensures Q (exec i s)) (hs : Q s) : Ensures Q (step s) := by
  have hpend : ∀ s l, Q s → Q (s.setPending l) := fun s l =>
    hframe s _ ((same_setPending s l).mono (by decide))
  have htick : ∀ s, Q s → Q s.tick := fun s => hframe s _ ((same_tick s).mono (by decide))
  intro t ht
  obtain ⟨-, rfl⟩ | ⟨w, rest, -, h⟩ | ⟨n, rest, -, rfl⟩ | ⟨rest, -, rfl⟩ := step_cases ht
  · exact hs
  · have hw := htick _ (hpend s rest hs)
    obtain ⟨-, -, he⟩ | ⟨-, -, he⟩ | ⟨-, -, he⟩ | ⟨-, i, hd, he⟩ := engineStep_cases w (s.setPending rest)
    · exact ensures_next (hreset _ hw) t (he ▸ h)
    · exact ensures_next hw t (he ▸ h)
    · exact ensures_next (hframe _ _ ((same_raise _ _ w).mono (by decide)) hw) t (he ▸ h)
    · exact hexec w i _ hd hw t (he ▸ h)
  · exact hframe _ _ ((same_setRdata _ _).mono (by decide)) (hpend s rest hs)
  · exact hreset _ (hpend s rest hs)

/-- Settles O18: a reset keeps the parameters, and no command's row names them. -/
theorem parametersNeverChange : Obligations.ParametersNeverChange := fun s =>
  step_keeps (Q := fun t => t.cfg = s.cfg) (fun _ _ h hs => (h .cfg (by decide)).trans hs) (fun _ hs => hs)
    (fun _ _ _ _ hs _ ht => (exec_cfg ht).trans hs) rfl

/-! ## What a decoded command is (R82, R86, R89, R231) -/

/-- Every command the decoder can answer has the property. -/
def DecodesTo (C : Instr → Prop) (d : Except DecodeError Instr) : Prop := ∀ j, d = .ok j → C j

variable {C : Instr → Prop}

@[simp] theorem decodesTo_ok {j : Instr} : DecodesTo C (.ok j) ↔ C j :=
  ⟨fun h => h j rfl, fun h _ hj => Except.ok.inj hj ▸ h⟩

@[simp] theorem decodesTo_error {e : DecodeError} : DecodesTo C (.error e) := fun _ hj => nomatch hj

@[simp] theorem decodesTo_whenZero {z : Bool} {d : Except DecodeError Instr} :
    DecodesTo C (whenZero z d) ↔ (z = true → DecodesTo C d) := by
  unfold whenZero
  split <;> simp [*]

@[simp] theorem decodesTo_withBuf {x : Fin 16} {k : Buf → Instr} :
    DecodesTo C (withBuf x k) ↔ ∀ b, bufOfId x.val = some b → C (k b) := by
  unfold withBuf
  split <;> simp [*]

theorem immField_lt (w : Word) : immField w < 65536 := Nat.mod_lt _ (by decide)

@[simp] theorem immOk_immField (w : Word) : immOk (immField w) = true := decide_eq_true (immField_lt w)

/-- The immediate of a decoded command is 16 bits of its word (R82, R84): every row of the decoder takes it from
`immField`. -/
theorem decode_wellFormed (w : Word) : DecodesTo (fun j => j.wellFormed = true) (decode w) := by
  unfold decode
  split <;> simp [shapeNone, shapeD, shapeA, shapeDA, shapeAB, shapeDAB, shapeDCAB, shapeI, shapeDI, shapeDAI,
    Instr.wellFormed]

/-- Only row 0x01 of the decoder answers SRESET, and it asks for bits [23:0] zero (R231). -/
theorem decode_sreset (w : Word) : DecodesTo (fun j => j = .sreset → w = sresetWord) (decode w) := by
  unfold decode
  split <;> simp [shapeNone, shapeD, shapeA, shapeDA, shapeAB, shapeDAB, shapeDCAB, shapeI, shapeDI, shapeDAI]
  next hop =>
    intro hlow
    apply BitVec.eq_of_toNat_eq
    have hw := w.isLt
    have hs : sresetWord.toNat = 2 ^ 24 := rfl
    unfold opField at hop
    omega

/-! ## SRESET and the count of words (R40, R42, R231) -/

/-- Halted or not, SRESET's word resets: halted it is the one word obeyed, and else it decodes to SRESET. -/
theorem engineStep_sresetWord (s : State) : engineStep sresetWord s = .next s.resetState := by
  unfold engineStep
  split
  · rfl
  · rfl

/-- Settles O13: SRESET's word puts the count to 0; every other word is counted before it is obeyed, refused or run,
and only SRESET writes the count. -/
theorem everyAcceptedWordIsCounted : Obligations.EveryAcceptedWordIsCounted := by
  intro s t w rest hp ht
  rw [step_action hp] at ht
  change engineStep w (s.setPending rest) = .next t at ht
  change t.cix = if w = sresetWord then 0 else s.cix + 1
  by_cases hw : w = sresetWord
  · subst hw
    rw [engineStep_sresetWord] at ht
    exact Host.Outcome.next.inj ht ▸ rfl
  · rw [if_neg hw]
    obtain ⟨-, h, -⟩ | ⟨-, -, h⟩ | ⟨-, -, h⟩ | ⟨-, i, hd, h⟩ := engineStep_cases w (s.setPending rest)
    · exact absurd h hw
    · exact Host.Outcome.next.inj (h ▸ ht) ▸ rfl
    · exact Host.Outcome.next.inj (h ▸ ht) ▸ rfl
    · exact exec_cix (fun hi => hw (decode_sreset w i hd hi)) (h ▸ ht)

@[simp] theorem resetState_status (s : State) : s.resetState.status = 0 := by simp [State.status, errCode]

/-- Settles O6: both resets are reset_state(), whose fields are read off one by one. -/
theorem softAndHardResetGiveTheResetState : Obligations.SoftAndHardResetGiveTheResetState := by
  refine fun s => ⟨rfl, s.resetState, rfl, resetState_fr s, resetState_pr s, rfl, rfl, resetState_buf s,
    resetState_status s, rfl, rfl, rfl, rfl, rfl, rfl, rfl, rfl, rfl, rfl, rfl, rfl, rfl, rfl, fun rest hp => ?_,
    fun rest hp => ?_⟩
  · exact step_action hp
  · exact (step_action hp).trans (engineStep_sresetWord _)

/-- Settles O5: the reset state is its own reset_state(). -/
theorem resetValuesAreThoseOfTheTable : Obligations.ResetValuesAreThoseOfTheTable := by
  unfold Obligations.ResetValuesAreThoseOfTheTable
  rw [← resetState_reset]
  exact ⟨rfl, resetState_fr _, resetState_pr _, rfl, rfl, resetState_buf _, resetState_status _, rfl, rfl, rfl, rfl,
    rfl, rfl, rfl, rfl, rfl, rfl, rfl, rfl, rfl, rfl, rfl, rfl⟩

/-! ## The CSR read port (R25–R28, R34–R38, R234) -/

/-- The host's list is no CSR. -/
theorem readCsr_setPending (s : State) (l : List HostAction) (n : Nat) :
    readCsr (s.setPending l) n = readCsr s n := rfl

/-- Settles O11: the step takes the read off the list and writes rdata. -/
theorem readCsrHasNoSideEffect : Obligations.ReadCsrHasNoSideEffect := fun s n rest hp =>
  ⟨_, step_action hp, readCsr_setPending s rest n.toNat, rfl,
    ((same_setPending s rest).trans (same_setRdata _ _)).mono (by decide)⟩

/-- A value that fits its field reads as itself. -/
theorem csrField_toNat {width v : Nat} (hv : v < 2 ^ width) (hw : width ≤ 32) : (csrField width v).toNat = v := by
  have h32 : v < 2 ^ 32 := hv.trans_le (Nat.pow_le_pow_right (by decide) hw)
  simp only [csrField, BitVec.toNat_setWidth, BitVec.toNat_ofNat, Nat.mod_eq_of_lt hv, Nat.mod_eq_of_lt h32]

/-- A 16-bit register reads as itself. -/
theorem toNat_reg16 (x : BitVec 16) : (x.setWidth 32).toNat = x.toNat := by
  rw [BitVec.toNat_setWidth, Nat.mod_eq_of_lt (x.isLt.trans (by decide))]

theorem errCode_le (e : Option ErrorKind) : errCode e ≤ 8 := by
  cases e with
  | none => decide
  | some k => cases k <;> decide

/-- The STATUS word as a sum (R27): its fields leave no carry out of 32 bits. -/
theorem toNat_status (s : State) : s.status.toNat = errCode s.err + s.z.toNat * 16 + s.o.toNat * 32 +
    s.noinv.toNat * 64 + s.dfail.toNat * 128 + s.krej.toNat * 256 := by
  have he := errCode_le s.err
  have hz := s.z.toNat_le
  have ho := s.o.toNat_le
  have hn := s.noinv.toNat_le
  have hd := s.dfail.toNat_le
  have hk := s.krej.toNat_le
  simp only [State.status, BitVec.toNat_ofNat]
  omega

theorem bufCap_le_lmax (P : Params) (b : Buf) : bufCap P b ≤ P.lmax := by
  cases b <;> simp only [bufCap, Params.lmax] <;> omega

/-- The capacity of a polynomial, of QSEQ and of a buffer fits a 17-bit CSR field (R5). -/
theorem lmax_lt {P : Params} (h : ParamsOk P) : P.lmax < 2 ^ 17 := by
  have := h.rmax_le
  unfold Params.lmax
  omega

theorem readCsr_len (h : s.Inv) (b : Buf) : (readCsr s (0x20 + bufId b)).toNat = (s.buf b).length := by
  have hlen := ((h.storage.buf b).2.trans (bufCap_le_lmax s.cfg b)).trans_lt (lmax_lt h.params)
  cases b <;> exact csrField_toNat hlen (by decide)

theorem readCsr_unassigned (s : State) {n : Nat} (h : 0x0A < n)
    (hn : n ∉ [0x10, 0x11, 0x12, 0x13, 0x20, 0x21, 0x22, 0x23, 0x24, 0x25, 0x26]) : readCsr s n = 0 := by
  simp only [List.mem_cons, List.not_mem_nil, or_false, not_or] at hn
  unfold readCsr
  split
  case h_23 => rfl
  all_goals omega

/-- Settles O12: the 16- and 32-bit registers read as they are, and the bounds of the invariant fit the narrower
fields. -/
theorem csrMapReadsAsListed : Obligations.CsrMapReadsAsListed := by
  intro s h
  have hl := lmax_lt h.params
  have hn : s.cfg.n < 2 ^ 5 := h.params.n_le.trans_lt (by decide)
  have hpoly : s.cfg.poly < 2 ^ 17 :=
    h.params.poly_lt.trans_le (Nat.pow_le_pow_right (by decide) (Nat.succ_le_succ h.params.n_le))
  have hrmax : s.cfg.rmax < 2 ^ 16 := h.params.rmax_le.trans_lt (by decide)
  have hq : s.qseq.length < 2 ^ 17 := h.storage.qseq.2.1.trans_lt hl
  exact ⟨toNat_status s, rfl, toNat_reg16 s.r, toNat_reg16 s.w, toNat_reg16 s.omega, toNat_reg16 s.iter,
    csrField_toNat hq (by decide), rfl, toNat_reg16 s.jstar, toNat_reg16 s.astar, rfl, csrField_toNat hn (by decide),
    csrField_toNat hpoly (by decide), csrField_toNat hl (by decide), csrField_toNat hrmax (by decide),
    readCsr_len h, fun _ => readCsr_unassigned s⟩

/-! ## Block size and weight (R30, R31, R171, R181) -/

/-- KSETR with an immediate of its word: at most RMAX, at least W (R171). -/
theorem execKsetr_sizes {imm : Nat} (hi : imm < 65536) (h : sizesOk s) : Ensures sizesOk (execKsetr imm s) := by
  refine .guard h fun hr => .guard h fun hw => ensures_next ?_
  have hsize : (s.setR imm).bsize = imm := by
    rw [State.bsize, setR_r, BitVec.toNat_ofNat, Nat.mod_eq_of_lt hi]
  rw [sizesOk, hsize, setR_bweight, setR_cfg]
  omega

/-- KSETW: at most R; the 16-bit register holds no more than the immediate (R181). -/
theorem execKsetw_sizes (imm : Nat) (h : sizesOk s) : Ensures sizesOk (execKsetw imm s) := by
  refine .guard h fun hw => ensures_next ⟨?_, h.2⟩
  rw [State.bweight, setW_w, BitVec.toNat_ofNat]
  exact (Nat.mod_le _ _).trans (Nat.not_lt.1 hw)

theorem sizesOk_same (hc : t.cfg = s.cfg) (hr : t.r = s.r) (hw : t.w = s.w) (h : sizesOk s) : sizesOk t := by
  simpa only [sizesOk, State.bsize, State.bweight, hc, hr, hw] using h

/-- Every decoded command keeps the sizes: SRESET clears them, KSETR and KSETW test them, no other writes them. -/
theorem exec_keeps_sizes {w : Word} (hd : decode w = .ok i) (h : sizesOk s) : Ensures sizesOk (exec i s) := by
  intro t ht
  by_cases hr : ∃ imm, i = .ksetr imm
  · obtain ⟨imm, rfl⟩ := hr
    exact execKsetr_sizes (of_decide_eq_true (decode_wellFormed w _ hd)) h t ht
  by_cases hw : ∃ imm, i = .ksetw imm
  · obtain ⟨imm, rfl⟩ := hw
    exact execKsetw_sizes imm h t ht
  by_cases hi : i = .sreset
  · subst hi
    exact Host.Outcome.next.inj ht ▸ ⟨le_rfl, Nat.zero_le _⟩
  · exact sizesOk_same (exec_cfg ht) (exec_same (c := .r) hi ht (by decide) (mt r_w_written.1 hr))
      (exec_same (c := .w) hi ht (by decide) (mt r_w_written.2 hw)) h

/-- Settles O22: the sizes stand outside the bookkeeping, and resets and commands keep them. -/
theorem everyStepKeepsWeightWithinBlockSize : Obligations.EveryStepKeepsWeightWithinBlockSize := fun _ t hs ht =>
  step_keeps (Q := sizesOk) (fun _ _ h => sizesOk_same (h .cfg (by decide)) (h .r (by decide)) (h .w (by decide)))
    (fun _ _ => ⟨le_rfl, Nat.zero_le _⟩) (fun _ _ _ => exec_keeps_sizes) hs t ht

/-! ## Results that fit a polynomial register (R21, R120, R139) -/

section

variable {P : Params} {x y q : Poly}

theorem polyOk_polyAdd (hx : polyOk P x) (hy : polyOk P y) : polyOk P (polyAdd x y) :=
  ⟨canonical_polyAdd x y, elemsOk_polyAdd hx.2.1 hy.2.1, (length_polyAdd_le x y).trans (max_le hx.2.2 hy.2.2)⟩

theorem polyOk_polyScale (h : ParamsOk P) {c : Elem} (hc : c < P.card) (hx : polyOk P x) :
    polyOk P (polyScale P c x) :=
  ⟨canonical_polyScale c x, elemsOk_polyScale h.laws hc hx.2.1, (length_polyScale_le c x).trans hx.2.2⟩

theorem polyOk_polyShr (k : Nat) (hx : polyOk P x) : polyOk P (polyShr k x) :=
  ⟨canonical_polyShr hx.1, fun c hc => hx.2.1 c (List.mem_of_mem_drop hc),
    (List.drop_sublist k x).length_le.trans hx.2.2⟩

theorem polyOk_setCoef {k : Nat} {c : Elem} (hk : k < P.lmax) (hc : c < P.card) (hx : polyOk P x) :
    polyOk P (setCoef x k c) :=
  ⟨canonical_setCoef x k c, elemsOk_setCoef hx.2.1 hc, (length_setCoef_le x k c).trans (max_le hx.2.2 hk)⟩

theorem fits_iff : fits P x = true ↔ x.length ≤ P.lmax := decide_eq_true_iff

theorem polyOk_polyMul (h : ParamsOk P) (hx : polyOk P x) (hy : polyOk P y) (hf : fits P (polyMul P x y) = true) :
    polyOk P (polyMul P x y) :=
  ⟨canonical_polyMul x y, elemsOk_polyMul h.laws hx.2.1 hy.2.1, fits_iff.1 hf⟩

/-- A component of a matrix product that fits (R158). -/
theorem polyOk_dot (h : ParamsOk P) {c d : Poly} (hc : polyOk P c) (hx : polyOk P x) (hd : polyOk P d)
    (hy : polyOk P y) (hf : fits P (polyAdd (polyMul P c x) (polyMul P d y)) = true) :
    polyOk P (polyAdd (polyMul P c x) (polyMul P d y)) :=
  ⟨canonical_polyAdd _ _, elemsOk_dot h hc.2.1 hx.2.1 hd.2.1 hy.2.1, fits_iff.1 hf⟩

/-- Quotient and remainder are no longer than the operands (R125). -/
theorem polyOk_divRem (h : ParamsOk P) (hx : polyOk P x) (hy : polyOk P y) (hne : y ≠ []) :
    polyOk P (divRem P x y).1 ∧ polyOk P (divRem P x y).2 := by
  obtain ⟨⟨-, -, hcq, hcr, heq, her⟩, hlq, hlr⟩ := divRem_spec h hx.1 hx.2.1 hy.1 hy.2.1 hne
  have hpos := List.length_pos_iff.2 hne
  have hlx := hx.2.2
  have hly := hy.2.2
  exact ⟨⟨hcq, heq, by omega⟩, hcr, her, by omega⟩

/-- R + 1 coefficients fit, for a block size that has been set (R170). -/
theorem polyOk_ringModulus (h : ParamsOk P) {r : Nat} (h0 : r ≠ 0) (hr : r ≤ P.rmax) :
    polyOk P (ringModulus r) := by
  refine ⟨canonical_ringModulus r, elemsOk_ringModulus (one_lt_card h) r, ?_⟩
  rw [length_ringModulus r h0, Params.lmax]
  omega

/-- The ring product: the product may outgrow the registers, its remainder does not (R139, R173). -/
theorem polyOk_ringMul (h : ParamsOk P) {r : Nat} (h0 : r ≠ 0) (hr : r ≤ P.rmax) (hx : polyOk P x) (hy : polyOk P y) :
    polyOk P (divRem P (polyMul P x y) (ringModulus r)).2 := by
  have hm := polyOk_ringModulus h h0 hr
  obtain ⟨⟨-, -, -, hcr, -, her⟩, -, hlr⟩ := divRem_spec h (canonical_polyMul x y)
    (elemsOk_polyMul h.laws hx.2.1 hy.2.1) hm.1 hm.2.1 (ringModulus_ne_nil h0)
  exact ⟨hcr, her, hlr.le.trans hm.2.2⟩

/-- What `invert` answers is the inverse (R155): the case that answers none is the other one. -/
theorem isInverse_of_invert (h : ParamsOk P) (hx : canonical x ∧ elemsOk P x) (hy : canonical y ∧ elemsOk P y)
    (hne : y ≠ []) (hq : invert P x y = some q) : IsInverse P x y q := by
  obtain ⟨⟨-, -, -, hcr, -, her⟩, -, -⟩ := divRem_spec h hx.1 hx.2 hy.1 hy.2 hne
  obtain ⟨hnone, hsome⟩ := invert_spec h hx hy hne (euclid_steps h ⟨hy, hcr, her⟩)
  by_cases hc : (divRem P x y).2 = [] ∨ 0 < deg (euclid P y (divRem P x y).2).2
  · rw [(hnone hc).1] at hq
    exact nomatch hq
  · obtain ⟨hb, hd⟩ := not_or.1 hc
    obtain ⟨q', hq', hinv⟩ := hsome hb (Nat.eq_zero_of_not_pos hd)
    exact Option.some.inj (hq'.symm.trans hq) ▸ hinv

/-- The inverse has smaller degree than the modulus (R155). -/
theorem polyOk_invert (h : ParamsOk P) (hx : polyOk P x) (hy : polyOk P y) (hne : y ≠ [])
    (hq : invert P x y = some q) : polyOk P q := by
  obtain ⟨-, hcq, heq, hdeg⟩ := isInverse_of_invert h ⟨hx.1, hx.2.1⟩ ⟨hy.1, hy.2.1⟩ hne hq
  refine ⟨hcq, heq, ?_⟩
  have hly := hy.2.2
  unfold deg at hdeg
  omega

end

/-! ## Operands of a sound state -/

theorem bufOk_of_length (h : s.Inv) {c : Buf} {v : Vec} (he : elemsOk s.cfg v) (hv : v.length ≤ s.bsize) :
    bufOk s.cfg c v := by
  have hr := h.sizes.2
  refine ⟨he, ?_⟩
  cases c <;> simp only [bufCap] <;> omega

/-- A vector of 2·R elements fits the buffers of two blocks. -/
theorem bufOk_of_twoBlocks (h : s.Inv) {c : Buf} {v : Vec} (hc : bufCap s.cfg c = 2 * s.cfg.rmax)
    (he : elemsOk s.cfg v) (hv : v.length = 2 * s.bsize) : bufOk s.cfg c v := by
  refine ⟨he, ?_⟩
  rw [hv, hc]
  exact Nat.mul_le_mul_left 2 h.sizes.2

/-- The polynomial of a buffer fits a register: no capacity exceeds LMAX (R24, R187). -/
theorem polyOk_polyOfVec (h : s.Inv) (c : Buf) : polyOk s.cfg (polyOfVec (s.buf c)) := by
  obtain ⟨he, hlen⟩ := h.storage.buf c
  exact ⟨canonical_polyOfVec _, elemsOk_polyOfVec he,
    (length_canon_le _).trans (hlen.trans (bufCap_le_lmax s.cfg c))⟩

/-- The enumeration NZ holds elements, and reading past its end gives 0 (R105). -/
theorem nz_getD_lt {P : Params} (h : ParamsOk P) (k : Nat) : P.nz.getD k 0 < P.card :=
  coef_lt (fun c hc => ((h.nz_all c).1 hc).2) k

/-- The whole Euclidean sequence of two registers, its reducing matrix and its gcd fit (R157). -/
theorem fullGcd_storage (h : s.Inv) (ra rb : PReg) (hd : deg (s.pr rb) ≤ deg (s.pr ra)) :
    matOk s.cfg (fullGcd s.cfg (s.pr ra) (s.pr rb)).t ∧ qseqOk s.cfg (fullGcd s.cfg (s.pr ra) (s.pr rb)).seq ∧
      polyOk s.cfg (fullGcd s.cfg (s.pr ra) (s.pr rb)).gcd := by
  have ha := h.storage.pr ra
  have hb := h.storage.pr rb
  obtain ⟨hqs, -, hm, hg⟩ := (euclid_steps h.params ⟨⟨ha.1, ha.2.1⟩, hb.1, hb.2.1⟩).storage h.params ha hb hd
  exact ⟨hm, hqs, hg⟩

/-- The quotients half-GCD keeps and their forward matrix fit (R156). -/
theorem halfGcd_storage (h : s.Inv) (ra rb : PReg) (hd : deg (s.pr rb) ≤ deg (s.pr ra)) :
    matOk s.cfg (halfGcd s.cfg (s.pr ra) (s.pr rb)).2 ∧ qseqOk s.cfg (halfGcd s.cfg (s.pr ra) (s.pr rb)).1 := by
  have ha := h.storage.pr ra
  have hb := h.storage.pr rb
  obtain ⟨⟨a', b', hsteps, -⟩, -⟩ := halfLoop_steps h.params (halfBound_pos (s.pr ra)) _ _ _
    ⟨⟨ha.1, ha.2.1⟩, hb.1, hb.2.1⟩ le_rfl
  obtain ⟨hqs, hm, -, -⟩ := hsteps.storage h.params ha hb hd
  exact ⟨hm, hqs⟩

/-! ## Every command keeps the storage invariant -/

theorem execMget_inv (h : s.Inv) (rd : PReg) (imm : Nat) : Ensures State.Inv (execMget rd imm s) := by
  unfold execMget
  cases hx : s.m.entry imm with
  | none => exact ensures_next (h.raise _ _)
  | some x => exact ensures_next (h.setP (polyOk_entry h.storage.m hx))

theorem execQget_inv (h : s.Inv) (rd : PReg) (imm : Nat) : Ensures State.Inv (execQget rd imm s) := by
  unfold execQget
  cases hx : s.qseq[imm]? with
  | none => exact ensures_next (h.raise _ _)
  | some x => exact ensures_next (h.setP (h.storage.qseq.1 x (List.mem_of_getElem? hx)))

/-- MAPPLY writes both components only when both fit (R139, R158). -/
theorem execMapply_inv (h : s.Inv) (rd rc ra rb : PReg) : Ensures State.Inv (execMapply rd rc ra rb s) := by
  refine .ite (fun hf => ensures_next ?_) fun _ => ensures_next (h.raise _ _)
  obtain ⟨hm00, hm01, hm10, hm11⟩ := h.storage.m
  obtain ⟨hf1, hf2⟩ := Bool.and_eq_true_iff.1 hf
  have ha := h.storage.pr ra
  have hb := h.storage.pr rb
  exact (h.setP (polyOk_dot h.params hm11 ha hm01 hb hf1)).setP (polyOk_dot h.params hm10 ha hm00 hb hf2)

/-- KDER writes a key of R elements (R200, R207). -/
theorem execKder_inv (h : s.Inv) : Ensures State.Inv (execKder s) := by
  refine .guard (h.raise _ _) fun h0 => .guard (h.raise _ _) fun hlen => ?_
  have hspec := derive_spec h.params (h.storage.buf .h0).1 (h.storage.buf .h1).1 h0 (not_not.1 (not_or.1 hlen).1)
  cases hd : derive s.cfg s.h0 s.h1 s.bsize with
  | reject => exact ensures_next (h.setKrej true)
  | inverterBug => exact ensures_next (h.raise _ _)
  | key g =>
    by_cases hinv : ∃ q, IsInverse s.cfg (polyOfVec s.h1) (ringModulus s.bsize) q
    · obtain ⟨g', hg', hlen', hel, -⟩ := hspec.1 hinv
      obtain rfl : g' = g := Derived.key.inj (hg'.symm.trans hd)
      exact ensures_next ((h.setKrej false).setBuf (bufOk_of_length h hel hlen'.le))
    · exact nomatch (hspec.2 hinv).symm.trans hd

/-- DECODE starts with a sound state and an error vector of 2·R elements, which the iterations need (R211). -/
theorem decodeStart_inv (h : s.Inv) : s.decodeStart.Inv ∧ s.decodeStart.ev.length = 2 * s.decodeStart.bsize :=
  ⟨(h.syndrome.setBuf (bufOk_of_twoBlocks h rfl (elemsOk_zeroVec _) (length_zeroVec _))).setIter 0, length_zeroVec _⟩

theorem execDecode_inv (h : s.Inv) (imm : Nat) : Ensures State.Inv (execDecode imm s) := by
  obtain ⟨hstart, hev⟩ := decodeStart_inv h
  exact .guard (h.raise _ _) fun h0 => .guard (h.raise _ _) fun _ => .ite
    (fun _ => ensures_next (hstart.setDfail _))
    fun _ => ensures_next ((hstart.iterateTimes h0 hev imm).setDfail _)

/-- Every command keeps the storage invariant: it raises, or what it writes fits where it is written. -/
theorem exec_keeps_inv (i : Instr) (h : s.Inv) : Ensures State.Inv (exec i s) := by
  have laws := h.params.laws
  have fr := h.storage.fr
  have pr := h.storage.pr
  cases i with
  | nop => exact ensures_next h
  | sreset => exact ensures_next (Inv_resetState h.params)
  | fli rd imm => exact .guard (h.raise _ _) fun hi => ensures_next (h.setF (Nat.not_le.1 hi))
  | fmov rd ra => exact ensures_next (h.setF (fr ra))
  | fadd rd ra rb | fsub rd ra rb => exact ensures_next (h.setF (fplus_lt (fr ra) (fr rb)))
  | fmul rd ra rb => exact ensures_next (h.setF (laws.mul_lt _ (fr ra) _ (fr rb)))
  | fdiv rd ra rb => exact .guard (h.raise _ _) fun h0 => ensures_next (h.setF (fquot_lt laws (fr ra) (fr rb) h0))
  | finv rd ra =>
    exact .guard (h.raise _ _) fun h0 => ensures_next (h.setF (fquot_lt laws (one_lt_card h.params) (fr ra) h0))
  | fnze rd imm => exact .guard (h.raise _ _) fun _ => ensures_next (h.setF (nz_getD_lt h.params imm))
  | pgetc rd ra imm => exact ensures_next (h.setF (coef_lt (pr ra).2.1 imm))
  | vgete rd b imm => exact .guard (h.raise _ _) fun _ => ensures_next (h.setF (elemAt_lt (h.storage.buf b).1 imm))
  | ftst | ptst => exact ensures_next (h.setZO _ _)
  | fmax | fget | pdeg | vwt => exact ensures_next (h.setDout _)
  | pclr rd => exact ensures_next (h.setP (polyOk_nil _))
  | pmov rd ra => exact ensures_next (h.setP (pr ra))
  | psetc rd ra imm =>
    exact .guard (h.raise _ _) fun hi => ensures_next (h.setP (polyOk_setCoef (Nat.not_le.1 hi) (fr ra) (pr rd)))
  | padd rd ra rb | psub rd ra rb => exact ensures_next (h.setP (polyOk_polyAdd (pr ra) (pr rb)))
  | pmul rd ra rb =>
    exact .ite (fun hf => ensures_next (h.setP (polyOk_polyMul h.params (pr ra) (pr rb) hf))) fun _ =>
      ensures_next (h.raise _ _)
  | pscl rd ra rb => exact ensures_next (h.setP (polyOk_polyScale h.params (fr rb) (pr ra)))
  | pdivrem rd rc ra rb =>
    refine .guard (h.raise _ _) fun h0 => ensures_next ?_
    obtain ⟨hq, hr⟩ := polyOk_divRem h.params (pr ra) (pr rb) h0
    exact (h.setP hq).setP hr
  | pshr rd ra imm => exact ensures_next (h.setP (polyOk_polyShr imm (pr ra)))
  | phgcd ra rb =>
    refine .guard (h.raise _ _) fun hd => ensures_next ?_
    obtain ⟨hm, hqs⟩ := halfGcd_storage h ra rb (Nat.not_lt.1 hd)
    exact h.setMQ hm hqs
  | pfgcd rd ra rb =>
    refine .guard (h.raise _ _) fun hd => ensures_next ?_
    obtain ⟨hm, hqs, hg⟩ := fullGcd_storage h ra rb (Nat.not_lt.1 hd)
    exact (h.setMQ hm hqs).setP hg
  | mapply rd rc ra rb => exact execMapply_inv h rd rc ra rb
  | mget rd imm => exact execMget_inv h rd imm
  | qget rd imm => exact execQget_inv h rd imm
  | pinv rd ra rb =>
    exact .guard (h.raise _ _) fun h0 => ensures_next (h.putInverse rd fun _ hq =>
      polyOk_invert h.params (pr ra) (pr rb) h0 hq)
  | pmodf rd =>
    exact .guard (h.raise _ _) fun h0 => ensures_next (h.setP (polyOk_ringModulus h.params h0 h.sizes.2))
  | rmul rd ra rb =>
    exact .guard (h.raise _ _) fun h0 => ensures_next (h.setP (polyOk_ringMul h.params h0 h.sizes.2 (pr ra) (pr rb)))
  | rinv rd ra =>
    exact .guard (h.raise _ _) fun h0 => ensures_next (h.putInverse rd fun _ hq =>
      polyOk_invert h.params (pr ra) (polyOk_ringModulus h.params h0 h.sizes.2) (ringModulus_ne_nil h0) hq)
  | ksetr imm =>
    exact .guard (h.raise _ _) fun hr => .guard (h.raise _ _) fun hw => ensures_next
      (h.setR (Nat.not_lt.1 (not_or.1 hr).2) (Nat.not_lt.1 hw))
  | ksetw imm => exact .guard (h.raise _ _) fun hw => ensures_next (h.setW (Nat.not_lt.1 hw))
  | vinit b imm =>
    exact .guard (h.raise _ _) fun hc => ensures_next
      (h.setBuf ⟨elemsOk_zeroVec imm, (length_zeroVec imm).le.trans (Nat.not_lt.1 hc)⟩)
  | vsete b ra imm =>
    obtain ⟨hel, hlen⟩ := h.storage.buf b
    exact .guard (h.raise _ _) fun _ => ensures_next
      (h.setBuf ⟨elemsOk_set hel (fr ra), (List.length_set ..).le.trans hlen⟩)
  | p2v b ra imm =>
    exact .guard (h.raise _ _) fun hc => .guard (h.raise _ _) fun _ => ensures_next
      (h.setBuf ⟨elemsOk_vecOfPoly (pr ra).2.1, (length_vecOfPoly _ imm).le.trans (Nat.not_lt.1 hc)⟩)
  | v2p rd b => exact ensures_next (h.setP (polyOk_polyOfVec h b))
  | kder => exact execKder_inv h
  | encodeMsg =>
    obtain ⟨hlen, hel⟩ := encodeVec_spec laws (h.storage.buf .msg).1 (h.storage.buf .g).1 s.bsize
    exact .guard (h.raise _ _) fun _ => .guard (h.raise _ _) fun _ => ensures_next
      (h.setBuf (bufOk_of_twoBlocks h rfl hel hlen))
  | synd => exact .guard (h.raise _ _) fun _ => .guard (h.raise _ _) fun _ => ensures_next h.syndrome
  | dstep =>
    refine .guard (h.raise _ _) fun h0 => .guard (h.raise _ _) fun hlen => ensures_next ?_
    simp only [not_or, not_not] at hlen
    obtain ⟨-, -, -, hev⟩ := hlen
    exact (h.iterate h0 hev).1
  | decodeCw imm => exact execDecode_inv h imm

/-- The storage invariant reads nothing of the bookkeeping. -/
theorem inv_frame (hf : SameExcept bookkeeping s t) (h : s.Inv) : t.Inv :=
  h.same (hf .cfg (by decide)) (fun j => hf (.f j) (by simp [bookkeeping])) (fun j => hf (.p j) (by simp [bookkeeping]))
    (hf .m (by decide)) (hf .qseq (by decide)) (fun c => hf (.buf c) (by simp [bookkeeping])) (hf .r (by decide))
    (hf .w (by decide))

/-- Settles O19: a reset state is sound, and every command writes only what fits. -/
theorem everyStepKeepsTheStorageInvariant : Obligations.EveryStepKeepsTheStorageInvariant := fun _ t hs ht =>
  step_keeps (fun _ _ => inv_frame) (fun _ h => Inv_resetState h.params) (fun _ i _ _ => exec_keeps_inv i) hs t ht

end Sys2Proof.StateRules

/-! # Proofs: the encoding (30_encoding.md). Decoder, encoder and opcode map say the same of every word. -/

namespace Sys2Proof.Encoding

open Sys2Proof.Machine Sys2Proof.Statements Sys2Proof.StateRules Sys2Proof.Laws

variable {w : Word} {i : Instr}

/-! ## A word is its fields (R81, R82) -/

/-- w[7:0], zero in format R. -/
def lowField (w : Word) : Nat := w.toNat % 2 ^ 8

theorem wordR_eq_iff {op rd ra rb rc : Nat} (hop : op < 256) (hd : rd < 16) (ha : ra < 16) (hb : rb < 16)
    (hc : rc < 16) : wordR op rd ra rb rc = w ↔ opField w = op ∧ (rdField w : Nat) = rd ∧ (raField w : Nat) = ra ∧
      (rbField w : Nat) = rb ∧ (rcField w : Nat) = rc ∧ lowField w = 0 := by
  have hw := w.isLt
  simp only [← BitVec.toNat_inj, wordR, BitVec.toNat_ofNat, opField, rdField, raField, rbField, rcField, nibble,
    lowField]
  omega

theorem wordI_eq_iff {op rd ra imm : Nat} (hop : op < 256) (hd : rd < 16) (ha : ra < 16) (hi : imm < 65536) :
    wordI op rd ra imm = w ↔ opField w = op ∧ (rdField w : Nat) = rd ∧ (raField w : Nat) = ra ∧ immField w = imm := by
  have hw := w.isLt
  simp only [← BitVec.toNat_inj, wordI, BitVec.toNat_ofNat, opField, rdField, raField, nibble, immField]
  omega

/-! ## What each operand shape of the decoder asks for (R89 step 2) -/

variable {d : Except DecodeError Instr}

theorem whenZero_eq_ok {z : Bool} : whenZero z d = .ok i ↔ z = true ∧ d = .ok i := by
  cases z <;> simp [whenZero]

theorem low12_eq_zero : w.toNat % 2 ^ 12 = 0 ↔ rcField w = 0 ∧ lowField w = 0 := by
  simp only [rcField, nibble, lowField, Fin.ext_iff, Fin.val_zero]
  omega

theorem low16_eq_zero : w.toNat % 2 ^ 16 = 0 ↔ rbField w = 0 ∧ rcField w = 0 ∧ lowField w = 0 := by
  rw [← low12_eq_zero]
  simp only [rbField, nibble, Fin.ext_iff, Fin.val_zero]
  omega

theorem low20_eq_zero : w.toNat % 2 ^ 20 = 0 ↔ raField w = 0 ∧ rbField w = 0 ∧ rcField w = 0 ∧ lowField w = 0 := by
  rw [← low16_eq_zero]
  simp only [raField, nibble, Fin.ext_iff, Fin.val_zero]
  omega

theorem low24_eq_zero : w.toNat % 2 ^ 24 = 0 ↔
    rdField w = 0 ∧ raField w = 0 ∧ rbField w = 0 ∧ rcField w = 0 ∧ lowField w = 0 := by
  rw [← low20_eq_zero]
  simp only [rdField, nibble, Fin.ext_iff, Fin.val_zero]
  omega

@[simp] theorem shapeNone_eq_ok {c : Instr} : shapeNone w c = .ok i ↔
    (rdField w = 0 ∧ raField w = 0 ∧ rbField w = 0 ∧ rcField w = 0 ∧ lowField w = 0) ∧ c = i := by
  rw [shapeNone, whenZero_eq_ok, beq_iff_eq, low24_eq_zero, Except.ok.injEq]

@[simp] theorem shapeD_eq_ok {k : Fin 16 → Instr} : shapeD w k = .ok i ↔
    (raField w = 0 ∧ rbField w = 0 ∧ rcField w = 0 ∧ lowField w = 0) ∧ k (rdField w) = i := by
  rw [shapeD, whenZero_eq_ok, beq_iff_eq, low20_eq_zero, Except.ok.injEq]

@[simp] theorem shapeA_eq_ok {k : Fin 16 → Except DecodeError Instr} : shapeA w k = .ok i ↔
    (rdField w = 0 ∧ rbField w = 0 ∧ rcField w = 0 ∧ lowField w = 0) ∧ k (raField w) = .ok i := by
  rw [shapeA, whenZero_eq_ok, Bool.and_eq_true, beq_iff_eq, beq_iff_eq, low16_eq_zero]

@[simp] theorem shapeDA_eq_ok {k : Fin 16 → Fin 16 → Except DecodeError Instr} : shapeDA w k = .ok i ↔
    (rbField w = 0 ∧ rcField w = 0 ∧ lowField w = 0) ∧ k (rdField w) (raField w) = .ok i := by
  rw [shapeDA, whenZero_eq_ok, beq_iff_eq, low16_eq_zero]

@[simp] theorem shapeAB_eq_ok {k : Fin 16 → Fin 16 → Instr} : shapeAB w k = .ok i ↔
    (rdField w = 0 ∧ rcField w = 0 ∧ lowField w = 0) ∧ k (raField w) (rbField w) = i := by
  rw [shapeAB, whenZero_eq_ok, Bool.and_eq_true, beq_iff_eq, beq_iff_eq, low12_eq_zero, Except.ok.injEq]

@[simp] theorem shapeDAB_eq_ok {k : Fin 16 → Fin 16 → Fin 16 → Instr} : shapeDAB w k = .ok i ↔
    (rcField w = 0 ∧ lowField w = 0) ∧ k (rdField w) (raField w) (rbField w) = i := by
  rw [shapeDAB, whenZero_eq_ok, beq_iff_eq, low12_eq_zero, Except.ok.injEq]

@[simp] theorem shapeDCAB_eq_ok {k : Fin 16 → Fin 16 → Fin 16 → Fin 16 → Instr} : shapeDCAB w k = .ok i ↔
    lowField w = 0 ∧ k (rdField w) (rcField w) (raField w) (rbField w) = i := by
  rw [shapeDCAB, whenZero_eq_ok, beq_iff_eq, ← lowField, Except.ok.injEq]

@[simp] theorem shapeI_eq_ok {k : Nat → Instr} : shapeI w k = .ok i ↔
    (rdField w = 0 ∧ raField w = 0) ∧ k (immField w) = i := by
  rw [shapeI, whenZero_eq_ok, Bool.and_eq_true, beq_iff_eq, beq_iff_eq, Except.ok.injEq]

@[simp] theorem shapeDI_eq_ok {k : Fin 16 → Nat → Except DecodeError Instr} : shapeDI w k = .ok i ↔
    raField w = 0 ∧ k (rdField w) (immField w) = .ok i := by
  rw [shapeDI, whenZero_eq_ok, beq_iff_eq]

@[simp] theorem shapeDAI_eq_ok {k : Fin 16 → Fin 16 → Nat → Except DecodeError Instr} :
    shapeDAI w k = .ok i ↔ k (rdField w) (raField w) (immField w) = .ok i := .rfl

theorem bufOfId_eq_some {n : Nat} {b : Buf} : bufOfId n = some b ↔ n = bufId b := by
  constructor
  · intro h
    unfold bufOfId at h
    split at h <;> cases h <;> rfl
  · rintro rfl
    cases b <;> rfl

@[simp] theorem withBuf_eq_ok {x : Fin 16} {k : Buf → Instr} :
    withBuf x k = .ok i ↔ ∃ b, (x : Nat) = bufId b ∧ k b = i := by
  simp only [← bufOfId_eq_some, withBuf]
  cases bufOfId x <;> simp

/-! ## Decoder and encoder are inverse (R85, R89) -/

/-- Every line of the decoder answers a command with the fields of the word, zero where it asked for zero, and a word
is its fields. -/
theorem encode_of_decode (h : decode w = .ok i) : encode i = w := by
  revert h
  unfold decode
  split <;> simp only [shapeNone_eq_ok, shapeD_eq_ok, shapeA_eq_ok, shapeDA_eq_ok, shapeAB_eq_ok, shapeDAB_eq_ok,
    shapeDCAB_eq_ok, shapeI_eq_ok, shapeDI_eq_ok, shapeDAI_eq_ok, withBuf_eq_ok, Except.ok.injEq, reduceCtorEq,
    false_imp_iff, and_imp, forall_exists_index]
  all_goals
    intros
    subst i
    simp [encode, wordR_eq_iff, wordI_eq_iff, immField_lt, bufId_lt, *]

/-- The word of a command has the command's operands in its fields, and the line of its opcode reads them back. -/
theorem decode_encode (h : i.wellFormed = true) : decode (encode i) = .ok i := by
  generalize hw : encode i = w
  cases i with
  | nop | sreset | fmax | kder | encodeMsg | synd | dstep | ftst | fget | pdeg | ptst | vwt | pclr | pmodf | fmov | finv
  | pmov | rinv | v2p | phgcd | fadd | fsub | fmul | fdiv | padd | psub | pmul | pscl | pfgcd | pinv | rmul | pdivrem
  | mapply =>
    simp only [encode, wordR_eq_iff, Nat.reduceLT, Fin.is_lt, bufId_lt, Fin.val_inj, Fin.val_eq_zero_iff] at hw
    simp [decode, hw]
  | fli | fnze | psetc | pgetc | pshr | mget | qget | ksetr | ksetw | vinit | vsete | vgete | p2v | decodeCw =>
    have hi := of_decide_eq_true h
    simp only [encode, wordI_eq_iff, Nat.reduceLT, Fin.is_lt, bufId_lt, hi, Fin.val_inj, Fin.val_eq_zero_iff] at hw
    simp [decode, hw]

/-- Settles O2: the fields of the command's word are its operands. -/
theorem decodeOfEncodeIsTheCommand : Obligations.DecodeOfEncodeIsTheCommand := fun _ => decode_encode

/-- Settles O3: the decoder reads every field of the word, or asks it to be zero. -/
theorem encodeOfDecodeIsTheWord : Obligations.EncodeOfDecodeIsTheWord := fun w i h =>
  ⟨decode_wellFormed w i h, encode_of_decode h⟩

/-- Settles O1: each word is read off the decoder. -/
theorem specWordsDecodeAsWritten : Obligations.SpecWordsDecodeAsWritten :=
  ⟨rfl, rfl, rfl, rfl, rfl, rfl, rfl, rfl, rfl, rfl, rfl, rfl, rfl, rfl, rfl⟩

/-! ## A mask asks for fields to be zero (R85) -/

theorem opField_lt (w : Word) : opField w < 2 ^ 8 := Nat.div_lt_of_lt_mul w.isLt

theorem opField_and {m : Word} (h : opField m = 255) : opField (w &&& m) = opField w := by
  have hand : opField (w &&& m) = opField w &&& opField m := by
    simp only [opField, BitVec.toNat_and, Nat.and_div_two_pow]
  rw [hand, h, Nat.and_two_pow_sub_one_eq_mod _ 8, Nat.mod_eq_of_lt (opField_lt w)]

theorem nibble_and_eq_zero {m : Word} {lo : Nat} (h : nibble m lo = 0 ∨ nibble m lo = 15) :
    (nibble (w &&& m) lo : Nat) = 0 ↔ (nibble m lo ≠ 0 → nibble w lo = 0) := by
  have hand : (nibble (w &&& m) lo : Nat) = nibble w lo &&& nibble m lo := by
    simp only [nibble, BitVec.toNat_and, Nat.and_div_two_pow]
    exact Nat.and_mod_two_pow (n := 4)
  have hfull : (nibble w lo : Nat) &&& 15 = nibble w lo :=
    (Nat.and_two_pow_sub_one_eq_mod _ 4).trans (Nat.mod_eq_of_lt (nibble w lo).isLt)
  obtain h | h := h <;> simp [hand, h, hfull]

theorem lowField_and_eq_zero {m : Word} (h : lowField m = 0 ∨ lowField m = 255) :
    lowField (w &&& m) = 0 ↔ (lowField m ≠ 0 → lowField w = 0) := by
  have hand : lowField (w &&& m) = lowField w &&& lowField m := by
    simp only [lowField, BitVec.toNat_and, Nat.and_mod_two_pow]
  have hfull : lowField w &&& 255 = lowField w := (Nat.and_two_pow_sub_one_eq_mod _ 8).trans (Nat.mod_mod _ _)
  obtain h | h := h <;> simp [hand, h, hfull]

/-- The form every row of the map has: the pattern is an opcode, and the mask holds or leaves out whole fields, the
opcode always held. -/
abbrev RegularRow (row : MapRow) : Prop :=
  row.pattern = wordR (opField row.pattern) 0 0 0 0 ∧ opField row.mask = 255 ∧
  (rdField row.mask = 0 ∨ rdField row.mask = 15) ∧ (raField row.mask = 0 ∨ raField row.mask = 15) ∧
  (rbField row.mask = 0 ∨ rbField row.mask = 15) ∧ (rcField row.mask = 0 ∨ rcField row.mask = 15) ∧
  (lowField row.mask = 0 ∨ lowField row.mask = 255)

theorem opcodeMap_regular : ∀ row ∈ opcodeMap, RegularRow row := by decide +kernel

/-- A field of kind b holds a buffer's id (R83). -/
def BufferInRange (lo : Option Nat) (w : Word) : Prop := ∀ k, lo = some k → w.toNat / 2 ^ k % 16 ≤ 6

/-- The operand fields that a mask holds are zero. -/
def MaskedFieldsZero (m w : Word) : Prop :=
  (rdField m ≠ 0 → rdField w = 0) ∧ (raField m ≠ 0 → raField w = 0) ∧ (rbField m ≠ 0 → rbField w = 0) ∧
    (rcField m ≠ 0 → rcField w = 0) ∧ (lowField m ≠ 0 → lowField w = 0)

/-- What a row asks of a word with its opcode: zero in the fields its mask holds, a buffer's id where it names one. -/
def OperandsFit (row : MapRow) (w : Word) : Prop := MaskedFieldsZero row.mask w ∧ BufferInRange row.bufLow w

variable {row : MapRow}

theorem and_mask_eq_pattern (h : RegularRow row) :
    w &&& row.mask = row.pattern ↔ opField w = opField row.pattern ∧ MaskedFieldsZero row.mask w := by
  obtain ⟨hp, hop, hd, ha, hb, hc, hl⟩ := h
  rw [eq_comm, hp, wordR_eq_iff (opField_lt _) (by decide) (by decide) (by decide) (by decide), ← hp, opField_and hop,
    lowField_and_eq_zero hl]
  exact and_congr_right' (and_congr (nibble_and_eq_zero hd) (and_congr (nibble_and_eq_zero ha)
    (and_congr (nibble_and_eq_zero hb) (and_congr_left' (nibble_and_eq_zero hc)))))

theorem accepts_iff (h : row ∈ opcodeMap) :
    row.accepts w ↔ opField w = opField row.pattern ∧ OperandsFit row w :=
  (and_congr_left' (and_mask_eq_pattern (opcodeMap_regular row h))).trans and_assoc

theorem le_six_iff_bufId {n : Nat} : n ≤ 6 ↔ ∃ b, n = bufId b := by
  constructor
  · intro h
    interval_cases n
    exacts [⟨.msg, rfl⟩, ⟨.cw, rfl⟩, ⟨.sy, rfl⟩, ⟨.ev, rfl⟩, ⟨.h0, rfl⟩, ⟨.h1, rfl⟩, ⟨.g, rfl⟩]
  · rintro ⟨b, rfl⟩
    cases b <;> decide

@[simp] theorem bufferInRange_none : BufferInRange none w := nofun

@[simp] theorem bufferInRange_rd : BufferInRange (some 20) w ↔ ∃ b, (rdField w : Nat) = bufId b := by
  simp only [← le_six_iff_bufId, BufferInRange, Option.some.injEq, forall_eq', rdField, nibble]

@[simp] theorem bufferInRange_ra : BufferInRange (some 16) w ↔ ∃ b, (raField w : Nat) = bufId b := by
  simp only [← le_six_iff_bufId, BufferInRange, Option.some.injEq, forall_eq', raField, nibble]

/-! ## The opcode map and the decoder (R85, R86) -/

theorem opField_ofNat (n : Nat) : opField (BitVec.ofNat 32 n) = n % 2 ^ 32 / 2 ^ 24 := by
  rw [opField, BitVec.toNat_ofNat]

/-- Every row describes the decoder's line of its opcode: the line answers a command when the operands fit. -/
theorem operandsFit_iff_decode : ∀ row ∈ opcodeMap, opField w = opField row.pattern →
    (OperandsFit row w ↔ ∃ i, decode w = .ok i) := by
  simp only [opcodeMap, List.cons_append, List.nil_append, List.forall_mem_cons, BitVec.ofNat_eq_ofNat, opField_ofNat,
    Nat.reducePow, Nat.reduceMod, Nat.reduceDiv, List.not_mem_nil, false_imp_iff, implies_true, and_true]
  and_intros
  all_goals
    intro hop
    simp +decide [OperandsFit, MaskedFieldsZero, decode, hop]

/-- Two rows never share an opcode. -/
theorem opcodes_nodup : (opcodeMap.map fun row => opField row.pattern).Nodup := by decide +kernel

theorem opField_encode (i : Instr) : opField (encode i) = opcode i := by
  cases i <;> simp [encode, opField_wordR, opField_wordI, bufId_lt, opcode]

/-- Every command has its row: the one with its mnemonic has its opcode. -/
theorem exists_row_of_instr (i : Instr) :
    ∃ row ∈ opcodeMap, row.mnemonic = mnemonicOf i ∧ opField row.pattern = opcode i := by
  cases i <;> simp only [mnemonicOf, opcode] <;> decide +kernel

theorem exists_row_of_decode (h : decode w = .ok i) :
    ∃ row ∈ opcodeMap, row.mnemonic = mnemonicOf i ∧ row.accepts w := by
  obtain ⟨row, hrow, hname, hop⟩ := exists_row_of_instr i
  have hw : opField w = opField row.pattern := by rw [hop, ← opField_encode, encode_of_decode h]
  exact ⟨row, hrow, hname, (accepts_iff hrow).2 ⟨hw, (operandsFit_iff_decode row hrow hw).2 ⟨i, h⟩⟩⟩

theorem decode_of_accepts (hrow : row ∈ opcodeMap) (h : row.accepts w) : ∃ i, decode w = .ok i := by
  obtain ⟨hop, hfit⟩ := (accepts_iff hrow).1 h
  exact (operandsFit_iff_decode row hrow hop).1 hfit

/-- A word is accepted by one row at most: the mask holds the opcode. -/
theorem row_eq_of_accepts {row' : MapRow} (hrow : row ∈ opcodeMap) (hrow' : row' ∈ opcodeMap) (h : row.accepts w)
    (h' : row'.accepts w) : row = row' :=
  List.inj_on_of_nodup_map opcodes_nodup hrow hrow' (((accepts_iff hrow).1 h).1.symm.trans ((accepts_iff hrow').1 h').1)

/-- Settles O4: the rows describe the lines of the decoder, opcode by opcode. -/
theorem opcodeMapDecidesEveryWord : Obligations.OpcodeMapDecidesEveryWord := by
  refine ⟨fun w => ⟨?_, ?_⟩, fun w i => exists_row_of_decode, fun w x hx y hy h h' => ?_⟩
  · rintro ⟨i, h⟩
    obtain ⟨row, hrow, -, hacc⟩ := exists_row_of_decode h
    exact ⟨row, hrow, hacc⟩
  · rintro ⟨row, hrow, h⟩
    exact decode_of_accepts hrow h
  · rw [row_eq_of_accepts hx hy h h']

/-! ## An illegal word (R86, R233) -/

/-- The engine step of a word that does not decode: counted, then raised. -/
theorem engineStep_illegal {s : State} {e : DecodeError} (hs : s.err = none) (hd : decode w = .error e) :
    engineStep w s = .next (s.tick.raise .illegalCommand w) := by
  obtain ⟨h, -, -⟩ | ⟨h, -, -⟩ | ⟨-, -, h⟩ | ⟨-, i, hi, -⟩ := engineStep_cases w s
  · exact absurd hs h
  · exact absurd hs h
  · exact h
  · exact nomatch hd.symm.trans hi

/-- Settles O8: a word no row accepts does not decode, and the step takes it off the list, counts it and raises. -/
theorem illegalWordRaisesIllegalCommand : Obligations.IllegalWordRaisesIllegalCommand := by
  intro s w rest hp hs hrows
  cases hd : decode w with
  | ok i =>
    obtain ⟨row, hrow, -, hacc⟩ := exists_row_of_decode hd
    exact absurd hacc (hrows row hrow)
  | error e =>
    refine ⟨_, (step_action hp).trans (engineStep_illegal hs hd), rfl, rfl, rfl, rfl, ?_⟩
    exact (((same_setPending s rest).trans (same_tick _)).trans (same_raise _ _ w)).mono (by decide)

end Sys2Proof.Encoding

/-! # Proofs: what the statement of a command asks for. Its word's format (R81, R82), its raise (R241). -/

namespace Sys2Proof.Commands

open Sys2Proof.Machine Sys2Proof.Statements

variable {i : Instr} {s : State} {e : ErrorKind} {op rd ra rb rc imm : Nat}

theorem formatR_of_encode (h : encode i = wordR op rd ra rb rc) (hop : op < 256) (hd : rd < 16) (ha : ra < 16)
    (hb : rb < 16) (hc : rc < 16) : FormatR i op rd ra rb rc := by
  simp only [FormatR, h, wordR, BitVec.toNat_ofNat]
  omega

theorem formatI_of_encode (h : encode i = wordI op rd ra imm) (hop : op < 256) (hd : rd < 16) (ha : ra < 16) :
    FormatI i op rd ra imm := by
  intro himm
  simp only [h, wordI, BitVec.toNat_ofNat]
  omega

/-- A command that answers its own raise writes ERR and ERRCMD and nothing else. -/
theorem raises_of_exec (h : exec i s = raised e i s) : Raises i s e := ⟨_, h, same_raise s e _, rfl, rfl⟩

/-- A command that ends by writing one field register. -/
theorem runs_of_setF {d : FReg} {v : Elem} {post : State → Prop} (h : exec i s = .next (s.setF d v))
    (hp : post (s.setF d v)) : Runs i s [.f d] post := ⟨_, h, same_setF s d v, hp⟩

/-- A command that ends by writing DOUT, with a value that fits 32 bits (R28). -/
theorem runs_of_setDout {v : Nat} (h : exec i s = .next (s.setDout v)) (hv : v < 2 ^ 32) :
    Runs i s [.dout] fun t => t.dout.toNat = v := ⟨_, h, same_setDout s v, Nat.mod_eq_of_lt hv⟩

theorem fr_setF_self (s : State) (d : FReg) (v : Elem) : (s.setF d v).fr d = v := by rw [fr_setF, if_pos rfl]

end Sys2Proof.Commands

/-! # Proofs: the field commands (40_field.md). The product is the reduced carry-less one, the quotient is unique, NZ
has one entry for every non-zero element. -/

namespace Sys2Proof.FieldRules

open Sys2Proof.Machine Sys2Proof.Statements Sys2Proof.Commands

variable {P : Params} {s : State}

/-! ## The carry-less product and its reduction (R104) -/

/-- The product reads only the low `k` bits of its right operand. -/
theorem clmul_congr {a b b' k : Nat} (h : ∀ j < k, b.testBit j = b'.testBit j) : clmul a b k = clmul a b' k := by
  induction k with
  | zero => rfl
  | succ k ih => rw [clmul, clmul, ih fun j hj => h j (hj.trans k.lt_succ_self), h k k.lt_succ_self]

/-- A right operand with bit `k` put on top adds one shifted copy of the left operand. -/
theorem clmul_two_pow_add {a q k : Nat} (hq : q < 2 ^ k) :
    clmul a (2 ^ k + q) (k + 1) = clmul a q k ^^^ a <<< k := by
  have htop : (2 ^ k + q).testBit k = true := by rw [Nat.testBit_two_pow_add_eq, Nat.testBit_lt_two_pow hq]; rfl
  rw [clmul, clmul_congr fun j hj => Nat.testBit_two_pow_add_gt hj q, if_pos htop]

/-- A right operand below 2^k has no bit for the turns from `k` on. -/
theorem clmul_succ_of_lt {a q k : Nat} (hq : q < 2 ^ k) : clmul a q (k + 1) = clmul a q k := by
  rw [clmul, Nat.testBit_lt_two_pow hq]
  exact Nat.xor_zero _

/-- Reduction takes away a multiple of POLY: the turns that find their bit set are the bits of the multiplier. -/
theorem reduceBits_spec (n poly k v : Nat) : ∃ q < 2 ^ k, v = reduceBits n poly k v ^^^ clmul poly q k := by
  induction k generalizing v with
  | zero => exact ⟨0, Nat.one_pos, (Nat.xor_zero v).symm⟩
  | succ k ih =>
    have hpow : 2 ^ (k + 1) = 2 ^ k + 2 ^ k := by omega
    by_cases hbit : v.testBit (n + k) = true
    · obtain ⟨q, hq, hv⟩ := ih (v ^^^ poly <<< k)
      refine ⟨2 ^ k + q, by omega, ?_⟩
      rw [reduceBits, if_pos hbit, clmul_two_pow_add hq, ← Nat.xor_assoc, ← hv, Nat.xor_xor_cancel_right]
    · obtain ⟨q, hq, hv⟩ := ih v
      refine ⟨q, by omega, ?_⟩
      rwa [reduceBits, if_neg hbit, clmul_succ_of_lt hq]

theorem fmul_isReducedProduct (h : ParamsOk P) {a b : Elem} (ha : a < P.card) (hb : b < P.card) :
    IsReducedProduct P a b (fmul P a b) := by
  obtain ⟨k, hk⟩ : ∃ k, P.n = k + 1 := Nat.exists_eq_add_of_le' h.n_pos
  obtain ⟨q, hq, hv⟩ := reduceBits_spec P.n P.poly k (clmul a b P.n)
  refine ⟨h.laws.mul_lt a ha b hb, q, hq.trans (Nat.pow_lt_pow_right (by decide) (by omega)), ?_⟩
  have hred : reduceBits P.n P.poly k (clmul a b P.n) = fmul P a b := by rw [fmul, hk, Nat.add_sub_cancel]
  rw [← hred, hk, clmul_succ_of_lt hq, ← hk]
  exact hv

theorem one_fmul (h : ParamsOk P) {a : Elem} (ha : a < P.card) : fmul P 1 a = a := by
  rw [h.laws.mul_comm 1 (one_lt_card h) a ha, h.laws.mul_one a ha]

/-! ## The quotient (R103, R104) -/

/-- (c · y) / y = c: with `fquot_fmul`, the quotient is the one element that multiplies back to the dividend. -/
theorem eq_fquot_of_fmul (L : FieldLaws P) {c x y : Elem} (hc : c < P.card) (hy : y < P.card) (h0 : y ≠ 0)
    (h : fmul P c y = x) : c = fquot P x y := by
  have hi := L.inv_lt y hy h0
  rw [fquot, ← h, L.mul_assoc c hc y hy _ hi, L.mul_comm y hy _ hi, L.inv_mul y hy h0, L.mul_one c hc]

/-- The inverse of a non-zero element is not zero, and its own inverse is the element (R112). -/
theorem fquot_one_involutive (h : ParamsOk P) {y : Elem} (hy : y < P.card) (h0 : y ≠ 0) :
    fquot P 1 y ≠ 0 ∧ fquot P 1 (fquot P 1 y) = y := by
  have h1 := one_lt_card h
  have hlt := fquot_lt h.laws h1 hy h0
  have hmul := fquot_fmul h.laws h1 hy h0
  have hne : fquot P 1 y ≠ 0 := fun hz => by simp [hz] at hmul
  exact ⟨hne, (eq_fquot_of_fmul h.laws hy hlt hne ((h.laws.mul_comm y hy _ hlt).trans hmul)).symm⟩

/-! ## The tables of GF(4) (R102, R103) -/

theorem gf4Product_eq_fmul (hP : P = Params.gf4) {a b : Elem} (ha : a < P.card) (hb : b < P.card) :
    (gf4Product.getD a []).getD b 0 = fmul P a b := by
  subst hP
  have htable : ∀ a < 4, ∀ b < 4, (gf4Product.getD a []).getD b 0 = fmul Params.gf4 a b := by decide
  exact htable a ha b hb

theorem gf4Quotient_eq_fquot (hP : P = Params.gf4) {a b : Elem} (ha : a < P.card) (hb : b < P.card) (h0 : b ≠ 0) :
    (gf4Quotient.getD a []).getD (b - 1) 0 = fquot P a b := by
  subst hP
  have htable : ∀ a < 4, ∀ b < 4, b ≠ 0 → (gf4Quotient.getD a []).getD (b - 1) 0 = fquot Params.gf4 a b := by decide
  exact htable a ha b hb h0

/-! ## The non-zero elements (R105) -/

/-- NZ names every element but 0, each once. -/
theorem length_nz (h : ParamsOk P) : P.nz.length = P.card - 1 := by
  have hset : P.nz.toFinset = (Finset.range P.card).erase 0 := by
    ext a
    simp [h.nz_all]
  rw [← List.toFinset_card_of_nodup h.nz_nodup, hset, Finset.card_erase_of_mem (Finset.mem_range.2 card_pos),
    Finset.card_range]

/-- An index below the number of non-zero elements finds one. -/
theorem getElem?_nz (h : ParamsOk P) {k : Nat} (hk : k < P.card - 1) :
    P.nz[k]? = some (P.nz.getD k 0) ∧ P.nz.getD k 0 ≠ 0 := by
  have hlen : k < P.nz.length := (length_nz h).symm ▸ hk
  rw [List.getD_eq_getElem _ _ hlen]
  exact ⟨List.getElem?_eq_getElem hlen, ((h.nz_all _).1 (List.getElem_mem hlen)).1⟩

theorem fr_lt (h : s.Inv) (j : FReg) : s.fr j < s.cfg.card := h.storage.1 j

/-- An element of F fits DOUT, for N is at most 16 (R5, R28). -/
theorem lt_dout {v : Nat} (h : ParamsOk P) (hv : v < P.card) : v < 2 ^ 32 :=
  hv.trans_le (Nat.pow_le_pow_right (by decide) (h.n_le.trans (by decide)))

/-! ## The commands -/

/-- Settles O26: the value written is the model's product, whose reduction loop takes away a multiple of POLY. -/
theorem fmulIsTheFieldProduct : Obligations.FmulIsTheFieldProduct := by
  intro s rd ra rb h
  have ha := fr_lt h ra
  have hb := fr_lt h rb
  refine ⟨formatR_of_encode rfl (by decide) rd.isLt ra.isLt rb.isLt (by decide), runs_of_setF rfl ?_⟩
  rw [fr_setF_self]
  refine ⟨fmul_isReducedProduct h.params ha hb, fun hP => gf4Product_eq_fmul hP ha hb, ?_, fun h1 => ?_, fun h1 => ?_⟩
  · rintro (h0 | h0) <;> simp [h0]
  · rw [h1, one_fmul h.params hb]
  · rw [h1, h.params.laws.mul_one _ ha]

/-- Settles O27: the quotient multiplies back to the dividend, and nothing else does. -/
theorem fdivIsTheFieldQuotient : Obligations.FdivIsTheFieldQuotient := by
  intro s rd ra rb h
  have L := h.params.laws
  have ha := fr_lt h ra
  have hb := fr_lt h rb
  refine ⟨formatR_of_encode rfl (by decide) rd.isLt ra.isLt rb.isLt (by decide),
    fun h0 => raises_of_exec (if_pos h0), fun h0 => runs_of_setF (if_neg h0) ?_⟩
  rw [fr_setF_self]
  exact ⟨fquot_lt L ha hb h0, fquot_fmul L ha hb h0, fun c hc hm => eq_fquot_of_fmul L hc hb h0 hm,
    fun hP => gf4Quotient_eq_fquot hP ha hb h0⟩

/-- Settles O28: the inverse is the quotient of 1; the second run divides 1 by it and finds the operand again. -/
theorem finvIsTheMultiplicativeInverse : Obligations.FinvIsTheMultiplicativeInverse := by
  intro s rd ra h
  have L := h.params.laws
  have h1 := one_lt_card h.params
  have ha := fr_lt h ra
  refine ⟨formatR_of_encode rfl (by decide) rd.isLt ra.isLt (by decide) (by decide),
    fun h0 => raises_of_exec (if_pos h0), fun h0 => runs_of_setF (if_neg h0) ?_⟩
  obtain ⟨hne, hinv⟩ := fquot_one_involutive h.params ha h0
  rw [fr_setF_self]
  refine ⟨fquot_lt L h1 ha h0, fquot_fmul L h1 ha h0, fun c hc hm => eq_fquot_of_fmul L hc ha h0 hm,
    runs_of_setF (if_neg ((fr_setF_self s rd _).symm ▸ hne)) ?_⟩
  rw [fr_setF_self, fr_setF_self]
  exact hinv

/-- Settles O29: NZ has 2^N − 1 entries, so an index below finds one, and in ascending order it is the index + 1. -/
theorem fnzeEnumeratesTheNonZeroElements : Obligations.FnzeEnumeratesTheNonZeroElements := by
  intro s rd imm h
  refine ⟨formatI_of_encode rfl (by decide) rd.isLt (by decide),
    fun hi => runs_of_setF (if_neg (not_le.2 hi)) ?_, fun hi => raises_of_exec (if_pos hi)⟩
  obtain ⟨hget, hne⟩ := getElem?_nz h.params hi
  rw [fr_setF_self]
  refine ⟨hget, hne, fun hasc => ?_⟩
  rw [hasc]
  simp [hi]

/-- Settles O24: the bound of the test is 2^N. -/
theorem fliLoadsAnElement : Obligations.FliLoadsAnElement := fun s rd imm =>
  ⟨formatI_of_encode rfl (by decide) rd.isLt (by decide),
    fun hi => runs_of_setF (if_neg (not_le.2 hi)) (fr_setF_self s rd imm), fun hi => raises_of_exec (if_pos hi)⟩

/-- Settles O25: each writes one register, and sum and difference are the same exclusive-or (R101). -/
theorem fieldCopyAddSubtract : Obligations.FieldCopyAddSubtract := by
  intro s rd ra rb
  refine ⟨⟨?_, runs_of_setF rfl (fr_setF_self s rd _)⟩, ⟨?_, runs_of_setF rfl (fr_setF_self s rd _)⟩,
    ⟨?_, runs_of_setF rfl (fr_setF_self s rd _)⟩⟩
  · exact formatR_of_encode rfl (by decide) rd.isLt ra.isLt (by decide) (by decide)
  · exact formatR_of_encode rfl (by decide) rd.isLt ra.isLt rb.isLt (by decide)
  · exact formatR_of_encode rfl (by decide) rd.isLt ra.isLt rb.isLt (by decide)

/-- Settles O30: FTST writes two flags, FMAX and FGET write DOUT, which holds every element. -/
theorem fieldTestAndReadOut : Obligations.FieldTestAndReadOut := by
  intro s ra h
  have hmax : s.cfg.card - 1 < s.cfg.card := Nat.sub_one_lt card_pos.ne'
  refine ⟨⟨formatR_of_encode rfl (by decide) (by decide) ra.isLt (by decide) (by decide), _, rfl, same_setZO s _ _,
      beq_iff_eq, beq_iff_eq⟩,
    ⟨formatR_of_encode rfl (by decide) (by decide) (by decide) (by decide) (by decide),
      runs_of_setDout rfl (lt_dout h.params hmax)⟩,
    ⟨formatR_of_encode rfl (by decide) (by decide) ra.isLt (by decide) (by decide),
      runs_of_setDout rfl (lt_dout h.params (fr_lt h ra))⟩⟩

end Sys2Proof.FieldRules

/-! # Proofs: what the statement of a command that writes a polynomial register asks for (R21, R236). -/

namespace Sys2Proof.Commands

open Sys2Proof.Machine Sys2Proof.Statements

/-- A command that ends by writing one polynomial register. -/
theorem runs_of_setP {i : Instr} {s : State} {d : PReg} {v : Poly} {post : State → Prop}
    (h : exec i s = .next (s.setP d v)) (hp : post (s.setP d v)) : Runs i s [.p d] post := ⟨_, h, same_setP s d v, hp⟩

theorem pr_setP_self (s : State) (d : PReg) (v : Poly) : (s.setP d v).pr d = v := by rw [pr_setP, if_pos rfl]

end Sys2Proof.Commands

/-! # Proofs: the polynomial commands (41_poly.md). The product of non-zero polynomials has the sum of their degrees, a
non-zero scalar keeps the degree, and quotient and remainder are unique. -/

namespace Sys2Proof.PolyRules

open Sys2Proof.Machine Sys2Proof.Statements Sys2Proof.Commands Sys2Proof.StateRules Sys2Proof.FieldRules

variable {P : Params} {s : State}

/-! ## The degree of a product (R123) -/

/-- F[x] has no zero divisors, and the degrees of non-zero factors add up. -/
theorem polyMul_ne_nil_and_deg (h : ParamsOk P) {a b : Poly} (ha : polyOk P a) (hb : polyOk P b) (hane : a ≠ [])
    (hbne : b ≠ []) : polyMul P a b ≠ [] ∧ deg (polyMul P a b) = deg a + deg b := by
  obtain ⟨K, _, φ, F⟩ := h.exists_fieldMap
  obtain ⟨hca, hea, -⟩ := ha
  obtain ⟨hcb, heb, -⟩ := hb
  have hcm := canonical_polyMul (P := P) a b
  have hem := elemsOk_polyMul h.laws hea heb
  have hmul := F.toPoly_mul h.laws hea heb
  have ha0 := mt (F.toPoly_eq_zero hca hea).1 hane
  have hb0 := mt (F.toPoly_eq_zero hcb heb).1 hbne
  constructor
  · rw [Ne, ← F.toPoly_eq_zero hcm hem, hmul]
    exact mul_ne_zero ha0 hb0
  · rw [← F.natDegree_toPoly hcm hem, hmul, Polynomial.natDegree_mul ha0 hb0, F.natDegree_toPoly hca hea,
      F.natDegree_toPoly hcb heb]

/-- A product of non-zero polynomials fits a register exactly when the degrees' sum is below LMAX (R135, R139). -/
theorem fits_polyMul_iff (h : ParamsOk P) {a b : Poly} (ha : polyOk P a) (hb : polyOk P b) (hane : a ≠ [])
    (hbne : b ≠ []) : fits P (polyMul P a b) = true ↔ deg a + deg b < P.lmax := by
  obtain ⟨hne, hdeg⟩ := polyMul_ne_nil_and_deg h ha hb hane hbne
  rw [fits_iff, ← deg_add_one hne, hdeg, Nat.add_one_le_iff]

theorem fits_nil : fits P [] = true := fits_iff.2 (Nat.zero_le _)

theorem polyMul_eq_nil {a b : Poly} (h : a = [] ∨ b = []) : polyMul P a b = [] := by
  rcases h with rfl | rfl
  · exact nil_polyMul b
  · exact polyMul_nil a

/-! ## The degree of a scalar multiple (R124) -/

/-- F has no zero divisors: c · x = 0 makes x the quotient 0 / c. -/
theorem eq_zero_of_fmul (L : FieldLaws P) {c x : Elem} (hc : c < P.card) (h0 : c ≠ 0) (hx : x < P.card)
    (h : fmul P c x = 0) : x = 0 :=
  (eq_fquot_of_fmul L hx hc h0 ((L.mul_comm x hx c hc).trans h)).trans (fmul_zero_left _)

theorem polyScale_zero (a : Poly) : polyScale P 0 a = [] :=
  poly_ext (canonical_polyScale 0 a) canonical_nil fun k => by
    rw [coef_polyScale, fmul_zero_left, coef_nil]

/-- A non-zero scalar makes no coefficient zero, so the leading one stays. -/
theorem length_polyScale (L : FieldLaws P) {c : Elem} (hc : c < P.card) (h0 : c ≠ 0) {a : Poly} (ha : canonical a)
    (ea : elemsOk P a) : (polyScale P c a).length = a.length := by
  refine (length_polyScale_le c a).antisymm (length_le_of_coef ha fun k hk => ?_)
  refine eq_zero_of_fmul L hc h0 (coef_lt ea k) ?_
  rw [← coef_polyScale, coef_of_length_le hk]

/-! ## A stored degree (R121, R131) -/

/-- A stored degree fits DOUT, for LMAX is at most 65534 (R5, R28). -/
theorem deg_lt_dout (h : s.Inv) (j : PReg) : deg (s.pr j) < 2 ^ 32 := by
  have hlen := (h.storage.pr j).2.2
  have hmax := lmax_lt h.params
  unfold deg
  omega

/-! ## The commands -/

/-- Settles O35: the register gets the product exactly when its degree, the sum of the factors', is below LMAX. -/
theorem pmulIsThePolynomialProduct : Obligations.PmulIsThePolynomialProduct := by
  intro s rd ra rb h
  have ha := h.storage.pr ra
  have hb := h.storage.pr rb
  refine ⟨formatR_of_encode rfl (by decide) rd.isLt ra.isLt rb.isLt (by decide), fun h0 => ?_,
    fun hane hbne hd => ?_, fun hane hbne hd => ?_⟩
  · have hzero : polyMul s.cfg (s.pr ra) (s.pr rb) = [] := polyMul_eq_nil h0
    refine runs_of_setP (if_pos (hzero ▸ fits_nil)) ?_
    rw [pr_setP_self, hzero]
  · refine runs_of_setP (if_pos ((fits_polyMul_iff h.params ha hb hane hbne).2 hd)) ?_
    rw [pr_setP_self]
    exact ⟨canonical_polyMul _ _, coef_polyMul _ _, polyMul_ne_nil_and_deg h.params ha hb hane hbne⟩
  · exact raises_of_exec (if_neg (mt (fits_polyMul_iff h.params ha hb hane hbne).1 (not_lt.2 hd)))

/-- Settles O37: the two results are the division's, the only such pair; the second write stays when rd = rc. -/
theorem pdivremIsEuclideanDivision : Obligations.PdivremIsEuclideanDivision := by
  intro s rd rc ra rb h
  obtain ⟨hca, hea, -⟩ := h.storage.pr ra
  obtain ⟨hcb, heb, -⟩ := h.storage.pr rb
  refine ⟨formatR_of_encode rfl (by decide) rd.isLt ra.isLt rb.isLt rc.isLt, fun h0 => raises_of_exec (if_pos h0),
    fun hne => ?_⟩
  obtain ⟨hdiv, -, -⟩ := divRem_spec h.params hca hea hcb heb hne
  refine ⟨_, _, hdiv, fun q' r' h' => isDivRem_unique h.params hcb heb hne hdiv h', _, if_neg hne,
    (same_setP s rd _).trans (same_setP _ rc _), pr_setP_self _ rc _, fun hdc => ?_⟩
  rw [pr_setP, if_neg hdc, pr_setP_self]

/-- Settles O36: a coefficient of the scalar multiple is the scalar times the coefficient. -/
theorem psclScalesEveryCoefficient : Obligations.PsclScalesEveryCoefficient := by
  intro s rd ra rb h
  obtain ⟨hca, hea, -⟩ := h.storage.pr ra
  refine ⟨formatR_of_encode rfl (by decide) rd.isLt ra.isLt rb.isLt (by decide), runs_of_setP rfl ?_⟩
  rw [pr_setP_self]
  refine ⟨canonical_polyScale _ _, coef_polyScale _ _, fun h0 => ?_,
    fun h0 => length_polyScale h.params.laws (fr_lt h rb) h0 hca hea⟩
  rw [h0, polyScale_zero]

/-- Settles O32: the coefficients of `setCoef`; the index alone decides the raise. -/
theorem psetcSetsOneCoefficient : Obligations.PsetcSetsOneCoefficient := by
  intro s rd ra imm
  refine ⟨formatI_of_encode rfl (by decide) rd.isLt ra.isLt, fun hi => runs_of_setP (if_neg (not_le.2 hi)) ?_,
    fun hi => raises_of_exec (if_pos hi)⟩
  rw [pr_setP_self]
  refine ⟨canonical_setCoef _ _ _, ?_, fun k hk => ?_⟩
  · rw [coef_setCoef, if_pos rfl]
  · rw [coef_setCoef, if_neg hk]

/-- Settles O34: both commands write the same sum, for −1 = 1 in F (R122). -/
theorem polyAddAndSubtract : Obligations.PolyAddAndSubtract := by
  intro s rd ra rb
  have hsum : canonical ((s.setP rd (polyAdd (s.pr ra) (s.pr rb))).pr rd) ∧
      ∀ k, coef ((s.setP rd (polyAdd (s.pr ra) (s.pr rb))).pr rd) k = coef (s.pr ra) k ^^^ coef (s.pr rb) k := by
    rw [pr_setP_self]
    exact ⟨canonical_polyAdd _ _, coef_polyAdd _ _⟩
  exact ⟨⟨formatR_of_encode rfl (by decide) rd.isLt ra.isLt rb.isLt (by decide), runs_of_setP rfl hsum⟩,
    formatR_of_encode rfl (by decide) rd.isLt ra.isLt rb.isLt (by decide), runs_of_setP rfl hsum⟩

/-- Settles O38: dropping coefficients of a canonical polynomial leaves a canonical one. -/
theorem pshrDropsLowCoefficients : Obligations.PshrDropsLowCoefficients := by
  intro s rd ra imm h
  obtain ⟨hca, -, -⟩ := h.storage.pr ra
  refine ⟨formatI_of_encode rfl (by decide) rd.isLt ra.isLt, runs_of_setP rfl ?_⟩
  rw [pr_setP_self]
  refine ⟨canonical_polyShr hca, coef_polyShr imm _, fun h0 => ?_, fun hlen => List.drop_eq_nil_of_le hlen⟩
  rw [h0]
  exact List.drop_zero

/-- Settles O33: a read above the degree finds no coefficient, and DOUT holds every degree. -/
theorem polyReadDegreeTest : Obligations.PolyReadDegreeTest := by
  intro s rd ra imm h
  refine ⟨⟨formatI_of_encode rfl (by decide) rd.isLt ra.isLt, runs_of_setF rfl ?_⟩,
    ⟨formatR_of_encode rfl (by decide) (by decide) ra.isLt (by decide) (by decide), _, rfl, same_setDout s _, ?_⟩,
    ⟨formatR_of_encode rfl (by decide) (by decide) ra.isLt (by decide) (by decide), _, rfl, same_setZO s _ _,
      beq_iff_eq, beq_iff_eq⟩⟩
  · rw [fr_setF_self]
    exact ⟨rfl, coef_of_length_le⟩
  · refine ⟨fun h0 => ?_, fun hne => ?_⟩
    · rw [setDout_dout, h0]
      rfl
    · rw [setDout_dout, BitVec.toNat_ofNat, Nat.mod_eq_of_lt (deg_lt_dout h ra), deg_add_one hne]

/-- Settles O31: each writes one register. -/
theorem polyClearAndCopy : Obligations.PolyClearAndCopy := fun s rd ra =>
  ⟨⟨formatR_of_encode rfl (by decide) rd.isLt (by decide) (by decide) (by decide),
      runs_of_setP rfl (pr_setP_self s rd _)⟩,
    formatR_of_encode rfl (by decide) rd.isLt ra.isLt (by decide) (by decide),
    runs_of_setP rfl (pr_setP_self s rd _)⟩

end Sys2Proof.PolyRules

/-! # Proofs: the GCD commands (42_gcd.md). Every quotient sequence is undone by its forward matrix, whose determinant
is one; PHGCD and PFGCD are the only commands that write M. -/

namespace Sys2Proof.GcdRules

open Sys2Proof.Machine Sys2Proof.Statements Sys2Proof.Commands Sys2Proof.StateRules Sys2Proof.Scope

variable {P : Params} {s t : State} {a b x : Poly} {i : Instr}

/-! ## Half-GCD and full GCD of a pair (R152, R154) -/

/-- half_gcd(A, B) keeps the first quotients of the Euclidean sequence, as few as give a second remainder below m. -/
theorem halfGcd_steps (h : ParamsOk P) (hab : pairOk P a b) :
    (∃ a' b', EuclidSteps P a b (halfGcd P a b).1 a' b' ∧ deg b' < halfBound a) ∧
      ∀ j < (halfGcd P a b).1.length,
        ∃ a' b', EuclidSteps P a b ((halfGcd P a b).1.take j) a' b' ∧ halfBound a ≤ deg b' :=
  halfLoop_steps h (halfBound_pos a) b.length a b hab le_rfl

theorem halfGcd_matrix (P : Params) (a b : Poly) : (halfGcd P a b).2 = forwardMat P (halfGcd P a b).1 := rfl

theorem fullGcd_steps (h : ParamsOk P) (hab : pairOk P a b) :
    EuclidSteps P a b (fullGcd P a b).seq (fullGcd P a b).gcd [] := euclid_steps h hab

theorem fullGcd_matrix (P : Params) (a b : Poly) :
    (fullGcd P a b).t = matAdj (forwardMat P (fullGcd P a b).seq) := rfl

/-- The adjugate of the adjugate is the matrix (R151). -/
theorem applyAdj_matAdj (P : Params) (m : Mat) (a b : Poly) : applyAdj P (matAdj m) a b = matApply P m a b := rfl

theorem matDet_halfGcd (h : ParamsOk P) (hab : pairOk P a b) (hd : deg b ≤ deg a) :
    matDet P (halfGcd P a b).2 = [1] := by
  obtain ⟨⟨a', b', hsteps, -⟩, -⟩ := halfGcd_steps h hab
  obtain ⟨-, -, hdet, -⟩ := hsteps.matrix h hab hd
  exact hdet

theorem matDet_fullGcd (h : ParamsOk P) (hab : pairOk P a b) (hd : deg b ≤ deg a) :
    matDet P (fullGcd P a b).t = [1] := by
  obtain ⟨-, -, -, hdet⟩ := (fullGcd_steps h hab).matrix h hab hd
  exact hdet

/-- Two registers of a sound state (R21). -/
theorem pairOk_pr (h : s.Inv) (ra rb : PReg) : pairOk s.cfg (s.pr ra) (s.pr rb) := by
  obtain ⟨hca, hea, -⟩ := h.storage.pr ra
  obtain ⟨hcb, heb, -⟩ := h.storage.pr rb
  exact ⟨⟨hca, hea⟩, hcb, heb⟩

/-! ## Every step keeps det M = [1] (R162) -/

theorem detOk_same (hc : t.cfg = s.cfg) (hm : t.m = s.m) (h : s.detOk) : t.detOk := by
  rwa [State.detOk, hc, hm]

/-- Only PHGCD and PFGCD write M (R22). -/
theorem m_written (hm : .m ∈ writtenBy i) : (∃ ra rb, i = .phgcd ra rb) ∨ ∃ rd ra rb, i = .pfgcd rd ra rb := by
  revert hm
  cases i <;> simp [writtenBy]

/-- SRESET puts the identity into M, PHGCD a forward matrix, PFGCD the adjugate of one; no other command writes M. -/
theorem exec_keeps_det (i : Instr) (h : s.Inv) (hdet : s.detOk) : Ensures State.detOk (exec i s) := by
  by_cases hi : i = .sreset
  · subst hi
    exact ensures_next (detOk_resetState h.params)
  by_cases hm : .m ∈ writtenBy i
  · obtain ⟨ra, rb, rfl⟩ | ⟨rd, ra, rb, rfl⟩ := m_written hm
    · exact .guard hdet fun hd => ensures_next (matDet_halfGcd h.params (pairOk_pr h ra rb) (Nat.not_lt.1 hd))
    · exact .guard hdet fun hd => ensures_next (matDet_fullGcd h.params (pairOk_pr h ra rb) (Nat.not_lt.1 hd))
  · exact fun t ht => detOk_same (exec_cfg ht) (exec_same (c := .m) hi ht (by decide) hm) hdet

/-- Settles O21: with the storage invariant, which every command keeps too, the pairs PHGCD and PFGCD work on are sound;
M and the parameters stand outside the bookkeeping. -/
theorem everyStepKeepsTheDeterminantOne : Obligations.EveryStepKeepsTheDeterminantOne := by
  intro s t hinv hdet ht
  have hboth : Ensures (fun u => u.Inv ∧ u.detOk) (step s) := by
    refine step_keeps (fun u v hf hu => ?_) (fun u hu => ?_) (fun w i u _ hu => ?_) ⟨hinv, hdet⟩
    · exact ⟨inv_frame hf hu.1, detOk_same (hf .cfg (by decide)) (hf .m (by decide)) hu.2⟩
    · exact ⟨Inv_resetState hu.1.params, detOk_resetState hu.1.params⟩
    · exact fun v hv => ⟨exec_keeps_inv i hu.1 v hv, exec_keeps_det i hu.1 hu.2 v hv⟩
  exact (hboth t ht).2

/-! ## The commands -/

/-- Settles O39: the quotients are half-GCD's, and their forward matrix takes the last pair to the operands and back. -/
theorem phgcdIsTheMinimalEuclideanPrefix : Obligations.PhgcdIsTheMinimalEuclideanPrefix := by
  intro s ra rb h
  refine ⟨formatR_of_encode rfl (by decide) (by decide) ra.isLt rb.isLt (by decide),
    fun hd => raises_of_exec (if_pos hd), fun hd => ⟨_, if_neg (not_lt.2 hd), same_setMQ s _ _, ?_⟩⟩
  have hab := pairOk_pr h ra rb
  obtain ⟨⟨a', b', hsteps, hlow⟩, hmin⟩ := halfGcd_steps h.params hab
  obtain ⟨happ, hadj, -, -⟩ := hsteps.matrix h.params hab hd
  exact ⟨halfGcd_matrix _ _ _, ⟨a', b', hsteps, hlow, hadj, happ⟩, hmin⟩

/-- Settles O40: the forward matrix of the whole sequence takes (g, 0) to the operands, and M is its adjugate. -/
theorem pfgcdIsTheFullExtendedGcd : Obligations.PfgcdIsTheFullExtendedGcd := by
  intro s rd ra rb h
  refine ⟨formatR_of_encode rfl (by decide) rd.isLt ra.isLt rb.isLt (by decide),
    fun hd => raises_of_exec (if_pos hd),
    fun hd => ⟨_, if_neg (not_lt.2 hd), (same_setMQ s _ _).trans (same_setP _ rd _), ?_⟩⟩
  have hab := pairOk_pr h ra rb
  have hsteps := fullGcd_steps h.params hab
  obtain ⟨happ, hadj, -, -⟩ := hsteps.matrix h.params hab hd
  beta_reduce
  rw [pr_setP_self, setP_m, setP_qseq, setMQ_m, setMQ_qseq, fullGcd_matrix, applyAdj_matAdj]
  exact ⟨hsteps, rfl, hadj, happ⟩

/-- Settles O43: the two outcomes of `invert`; with no inverse only NOINV is written. -/
theorem pinvIsTheModularInverse : Obligations.PinvIsTheModularInverse := by
  intro s rd ra rb b g qs h
  refine ⟨formatR_of_encode rfl (by decide) rd.isLt ra.isLt rb.isLt (by decide),
    fun h0 => raises_of_exec (if_pos h0), fun hne hb hsteps => ?_⟩
  subst hb
  obtain ⟨hp, hm⟩ := pairOk_pr h ra rb
  obtain ⟨hnone, hsome⟩ := invert_spec h.params hp hm hne hsteps
  have hexec : exec (.pinv rd ra rb) s = .next (s.putInverse rd (invert s.cfg (s.pr ra) (s.pr rb))) := if_neg hne
  refine ⟨fun hc => ?_, fun hbne hg => ?_⟩
  · rw [(hnone hc).1] at hexec
    exact ⟨_, hexec, same_putInverse_none s rd, rfl⟩
  · obtain ⟨q, hq, hinv⟩ := hsome hbne hg
    rw [hq] at hexec
    exact ⟨_, hexec, same_putInverse_some s rd q, rfl, (pr_setP_self _ rd q).symm ▸ hinv⟩

/-- A polynomial fits a register exactly when its degree is below LMAX; zero always fits (R139). -/
theorem fits_iff_deg : fits P x = true ↔ x = [] ∨ deg x < P.lmax := by
  rw [fits_iff]
  by_cases hx : x = []
  · simp [hx]
  · simp only [hx, false_or, ← deg_add_one hx, Nat.add_one_le_iff]

/-- Settles O41: both components must fit; the second write stays when the two registers are one. -/
theorem mapplyAppliesTheAdjugate : Obligations.MapplyAppliesTheAdjugate := by
  rintro s rd rc ra rb x y rfl rfl
  refine ⟨formatR_of_encode rfl (by decide) rd.isLt ra.isLt rb.isLt rc.isLt, fun hbig => raises_of_exec (if_neg ?_),
    fun hx hy => ⟨_, if_pos (Bool.and_eq_true_iff.2 ⟨fits_iff_deg.2 hx, fits_iff_deg.2 hy⟩),
      (same_setP s rd _).trans (same_setP _ rc _), pr_setP_self _ rc _, fun hdc => ?_⟩⟩
  · rw [Bool.and_eq_true]
    rintro ⟨hx, hy⟩
    obtain ⟨hne, hdeg⟩ | ⟨hne, hdeg⟩ := hbig
    · exact (fits_iff_deg.1 hx).elim hne (not_lt.2 hdeg)
    · exact (fits_iff_deg.1 hy).elim hne (not_lt.2 hdeg)
  · rw [pr_setP, if_neg hdc]
    exact pr_setP_self s rd _

/-- Row-major access to M is access to the list of its entries (R159). -/
theorem entry_eq_getElem? (m : Mat) (k : Nat) : m.entry k = [m.m00, m.m01, m.m10, m.m11][k]? := by
  match k with
  | 0 | 1 | 2 | 3 => rfl
  | k + 4 => exact (List.getElem?_eq_none (Nat.le_add_left 4 k)).symm

/-- Settles O42: a number in range finds an entry, which is written; none is found out of range. -/
theorem matrixAndQuotientReads : Obligations.MatrixAndQuotientReads := by
  refine fun s rd imm => ⟨⟨formatI_of_encode rfl (by decide) rd.isLt (by decide), fun hi => ?_, fun hi => ?_⟩,
    formatI_of_encode rfl (by decide) rd.isLt (by decide), fun hi => ?_, fun hi => ?_⟩
  · have hx := List.getElem?_eq_getElem (l := [s.m.m00, s.m.m01, s.m.m10, s.m.m11]) (Nat.lt_add_one_of_le hi)
    refine runs_of_setP (by rw [exec, execMget, entry_eq_getElem?, hx]) ?_
    rw [pr_setP_self, hx]
  · have hx := List.getElem?_eq_none (l := [s.m.m00, s.m.m01, s.m.m10, s.m.m11]) hi
    exact raises_of_exec (by rw [exec, execMget, entry_eq_getElem?, hx])
  · have hx := List.getElem?_eq_getElem hi
    refine runs_of_setP (by rw [exec, execQget, hx]) ?_
    rw [pr_setP_self, hx]
  · have hx := List.getElem?_eq_none hi
    exact raises_of_exec (by rw [exec, execQget, hx])

end Sys2Proof.GcdRules

/-! # Proofs: the ring commands (43_ring.md). Modulo x^R − 1 a power of x depends only on its exponent modulo R, so the
remainder is the folded sum of R175; RINV is `invert` with a modulus that is never zero. -/

namespace Sys2Proof.RingRules

open Sys2Proof.Machine Sys2Proof.Statements Sys2Proof.Commands Sys2Proof.StateRules Polynomial

variable {P : Params} {s : State} {r n : Nat}

/-! ## Folding in K[X]: every power of X goes to its exponent modulo r (R175) -/

section

variable {K : Type} [Field K] {p : K[X]}

/-- The terms of `p` below `X ^ n`, each moved to its exponent modulo `r`. -/
noncomputable def foldPowers (r n : Nat) (p : K[X]) : K[X] := ∑ k ∈ Finset.range n, monomial (k % r) (p.coeff k)

theorem coeff_foldPowers (r n : Nat) (p : K[X]) (i : Nat) :
    (foldPowers r n p).coeff i = ∑ k ∈ Finset.range n with k % r = i, p.coeff k := by
  simp only [foldPowers, finsetSum_coeff, coeff_monomial, Finset.sum_filter]

theorem degree_foldPowers_lt (hr : r ≠ 0) (n : Nat) (p : K[X]) : (foldPowers r n p).degree < r := by
  rw [degree_lt_iff_coeff_zero]
  intro m hm
  rw [coeff_foldPowers, Finset.filter_false_of_mem, Finset.sum_empty]
  intro k _
  exact ((Nat.mod_lt k (Nat.pos_of_ne_zero hr)).trans_le hm).ne

/-- x^k − x^(k mod r) = x^(k mod r) · ((x^r)^(k div r) − 1). -/
theorem X_pow_sub_one_dvd_sub_mod (r k : Nat) : (X ^ r - 1 : K[X]) ∣ X ^ k - X ^ (k % r) := by
  have hsplit : (X ^ k - X ^ (k % r) : K[X]) = X ^ (k % r) * ((X ^ r) ^ (k / r) - 1) := by
    rw [mul_sub_one, ← pow_mul, ← pow_add, Nat.mod_add_div]
  rw [hsplit]
  exact (sub_one_dvd_pow_sub_one _ _).mul_left _

/-- `as_sum_range'` with a bound that the zero polynomial meets at n = 0. -/
theorem eq_sum_monomial (hn : p.degree < n) : p = ∑ k ∈ Finset.range n, monomial k (p.coeff k) := by
  ext j
  simp only [finsetSum_coeff, coeff_monomial, Finset.sum_ite_eq', Finset.mem_range]
  split
  · rfl
  · next hj => exact (degree_lt_iff_coeff_zero p n).1 hn j (Nat.not_lt.1 hj)

theorem X_pow_sub_one_dvd_sub_foldPowers (r : Nat) (hn : p.degree < n) : X ^ r - 1 ∣ p - foldPowers r n p := by
  have hterms : p - foldPowers r n p = ∑ k ∈ Finset.range n, C (p.coeff k) * (X ^ k - X ^ (k % r)) := by
    simp only [mul_sub, C_mul_X_pow_eq_monomial, Finset.sum_sub_distrib, foldPowers, ← eq_sum_monomial hn]
  rw [hterms]
  exact Finset.dvd_sum fun k _ => (X_pow_sub_one_dvd_sub_mod r k).mul_left _

/-- The remainder by x^r − 1 is the folded polynomial: congruent, and of degree below r. -/
theorem mod_X_pow_sub_one (hr : r ≠ 0) (hn : p.degree < n) : p % (X ^ r - 1) = foldPowers r n p := by
  have hdeg : (X ^ r - 1 : K[X]).degree = r := degree_X_pow_sub_C (Nat.pos_of_ne_zero hr) 1
  have hlt := degree_foldPowers_lt hr n p
  have hne : (X ^ r - 1 : K[X]) ≠ 0 := ne_zero_of_degree_gt (hdeg ▸ hlt)
  rw [mod_eq_of_dvd_sub (X_pow_sub_one_dvd_sub_foldPowers r hn), mod_eq_self_iff hne, hdeg]
  exact hlt

end

/-! ## Folding a stored polynomial (R175) -/

section

variable {K : Type} [Field K] {φ : Elem → K} {c : Poly}

theorem map_fsum (F : FieldMap P φ) {l : List Elem} (h : elemsOk P l) : φ (fsum l) = (l.map φ).sum := by
  induction l with
  | nil => exact F.zero
  | cons x l ih =>
    obtain ⟨hx, hl⟩ := elemsOk_cons.1 h
    rw [fsum_cons, F.plus x hx _ (fsum_lt hl), ih hl, List.map_cons, List.sum_cons]

theorem map_foldedCoef (F : FieldMap P φ) (ec : elemsOk P c) (r i : Nat) :
    φ (foldedCoef c r i) = ∑ k ∈ Finset.range c.length with k % r = i, (toPoly φ c).coeff k := by
  have hset : (Finset.range c.length).filter (· % r = i) = ((List.range c.length).filter (· % r = i)).toFinset := by
    ext k
    simp
  rw [foldedCoef, map_fsum F (elemsOk_map (coef_lt ec)), hset, List.sum_toFinset _ (List.nodup_range.filter _),
    List.map_map]
  simp only [F.coeff_toPoly, Function.comp_def]

theorem degree_toPoly_lt (F : FieldMap P φ) (c : Poly) : (toPoly φ c).degree < c.length := by
  rw [degree_lt_iff_coeff_zero]
  intro k hk
  rw [F.coeff_toPoly, coef_of_length_le hk, F.zero]

/-- x^r + 1 = x^r − 1, for −1 = 1 in F (R170). -/
theorem toPoly_ringModulus_eq_sub (F : FieldMap P φ) (hr : r ≠ 0) : toPoly φ (ringModulus r) = X ^ r - 1 := by
  rw [F.toPoly_ringModulus hr]
  linear_combination F.two_eq_zero

theorem foldedCoef_lt (ec : elemsOk P c) (r i : Nat) : foldedCoef c r i < P.card := fsum_map_lt (coef_lt ec)

end

theorem ringModulus_canonical_elemsOk (h : ParamsOk P) (r : Nat) :
    canonical (ringModulus r) ∧ elemsOk P (ringModulus r) :=
  ⟨canonical_ringModulus r, elemsOk_ringModulus (one_lt_card h) r⟩

/-- A coefficient of the remainder by x^r + 1 is the folded sum: they have the same image in K (R175). -/
theorem coef_divRem_ringModulus (h : ParamsOk P) {c : Poly} (hc : canonical c) (ec : elemsOk P c) (hr : r ≠ 0)
    (i : Nat) : coef (divRem P c (ringModulus r)).2 i = foldedCoef c r i := by
  obtain ⟨hcm, hem⟩ := ringModulus_canonical_elemsOk h r
  have hne := ringModulus_ne_nil hr
  obtain ⟨⟨-, -, -, -, -, erem⟩, -, -⟩ := divRem_spec h hc ec hcm hem hne
  obtain ⟨K, _, φ, F⟩ := h.exists_fieldMap
  refine F.inj _ (coef_lt erem i) _ (foldedCoef_lt ec r i) ?_
  calc φ (coef (divRem P c (ringModulus r)).2 i)
      = (toPoly φ c % toPoly φ (ringModulus r)).coeff i := by
        rw [← F.coeff_toPoly, F.toPoly_rem h hc ec hcm hem hne]
    _ = (foldPowers r c.length (toPoly φ c)).coeff i := by
        rw [toPoly_ringModulus_eq_sub F hr, mod_X_pow_sub_one hr (degree_toPoly_lt F c)]
    _ = φ (foldedCoef c r i) := by rw [coeff_foldPowers, map_foldedCoef F ec]

/-- A remainder by x^r + 1 is canonical and has at most r coefficients (R170). -/
theorem divRem_ringModulus_reduced (h : ParamsOk P) {c : Poly} (hc : canonical c) (ec : elemsOk P c) (hr : r ≠ 0) :
    canonical (divRem P c (ringModulus r)).2 ∧ (divRem P c (ringModulus r)).2.length ≤ r := by
  obtain ⟨hcm, hem⟩ := ringModulus_canonical_elemsOk h r
  obtain ⟨⟨-, -, -, hrem, -, -⟩, -, hlen⟩ := divRem_spec h hc ec hcm hem (ringModulus_ne_nil hr)
  rw [length_ringModulus r hr] at hlen
  exact ⟨hrem, Nat.le_of_lt_succ hlen⟩

/-! ## No block size set (R30) -/

theorem bsize_eq_zero : s.bsize = 0 ↔ s.r = 0 := BitVec.toNat_inj (y := 0)

/-! ## The commands -/

/-- A command that ends by putting the answer of `invert` sets NOINV and writes nothing else when there is none. -/
theorem runs_of_putInverse_none {i : Instr} {d : PReg} (h : exec i s = .next (s.putInverse d none)) :
    Runs i s [.noinv] fun t => t.noinv = true := ⟨_, h, same_putInverse_none s d, rfl⟩

theorem runs_of_putInverse_some {i : Instr} {d : PReg} {q : Poly} {post : Poly → Prop}
    (h : exec i s = .next (s.putInverse d (some q))) (hp : post q) :
    Runs i s [.noinv, .p d] fun t => t.noinv = false ∧ post (t.pr d) :=
  ⟨_, h, same_putInverse_some s d q, rfl, (pr_setP_self _ d q).symm ▸ hp⟩

/-- RINV with a block size set answers what `invert` finds modulo x^R + 1 (R174). -/
theorem exec_rinv (hr : s.bsize ≠ 0) (rd ra : PReg) :
    exec (.rinv rd ra) s = .next (s.putInverse rd (invert s.cfg (s.pr ra) (ringModulus s.bsize))) := if_neg hr

/-- Settles O46: the product need not fit a register; its remainder's coefficients are the folded sums. -/
theorem rmulFoldsTheProduct : Obligations.RmulFoldsTheProduct := by
  intro s rd ra rb h
  refine ⟨formatR_of_encode rfl (by decide) rd.isLt ra.isLt rb.isLt (by decide),
    fun h0 => raises_of_exec (if_pos (bsize_eq_zero.2 h0)), fun h0 => ?_⟩
  have hr : s.bsize ≠ 0 := mt bsize_eq_zero.1 h0
  obtain ⟨-, hea, -⟩ := h.storage.pr ra
  obtain ⟨-, heb, -⟩ := h.storage.pr rb
  have hprod := canonical_polyMul (P := s.cfg) (s.pr ra) (s.pr rb)
  have eprod := elemsOk_polyMul h.params.laws hea heb
  obtain ⟨hcanon, hlen⟩ := divRem_ringModulus_reduced h.params hprod eprod hr
  refine runs_of_setP (if_neg hr) ?_
  rw [pr_setP_self]
  exact ⟨hcanon, hlen, fun i _ => coef_divRem_ringModulus h.params hprod eprod hr i⟩

/-- Settles O47: the two outcomes of `invert`, whose modulus has R + 1 coefficients and so is not zero. -/
theorem rinvIsTheRingInverse : Obligations.RinvIsTheRingInverse := by
  intro s rd ra b g qs h
  refine ⟨formatR_of_encode rfl (by decide) rd.isLt ra.isLt (by decide) (by decide),
    fun h0 => raises_of_exec (if_pos (bsize_eq_zero.2 h0)), fun h0 hb hsteps => ?_⟩
  subst hb
  have hr : s.bsize ≠ 0 := mt bsize_eq_zero.1 h0
  obtain ⟨hca, hea, -⟩ := h.storage.pr ra
  obtain ⟨hnone, hsome⟩ := invert_spec h.params ⟨hca, hea⟩
    (ringModulus_canonical_elemsOk h.params _) (ringModulus_ne_nil hr) hsteps
  have hexec := exec_rinv hr rd ra
  refine ⟨fun hc => ?_, fun hbne hg => ?_⟩
  · obtain ⟨hinv, -⟩ := hnone hc
    exact runs_of_putInverse_none (hinv ▸ hexec)
  · obtain ⟨q, hq, hinv⟩ := hsome hbne hg
    exact runs_of_putInverse_some (hq ▸ hexec) hinv

/-- Settles O48: whatever `invert` answered would be an inverse, and such a source has none. -/
theorem zeroCoefficientSumHasNoRingInverse : Obligations.ZeroCoefficientSumHasNoRingInverse := by
  intro s rd ra h h0 hsum
  have hr : s.bsize ≠ 0 := mt bsize_eq_zero.1 h0
  obtain ⟨hca, hea, -⟩ := h.storage.pr ra
  have hexec := exec_rinv hr rd ra
  cases hq : invert s.cfg (s.pr ra) (ringModulus s.bsize) with
  | none => exact runs_of_putInverse_none (hq ▸ hexec)
  | some q =>
    have hinv := isInverse_of_invert h.params ⟨hca, hea⟩ (ringModulus_canonical_elemsOk h.params _)
      (ringModulus_ne_nil hr) hq
    exact absurd ⟨q, hinv⟩ (no_inverse_of_fsum h.params hea hr hsum)

/-- Settles O45: length and coefficients of the ring modulus. -/
theorem pmodfWritesTheRingModulus : Obligations.PmodfWritesTheRingModulus := by
  intro s rd
  refine ⟨formatR_of_encode rfl (by decide) rd.isLt (by decide) (by decide) (by decide),
    fun h0 => raises_of_exec (if_pos (bsize_eq_zero.2 h0)), fun h0 => ?_⟩
  have hr : s.bsize ≠ 0 := mt bsize_eq_zero.1 h0
  refine runs_of_setP (if_neg hr) ?_
  rw [pr_setP_self]
  exact ⟨canonical_ringModulus _, length_ringModulus _ hr, coef_ringModulus hr⟩

/-- KSETR with an immediate in 1 … RMAX goes on to test the weight (R171). -/
theorem exec_ksetr_in_domain {imm : Nat} (h0 : imm ≠ 0) (hmax : imm ≤ s.cfg.rmax) :
    exec (.ksetr imm) s = if imm < s.bweight then raised .impossibleHammingWeight (.ksetr imm) s
      else .next (s.setR imm) := if_neg (not_or.2 ⟨h0, not_lt.2 hmax⟩)

/-- Settles O44: the domain is tested before the weight, and a 16-bit register holds the immediate. -/
theorem blockSizeAndWeightAreSet : Obligations.BlockSizeAndWeightAreSet := by
  intro s imm himm
  refine ⟨⟨formatI_of_encode rfl (by decide) (by decide) (by decide), fun hdom => raises_of_exec (if_pos hdom),
      fun h0 hmax hw => ?_, fun h0 hmax hw => ?_⟩,
    formatI_of_encode rfl (by decide) (by decide) (by decide), fun hw => raises_of_exec (if_pos hw),
    fun hw => ⟨_, if_neg (not_lt.2 hw), same_setW s imm, Nat.mod_eq_of_lt himm⟩⟩
  · exact raises_of_exec ((exec_ksetr_in_domain h0 hmax).trans (if_pos hw))
  · exact ⟨_, (exec_ksetr_in_domain h0 hmax).trans (if_neg (not_lt.2 hw)), same_setR s imm, Nat.mod_eq_of_lt himm⟩

end Sys2Proof.RingRules

/-! # Proofs: what the statement of a command that writes a buffer asks for (R24, R180). -/

namespace Sys2Proof.Commands

open Sys2Proof.Machine Sys2Proof.Statements

/-- A command that ends by writing one buffer. -/
theorem runs_of_setBuf {i : Instr} {s : State} {b : Buf} {v : Vec} {post : State → Prop}
    (h : exec i s = .next (s.setBuf b v)) (hp : post (s.setBuf b v)) : Runs i s [.buf b] post :=
  ⟨_, h, same_setBuf s b v, hp⟩

theorem buf_setBuf_self (s : State) (b : Buf) (v : Vec) : (s.setBuf b v).buf b = v := by rw [buf_setBuf, if_pos rfl]

end Sys2Proof.Commands

/-! # Proofs: the vector commands (44_vector.md). A vector read at an index below its length is its coefficient there,
and the conversions between vectors and polynomials lose nothing when the length holds every coefficient. -/

namespace Sys2Proof.VectorRules

open Sys2Proof.Machine Sys2Proof.Statements Sys2Proof.Commands Sys2Proof.StateRules Sys2Proof.Laws

variable {s t : State} {b : Buf} {pa : PReg} {imm : Nat}

/-! ## Elements of a vector (R180) -/

/-- A coefficient of the polynomial of a vector is the element of that index, 0 past the end. -/
theorem coef_eq_getElem?_getD (v : Vec) (k : Nat) : coef v k = v[k]?.getD 0 := List.getD_eq_getElem?_getD

/-- Within the length there is an element, and it is the coefficient. -/
theorem getElem?_eq_some_coef {v : Vec} {k : Nat} (hk : k < v.length) : v[k]? = some (coef v k) := by
  rw [coef_eq_getElem hk]
  exact List.getElem?_eq_getElem hk

theorem getElem?_vecOfPoly (a : Poly) {len k : Nat} (hk : k < len) : (vecOfPoly a len)[k]? = some (coef a k) := by
  rw [getElem?_eq_some_coef (hk.trans_eq (length_vecOfPoly a len).symm), coef_vecOfPoly, if_pos hk]

/-- The weight of a stored vector fits DOUT, for no capacity exceeds LMAX (R5, R24, R28). -/
theorem weight_lt_dout (h : s.Inv) (b : Buf) : weight (s.buf b) < 2 ^ 32 := by
  calc weight (s.buf b)
    _ ≤ (s.buf b).length := weight_le _
    _ ≤ bufCap s.cfg b := (h.storage.buf b).2
    _ ≤ s.cfg.lmax := bufCap_le_lmax _ _
    _ < 2 ^ 17 := lmax_lt h.params
    _ < 2 ^ 32 := by decide

/-! ## P2V (R186) -/

/-- P2V with a length within the capacity goes on to test the polynomial's own length. -/
theorem exec_p2v_in_capacity (hc : imm ≤ bufCap s.cfg b) :
    exec (.p2v b pa imm) s = if imm < (s.pr pa).length then raised .illegalOperand (.p2v b pa imm) s
      else .next (s.setBuf b (vecOfPoly (s.pr pa) imm)) := if_neg (not_lt.2 hc)

theorem exec_p2v_fits (hc : imm ≤ bufCap s.cfg b) (hl : (s.pr pa).length ≤ imm) :
    exec (.p2v b pa imm) s = .next (s.setBuf b (vecOfPoly (s.pr pa) imm)) :=
  (exec_p2v_in_capacity hc).trans (if_neg (not_lt.2 hl))

/-- A P2V that leaves no error has written the buffer, with a length that holds every coefficient. -/
theorem p2v_without_error (b : Buf) (pa : PReg) (imm : Nat) (s : State) :
    Ensures (fun t => t.err = none → (s.pr pa).length ≤ imm ∧ t = s.setBuf b (vecOfPoly (s.pr pa) imm))
      (exec (.p2v b pa imm) s) :=
  .guard (fun he => nomatch he) fun _ => .guard (fun he => nomatch he) fun hl => ensures_next fun _ =>
    ⟨not_lt.1 hl, rfl⟩

/-! ## The commands -/

/-- Settles O52: the polynomial of a stored vector is no longer than the vector, so P2V cannot raise; the length of a
P2V that did not raise holds the polynomial. -/
theorem conversionsAreInverse : Obligations.ConversionsAreInverse := by
  intro s t u b pa pb imm h _
  refine ⟨fun ht hu => ?_, fun ht hterr hu => ?_⟩
  · obtain rfl := Host.Outcome.next.inj ht
    have hl : ((s.setP pa (polyOfVec (s.buf b))).pr pa).length ≤ (s.buf b).length := by
      rw [pr_setP_self]
      exact length_canon_le _
    obtain rfl := Host.Outcome.next.inj (hu.symm.trans (exec_p2v_fits (h.storage.buf b).2 hl))
    rw [buf_setBuf_self, pr_setP_self, vecOfPoly_polyOfVec]
  · obtain ⟨hl, rfl⟩ := p2v_without_error b pa imm s t ht hterr
    obtain rfl := Host.Outcome.next.inj hu
    rw [pr_setP_self, buf_setBuf_self, polyOfVec_vecOfPoly (h.storage.pr pa).1 hl]

/-- Settles O51: the two tests of P2V in their order; every element written is a coefficient. -/
theorem polynomialVectorConversions : Obligations.PolynomialVectorConversions := by
  intro s b pa imm
  refine ⟨⟨formatI_of_encode rfl (by decide) (bufId_lt b) pa.isLt, fun hc => raises_of_exec (if_pos hc),
      fun hc hl => raises_of_exec ((exec_p2v_in_capacity hc).trans (if_pos hl)),
      fun hc hl => runs_of_setBuf (exec_p2v_fits hc hl) ?_⟩,
    formatR_of_encode rfl (by decide) pa.isLt (bufId_lt b) (by decide) (by decide), runs_of_setP rfl ?_⟩
  · rw [buf_setBuf_self]
    exact ⟨length_vecOfPoly _ _, fun k hk => getElem?_vecOfPoly _ hk⟩
  · rw [pr_setP_self]
    exact ⟨canonical_polyOfVec _, fun k => (coef_polyOfVec _ k).trans (coef_eq_getElem?_getD _ k)⟩

/-- Settles O50: an index below the length finds an element, and DOUT holds every count. -/
theorem bufferElementReadAndWeight : Obligations.BufferElementReadAndWeight := by
  intro s rd b imm h
  refine ⟨⟨formatI_of_encode rfl (by decide) rd.isLt (bufId_lt b),
      fun hi => runs_of_setF (if_neg (not_le.2 hi)) ?_, fun hi => raises_of_exec (if_pos hi)⟩,
    formatR_of_encode rfl (by decide) (by decide) (bufId_lt b) (by decide) (by decide), ?_⟩
  · rw [fr_setF_self, elemAt_eq_coef]
    exact getElem?_eq_some_coef hi
  · rw [← weight_eq_filter]
    exact runs_of_setDout rfl (weight_lt_dout h b)

/-- Settles O49: VINIT writes a list of zeros, VSETE replaces one element of the list. -/
theorem bufferInitAndElementWrite : Obligations.BufferInitAndElementWrite := by
  intro s b ra imm
  refine ⟨⟨formatI_of_encode rfl (by decide) (bufId_lt b) (by decide),
      fun hc => runs_of_setBuf (if_neg (not_lt.2 hc)) ?_, fun hc => raises_of_exec (if_pos hc)⟩,
    formatI_of_encode rfl (by decide) (bufId_lt b) ra.isLt,
    fun hi => runs_of_setBuf (if_neg (not_le.2 hi)) ?_, fun hi => raises_of_exec (if_pos hi)⟩
  · rw [buf_setBuf_self]
    exact ⟨length_zeroVec imm, fun k hk => List.getElem?_replicate_of_lt hk⟩
  · rw [buf_setBuf_self]
    exact ⟨List.length_set, List.getElem?_set_self hi, fun k hk => List.getElem?_set_ne hk.symm⟩

end Sys2Proof.VectorRules

/-! # Proofs: the codec commands (45_codec.md). Storage index r − i turns the model's (j − p) mod r into the
(i + j) mod r of the rules; DECODE's loop is DSTEP after DSTEP; a key with h1 · g = h0 in the ring makes the two sums of
a codeword's syndrome equal, so that they cancel. -/

namespace Sys2Proof.CodecRules

open Sys2Proof.Machine Sys2Proof.Statements Sys2Proof.Commands Sys2Proof.StateRules Sys2Proof.RingRules

variable {P : Params} {s : State} {h0 h1 m g v : Vec} {r i j : Nat}

/-! ## The storage index r − i (R201–R203) -/

theorem subMod_storageIndex (hi : i ≤ r) (j : Nat) : subMod j (r - i) r = (i + j) % r := by
  unfold subMod
  congr 1
  omega

theorem length_encodeVec (P : Params) (m g : Vec) (r : Nat) : (encodeVec P m g r).length = 2 * r := by
  simp only [encodeVec, List.length_append, List.length_map, List.length_range]
  omega

theorem elemAt_encodeVec_message (hj : j < r) : elemAt (encodeVec P m g r) j = elemAt m j := by
  rw [encodeVec, elemAt, List.getD_append _ _ _ _ (by simpa using hj)]
  exact (elemAt_map_range _ r j).trans (if_pos hj)

theorem elemAt_encodeVec_parity (hj : j < r) : elemAt (encodeVec P m g r) (r + j) = parityAt P m g r j := by
  simp [elemAt, encodeVec, hj]

theorem parityAt_storageIndex (hi : i ≤ r) : parityAt P m g r (r - i) =
    fsum ((List.range r).map fun j => fmul P (elemAt m j) (elemAt g ((i + j) % r))) := by
  simp only [parityAt, subMod_storageIndex hi]

theorem length_syndromeVec (P : Params) (h0 h1 v : Vec) (r : Nat) : (syndromeVec P h0 h1 v r).length = r :=
  (List.length_map _).trans List.length_range

/-- The part of a syndrome element that one row of the key gives (R202). -/
def blockSum (P : Params) (row : Vec) (f : Nat → Elem) (r p : Nat) : Elem :=
  fsum ((List.range r).map fun j => fmul P (elemAt row (subMod j p r)) (f j))

theorem syndromeAt_eq_blockSums (p : Nat) : syndromeAt P h0 h1 v r p =
    fplus (blockSum P h0 (elemAt v) r p) (blockSum P h1 (fun j => elemAt v (r + j)) r p) := rfl

theorem blockSum_storageIndex (hi : i ≤ r) (row : Vec) (f : Nat → Elem) :
    blockSum P row f r (r - i) = correlation P (elemAt row) f r i := by
  simp only [blockSum, subMod_storageIndex hi, correlation]

theorem syndromeAt_storageIndex (hi : i ≤ r) : syndromeAt P h0 h1 v r (r - i) =
    correlation P (elemAt h0) (elemAt v) r i ^^^ correlation P (elemAt h1) (fun j => elemAt v (r + j)) r i := by
  rw [syndromeAt_eq_blockSums, blockSum_storageIndex hi, blockSum_storageIndex hi]
  rfl

theorem hcol_storageIndex (hi : i ≤ r) : hcol h0 h1 r j (r - i) =
    if j < r then elemAt h0 ((i + j) % r) else elemAt h1 ((i + (j - r)) % r) := by
  simp only [hcol, subMod_storageIndex hi]

theorem length_flipSyndrome (P : Params) (h0 h1 : Vec) (r : Nat) (v : Vec) (j : Nat) (a : Elem) :
    (flipSyndrome P h0 h1 r v j a).length = r := (List.length_map _).trans List.length_range

theorem length_flipError (v : Vec) (j : Nat) (a : Elem) : (flipError v j a).length = v.length := List.length_set

/-! ## The 16-bit counters (R32, R33, R35) -/

theorem bsize_lt (s : State) : s.bsize < 2 ^ 16 := s.r.isLt

theorem omega_setSyndrome (s : State) (hv : v.length < 2 ^ 16) :
    (s.setSyndrome v).omega.toNat = (v.filter (· ≠ 0)).length :=
  (Nat.mod_eq_of_lt ((weight_le v).trans_lt hv)).trans (weight_eq_filter v)

/-! ## ENCODE, SYND -/

theorem exec_encode_ready (hr : s.bsize ≠ 0) (lg : s.g.length = s.bsize) (lm : s.msg.length = s.bsize) :
    exec .encodeMsg s = .next (s.setBuf .cw (encodeVec s.cfg s.msg s.g s.bsize)) :=
  (if_neg hr).trans (if_neg (by simp [lg, lm]))

/-- Settles O54: at storage index r − i the model's parity sum is the printed one. -/
theorem encodeWritesTheSystematicCodeword : Obligations.EncodeWritesTheSystematicCodeword := by
  intro s
  refine ⟨formatR_of_encode rfl (by decide) (by decide) (by decide) (by decide) (by decide),
    fun h0 => raises_of_exec (if_pos (bsize_eq_zero.2 h0)),
    fun h0 hl => raises_of_exec ((if_neg (mt bsize_eq_zero.1 h0)).trans (if_pos hl)), fun h0 hg hm => ?_⟩
  refine runs_of_setBuf (exec_encode_ready (mt bsize_eq_zero.1 h0) hg hm) ?_
  rw [setBuf_cw_cw]
  refine ⟨length_encodeVec _ _ _ _, fun j hj => elemAt_encodeVec_message hj, fun i h1 hi => ?_⟩
  rw [elemAt_encodeVec_parity (by omega), parityAt_storageIndex hi]

theorem exec_synd_ready (h : SyndReady s) : exec .synd s = .next s.syndrome := by
  obtain ⟨hr, l0, l1, lc⟩ := h
  exact (if_neg hr).trans (if_neg (by simp [l0, l1, lc]))

/-- With a block size set, lengths that are not right fail the length test of SYND and DECODE (R209, R211). -/
theorem wrong_length_of_not_syndReady (hr : s.bsize ≠ 0) (h : ¬ SyndReady s) :
    s.h0.length ≠ s.bsize ∨ s.h1.length ≠ s.bsize ∨ s.cw.length ≠ 2 * s.bsize := by
  by_contra hl
  simp only [not_or, not_not] at hl
  exact h ⟨hr, hl⟩

/-- Settles O55: at storage index r − i the model's sums are the printed correlations. -/
theorem syndComputesTheSyndrome : Obligations.SyndComputesTheSyndrome := by
  intro s
  refine ⟨formatR_of_encode rfl (by decide) (by decide) (by decide) (by decide) (by decide),
    fun h0 => raises_of_exec (if_pos (bsize_eq_zero.2 h0)),
    fun h0 hl => raises_of_exec ((if_neg (mt bsize_eq_zero.1 h0)).trans (if_pos hl)),
    fun hs => ⟨_, exec_synd_ready hs, same_setSyndrome s _, length_syndromeVec _ _ _ _ _,
      omega_setSyndrome s ((length_syndromeVec ..).trans_lt (bsize_lt s)), fun i h1 hi => ?_⟩⟩
  calc elemAt (syndromeVec s.cfg s.h0 s.h1 s.cw s.bsize) (s.bsize - i)
      = syndromeAt s.cfg s.h0 s.h1 s.cw s.bsize (s.bsize - i) := by
        rw [syndromeVec, elemAt_map_range, if_pos (by omega)]
    _ = _ := syndromeAt_storageIndex hi

/-! ## KDER -/

theorem exec_kder_of_reject (hr : s.bsize ≠ 0) (l0 : s.h0.length = s.bsize) (l1 : s.h1.length = s.bsize)
    (hd : derive s.cfg s.h0 s.h1 s.bsize = .reject) : exec .kder s = .next (s.setKrej true) := by
  change execKder s = _
  rw [execKder, if_neg hr, if_neg (by simp [l0, l1]), hd]

theorem exec_kder_of_key (hr : s.bsize ≠ 0) (l0 : s.h0.length = s.bsize) (l1 : s.h1.length = s.bsize)
    (hd : derive s.cfg s.h0 s.h1 s.bsize = .key g) : exec .kder s = .next ((s.setKrej false).setBuf .g g) := by
  change execKder s = _
  rw [execKder, if_neg hr, if_neg (by simp [l0, l1]), hd]

/-- Settles O53: `derive` answers a key exactly when h1 has an inverse in the ring, and else rejects. -/
theorem kderDerivesThePublicRow : Obligations.KderDerivesThePublicRow := by
  intro s h
  refine ⟨formatR_of_encode rfl (by decide) (by decide) (by decide) (by decide) (by decide),
    fun h0 => raises_of_exec (if_pos (bsize_eq_zero.2 h0)),
    fun h0 hl => raises_of_exec ((if_neg (mt bsize_eq_zero.1 h0)).trans (if_pos hl)), fun h0 l0 l1 => ?_⟩
  have hr := mt bsize_eq_zero.1 h0
  obtain ⟨hkey, hreject⟩ := derive_spec h.params (h.storage.buf .h0).1 (h.storage.buf .h1).1 hr l0
  refine ⟨fun hinv => ?_, fun hinv => ?_⟩
  · obtain ⟨g, hd, hlen, hel, hprod⟩ := hkey hinv
    exact ⟨_, exec_kder_of_key hr l0 l1 hd, (same_setKrej s false).trans (same_setBuf _ .g g), rfl, hlen, hel, hprod⟩
  · exact ⟨_, exec_kder_of_reject hr l0 l1 (hreject hinv), same_setKrej s true, rfl⟩

/-! ## DSTEP -/

theorem exec_dstep_ready (h : DstepReady s) : exec .dstep s = .next s.iterate := by
  obtain ⟨hr, l0, l1, ls, le⟩ := h
  exact (if_neg hr).trans (if_neg (by simp [l0, l1, ls, le]))

theorem exec_dstep_not_ready (hr : s.bsize ≠ 0) (h : ¬ DstepReady s) :
    exec .dstep s = raised .incorrectInputVectorLength .dstep s := by
  refine (if_neg hr).trans (if_pos ?_)
  by_contra hl
  simp only [not_or, not_not] at hl
  exact h ⟨hr, hl⟩

/-- The selection of a sound state fits the registers that report it (R35): 2·RMAX and 2^N are at most 2^16, and the
gain lies within −R … R. -/
theorem toNat_sel (h : s.Inv) {x : Selection} (hj : x.j < 2 * s.bsize) (ha : x.a < s.cfg.card)
    (hg : x.sigma = gain s.cfg s.h0 s.h1 s.bsize s.sy x.j x.a) :
    (s.flipAt x).jstar.toNat = x.j ∧ (s.flipAt x).astar.toNat = x.a ∧ (s.flipAt x).sigma.toInt = x.sigma := by
  have hsize := h.sizes.2
  have hrmax := h.params.rmax_le
  have hcard : s.cfg.card ≤ 2 ^ 16 := Nat.pow_le_pow_right (by decide) h.params.n_le
  obtain ⟨hlo, hhi⟩ := gain_bounds (P := s.cfg) s.h0 s.h1 s.bsize s.sy x.j x.a
  refine ⟨Nat.mod_eq_of_lt (by omega), Nat.mod_eq_of_lt (ha.trans_le hcard), ?_⟩
  exact (BitVec.toInt_ofInt ..).trans (Int.bmod_eq_of_le (by omega) (by omega))

/-- DSTEP flips the pair that the scan selected (R205, R210). -/
theorem exec_dstep_of_select (hd : DstepReady s) {x : Selection}
    (hx : select s.cfg s.h0 s.h1 s.bsize s.sy = some x) : exec .dstep s = .next (s.flipAt x) := by
  have hflip : s.iterate = s.flipAt x := by simp only [State.iterate, hx]
  exact hflip ▸ exec_dstep_ready hd

theorem flipAt_omega (s : State) (x : Selection) :
    (s.flipAt x).omega.toNat = ((s.flipAt x).sy.filter (· ≠ 0)).length :=
  omega_setSyndrome s ((length_flipSyndrome ..).trans_lt (bsize_lt s))

/-- The gain of a flip in zeros of the syndrome, and in its weight (R203, R205). -/
theorem gain_eq_zeros_gained (ls : v.length = r) (j : Nat) (a : Elem) :
    gain P h0 h1 r v j a = (((flipSyndrome P h0 h1 r v j a).filter (· = 0)).length : Int) - (v.filter (· = 0)).length ∧
      (((flipSyndrome P h0 h1 r v j a).filter (· ≠ 0)).length : Int) =
        (v.filter (· ≠ 0)).length - gain P h0 h1 r v j a := by
  obtain ⟨hz, hw⟩ := zeroCount_eq v
  obtain ⟨hz', hw'⟩ := zeroCount_eq (flipSyndrome P h0 h1 r v j a)
  rw [length_flipSyndrome] at hz' hw'
  rw [ls] at hz hw
  rw [← weight_eq_filter, ← weight_eq_filter, ← hz, ← hz', gain]
  omega

/-- Settles O56: the pair reported is the pair flipped. -/
theorem dstepFlipsTheSelectedPosition : Obligations.DstepFlipsTheSelectedPosition := by
  intro s h
  refine ⟨formatR_of_encode rfl (by decide) (by decide) (by decide) (by decide) (by decide),
    fun h0 => raises_of_exec (if_pos (bsize_eq_zero.2 h0)),
    fun h0 hn => raises_of_exec (exec_dstep_not_ready (mt bsize_eq_zero.1 h0) hn), fun hd => ?_⟩
  obtain ⟨x, hx, hj, hmem, ha, hg, -⟩ := select_spec h.params s.h0 s.h1 hd.1 s.sy
  have hexec := exec_dstep_of_select hd hx
  obtain ⟨htj, hta, hts⟩ := toNat_sel h hj ha hg
  obtain ⟨-, -, -, ls, le⟩ := hd
  obtain ⟨hel, -, hev⟩ := flipError_spec (h.storage.buf .ev).1 ha (hj.trans_eq le.symm)
  obtain ⟨hzeros, hweight⟩ := gain_eq_zeros_gained (P := s.cfg) (h0 := s.h0) (h1 := s.h1) ls x.j x.a
  refine ⟨s.flipAt x, hexec, (same_flipAt s x).mono (by decide), ?_⟩
  beta_reduce
  rw [flipAt_omega, htj, hta, hts, hg]
  refine ⟨hj, hmem, length_flipSyndrome .., hel.trans le, fun i h1 hi => ?_, fun k _ => hev k, hzeros, rfl, hweight⟩
  calc elemAt (flipSyndrome s.cfg s.h0 s.h1 s.bsize s.sy x.j x.a) (s.bsize - i)
      = elemAt s.sy (s.bsize - i) ^^^ fmul s.cfg x.a (hcol s.h0 s.h1 s.bsize x.j (s.bsize - i)) := by
        rw [flipSyndrome, elemAt_map_range, if_pos (by omega)]
        rfl
    _ = _ := by rw [hcol_storageIndex hi]

/-- Settles O57: what the scan keeps is what DSTEP reports. -/
theorem dstepSelectsTheLastScannedMaximum : Obligations.DstepSelectsTheLastScannedMaximum := by
  intro s t h hd ht
  obtain ⟨x, hx, hj, -, ha, hg, hmax⟩ := select_spec h.params s.h0 s.h1 hd.1 s.sy
  obtain rfl := Host.Outcome.next.inj ((exec_dstep_of_select hd hx).symm.trans ht)
  obtain ⟨htj, hta, hts⟩ := toNat_sel h hj ha hg
  rw [htj, hta, hts]
  exact hmax

/-! ## DECODE -/

/-- An iteration neither reads nor writes ITER (R210). -/
theorem iterate_setIter (s : State) (n : Nat) : (s.setIter n).iterate = s.iterate.setIter n := by
  unfold State.iterate
  simp only [setIter_cfg, setIter_h0, setIter_h1, setIter_bsize, setIter_sy]
  cases select s.cfg s.h0 s.h1 s.bsize s.sy with
  | none => rfl
  | some x => rfl

/-- ITER <- ITER + 1 (R33), the count kept modulo 2^16. -/
theorem setIter_succ (s : State) (n : Nat) :
    (s.setIter n).setIter ((s.setIter n).iter.toNat + 1) = s.setIter (n + 1) := by
  have hmod : BitVec.ofNat 16 ((BitVec.ofNat 16 n).toNat + 1) = BitVec.ofNat 16 (n + 1) := by
    apply BitVec.eq_of_toNat_eq
    simp only [BitVec.toNat_ofNat]
    omega
  simp only [State.setIter, hmod]

/-- A flip keeps the lengths, so another DSTEP can follow. -/
theorem dstepReady_iterate (h : DstepReady s) : DstepReady s.iterate := by
  unfold State.iterate
  split
  · exact h
  · next x _ =>
    obtain ⟨hr, l0, l1, -, le⟩ := h
    exact ⟨hr, l0, l1, length_flipSyndrome .., (length_flipError ..).trans le⟩

/-- The loop of DECODE is that many DSTEPs, ITER counted on top (R206, R211). -/
theorem iterateTimes_is_dsteps (k : Nat) (h : DstepReady s) (n : Nat) :
    ∃ u, Dsteps k s u ∧ State.iterateTimes k (s.setIter n) = u.setIter (n + k) := by
  induction k generalizing s n with
  | zero => exact ⟨s, .none s, rfl⟩
  | succ k ih =>
    obtain ⟨u, hsteps, hu⟩ := ih (dstepReady_iterate h) (n + 1)
    refine ⟨u, .more k s _ u (exec_dstep_ready h) hsteps, ?_⟩
    have hturn : (s.setIter n).iterate.setIter ((s.setIter n).iter.toNat + 1) = s.iterate.setIter (n + 1) := by
      rw [iterate_setIter]
      exact setIter_succ s.iterate n
    rw [State.iterateTimes, hturn, hu, Nat.add_right_comm n 1 k, Nat.add_assoc]

theorem exec_decode_ready (h : SyndReady s) (k : Nat) : exec (.decodeCw k) s =
    if s.decodeStart.omega = 0 then .next (s.decodeStart.setDfail false)
    else .next ((State.iterateTimes k s.decodeStart).setDfail ((State.iterateTimes k s.decodeStart).omega != 0)) := by
  obtain ⟨hr, l0, l1, lc⟩ := h
  exact (if_neg hr).trans (if_neg (by simp [l0, l1, lc]))

theorem exec_decode_zero_syndrome (h : SyndReady s) (h0 : s.syndrome.omega = 0) (k : Nat) :
    exec (.decodeCw k) s = .next (s.decodeStart.setDfail false) := (exec_decode_ready h k).trans (if_pos h0)

theorem dstepReady_decodeStart (h : SyndReady s) : DstepReady s.decodeStart := by
  obtain ⟨hr, l0, l1, -⟩ := h
  exact ⟨hr, l0, l1, length_syndromeVec .., length_zeroVec _⟩

/-- Settles O58: DECODE starts as SYND with a zero error vector, and its loop is K DSTEPs. -/
theorem decodeIsSyndThenExactlyKSteps : Obligations.DecodeIsSyndThenExactlyKSteps := by
  intro s k _
  refine ⟨formatI_of_encode rfl (by decide) (by decide) (by decide),
    fun h0 => raises_of_exec (if_pos (bsize_eq_zero.2 h0)), fun h0 hn => ?_, fun hs => ?_⟩
  · have hr := mt bsize_eq_zero.1 h0
    exact raises_of_exec ((if_neg hr).trans (if_pos (wrong_length_of_not_syndReady hr hn)))
  by_cases hz : s.syndrome.omega = 0
  · exact ⟨_, _, exec_synd_ready hs, exec_decode_zero_syndrome hs hz k, fun _ => rfl, fun hne => absurd hz hne⟩
  · obtain ⟨u, hsteps, hu⟩ := iterateTimes_is_dsteps k (dstepReady_decodeStart hs) 0
    rw [Nat.zero_add] at hu
    have hstart : s.decodeStart.setIter 0 = s.decodeStart := rfl
    rw [hstart] at hu
    refine ⟨_, _, exec_synd_ready hs, (exec_decode_ready hs k).trans (if_neg hz), fun h0 => absurd h0 hz,
      fun _ => ⟨u, hsteps, ?_⟩⟩
    rw [hu]
    rfl

/-! ## Circulant sums (R201, R202) -/

section

variable {G K : Type} [AddCommGroup G] [Fintype G] [CommRing K]

/-- Correlating with a1 what was correlated with g is correlating with the cyclic product of a1 and g: j − k and l − j
add up to l − k. -/
theorem sum_correlation_of_convolution {a0 a1 g : G → K} (hconv : ∀ i, a0 i = ∑ x, a1 x * g (i - x)) (m : G → K)
    (k : G) : ∑ j, a1 (j - k) * ∑ l, m l * g (l - j) = ∑ l, a0 (l - k) * m l := by
  have hshift : ∀ l, ∑ j, a1 (j - k) * g (l - j) = a0 (l - k) := fun l => by
    rw [hconv, ← Equiv.sum_comp (Equiv.subRight k) fun x => a1 x * g (l - k - x)]
    simp only [Equiv.subRight_apply, sub_sub_sub_cancel_right]
  calc ∑ j, a1 (j - k) * ∑ l, m l * g (l - j)
      = ∑ l, ∑ j, a1 (j - k) * (m l * g (l - j)) := by
        simp only [Finset.mul_sum]
        exact Finset.sum_comm
    _ = ∑ l, a0 (l - k) * m l := by
        refine Finset.sum_congr rfl fun l _ => ?_
        rw [← hshift l, Finset.sum_mul]
        exact Finset.sum_congr rfl fun j _ => by ring

end

/-! ## The product modulo x^r − 1 in K[X] -/

section

open Polynomial

variable {K : Type} [Field K] [NeZero r] {p q : K[X]}

/-- The product of two polynomials of degree below `r`, each power of X at its exponent modulo `r`. -/
noncomputable def cyclicMul (r : Nat) [NeZero r] (p q : K[X]) : K[X] :=
  ∑ x : Fin r, ∑ y : Fin r, monomial (x + y : Fin r).val (p.coeff x * q.coeff y)

theorem coeff_cyclicMul (p q : K[X]) (i : Fin r) :
    (cyclicMul r p q).coeff i = ∑ x : Fin r, p.coeff x * q.coeff (i - x : Fin r) := by
  simp only [cyclicMul, finsetSum_coeff, coeff_monomial, Fin.val_inj]
  refine Finset.sum_congr rfl fun x _ => ?_
  simp only [← eq_sub_iff_add_eq', Finset.sum_ite_eq', Finset.mem_univ, if_true]

theorem degree_cyclicMul_lt (p q : K[X]) : (cyclicMul r p q).degree < r := by
  rw [degree_lt_iff_coeff_zero]
  intro k hk
  simp only [cyclicMul, finsetSum_coeff, coeff_monomial]
  exact Finset.sum_eq_zero fun x _ => Finset.sum_eq_zero fun y _ => if_neg ((x + y).isLt.trans_le hk).ne

theorem X_pow_sub_one_dvd_mul_sub_cyclicMul (hp : p.degree < r) (hq : q.degree < r) :
    X ^ r - 1 ∣ p * q - cyclicMul r p q := by
  have hprod : p * q = ∑ x : Fin r, ∑ y : Fin r, monomial (x.val + y.val) (p.coeff x * q.coeff y) := by
    conv_lhs => rw [eq_sum_monomial hp, eq_sum_monomial hq, Finset.sum_range, Finset.sum_range, Finset.sum_mul_sum]
    simp only [monomial_mul_monomial]
  rw [hprod, cyclicMul, ← Finset.sum_sub_distrib]
  refine Finset.dvd_sum fun x _ => ?_
  rw [← Finset.sum_sub_distrib]
  refine Finset.dvd_sum fun y _ => ?_
  rw [← C_mul_X_pow_eq_monomial, ← C_mul_X_pow_eq_monomial, ← mul_sub, Fin.val_add]
  exact (X_pow_sub_one_dvd_sub_mod r _).mul_left _

/-- The product modulo x^r − 1 is the cyclic one: congruent, and of degree below r. -/
theorem mul_mod_X_pow_sub_one (hp : p.degree < r) (hq : q.degree < r) : p * q % (X ^ r - 1) = cyclicMul r p q := by
  have hdeg : (X ^ r - 1 : K[X]).degree = r := degree_X_pow_sub_C (NeZero.pos r) 1
  have hlt := degree_cyclicMul_lt (r := r) p q
  have hne : (X ^ r - 1 : K[X]) ≠ 0 := ne_zero_of_degree_gt (hdeg ▸ hlt)
  rw [mod_eq_of_dvd_sub (X_pow_sub_one_dvd_mul_sub_cyclicMul hp hq), mod_eq_self_iff hne, hdeg]
  exact hlt

end

/-! ## The codec's sums in K -/

/-- (j − p) mod r is the difference of positions modulo r (R7). -/
theorem subMod_eq_sub (j k : Fin r) : subMod j k r = (j - k : Fin r).val := by
  rw [subMod, Fin.val_sub]
  congr 1
  omega

section

variable {K : Type} [Field K] {φ : Elem → K}

/-- A vector as a function on the positions modulo r. -/
def ringElem (φ : Elem → K) (r : Nat) (v : Vec) (i : Fin r) : K := φ (elemAt v i)

theorem map_fsum_range (F : FieldMap P φ) {f : Nat → Elem} (hf : ∀ j, f j < P.card) (r : Nat) :
    φ (fsum ((List.range r).map f)) = ∑ j : Fin r, φ (f j) := by
  rw [map_fsum F (elemsOk_map hf), List.map_map, ← Finset.sum_range fun j => φ (f j),
    ← List.sum_toFinset _ List.nodup_range, List.toFinset_range]
  rfl

/-- An element of the parity part of a codeword (R201). -/
theorem map_parityAt (F : FieldMap P φ) (L : FieldLaws P) (em : elemsOk P m) (eg : elemsOk P g) (k : Fin r) :
    φ (parityAt P m g r k) = ∑ j, ringElem φ r m j * ringElem φ r g (j - k) := by
  rw [parityAt, map_fsum_range F fun j => L.mul_lt _ (elemAt_lt em _) _ (elemAt_lt eg _)]
  refine Finset.sum_congr rfl fun j _ => ?_
  rw [F.mul _ (elemAt_lt em _) _ (elemAt_lt eg _), subMod_eq_sub]
  rfl

theorem blockSum_lt (L : FieldLaws P) (eh : elemsOk P h0) {f : Nat → Elem} (hf : ∀ j, f j < P.card) (p : Nat) :
    blockSum P h0 f r p < P.card := fsum_map_lt fun j => L.mul_lt _ (elemAt_lt eh _) _ (hf j)

theorem map_blockSum (F : FieldMap P φ) (L : FieldLaws P) (eh : elemsOk P h0) {f : Nat → Elem} (hf : ∀ j, f j < P.card)
    (k : Fin r) : φ (blockSum P h0 f r k) = ∑ j : Fin r, ringElem φ r h0 (j - k) * φ (f j) := by
  rw [blockSum, map_fsum_range F fun j => L.mul_lt _ (elemAt_lt eh _) _ (hf j)]
  refine Finset.sum_congr rfl fun j _ => ?_
  rw [F.mul _ (elemAt_lt eh _) _ (hf j), subMod_eq_sub]
  rfl

/-- What the key equation h1 · g = h0 says of the elements: h0 is the cyclic product (R200). -/
theorem ringElem_of_key [NeZero r] (h : ParamsOk P) (F : FieldMap P φ) (e1 : elemsOk P h1) (eg : elemsOk P g)
    (l1 : h1.length = r) (lg : g.length = r)
    (hkey : (divRem P (polyMul P (polyOfVec h1) (polyOfVec g)) (ringModulus r)).2 = polyOfVec h0)
    (i : Fin r) : ringElem φ r h0 i = ∑ x, ringElem φ r h1 x * ringElem φ r g (i - x) := by
  obtain ⟨hcm, hem⟩ := ringModulus_canonical_elemsOk h r
  have e1' := elemsOk_polyOfVec e1
  have eg' := elemsOk_polyOfVec eg
  have hcoeff : ∀ (v : Vec) (i : Fin r), (toPoly φ (polyOfVec v)).coeff i = ringElem φ r v i := fun v i => by
    rw [F.coeff_toPoly, coef_polyOfVec]
    rfl
  have hdeg : ∀ v : Vec, v.length = r → (toPoly φ (polyOfVec v)).degree < r := fun v hv =>
    (degree_toPoly_lt F _).trans_le (Nat.cast_le.2 ((length_canon_le v).trans hv.le))
  rw [← hcoeff, ← hkey, F.toPoly_rem h (canonical_polyMul _ _) (elemsOk_polyMul h.laws e1' eg') hcm hem
    (ringModulus_ne_nil (NeZero.ne r)), F.toPoly_mul h.laws e1' eg', toPoly_ringModulus_eq_sub F (NeZero.ne r),
    mul_mod_X_pow_sub_one (hdeg h1 l1) (hdeg g lg), coeff_cyclicMul]
  simp only [hcoeff]

end

/-! ## Codewords (R212) -/

/-- A codeword's two sums are the same: the one with h0 over the message, and the one with h1 over the parity part. -/
theorem syndromeAt_encodeVec [NeZero r] (h : ParamsOk P) (e0 : elemsOk P h0) (e1 : elemsOk P h1) (eg : elemsOk P g)
    (em : elemsOk P m) (l1 : h1.length = r) (lg : g.length = r)
    (hkey : (divRem P (polyMul P (polyOfVec h1) (polyOfVec g)) (ringModulus r)).2 = polyOfVec h0) (k : Fin r) :
    syndromeAt P h0 h1 (encodeVec P m g r) r k = 0 := by
  obtain ⟨K, _, φ, F⟩ := h.exists_fieldMap
  obtain ⟨-, ec⟩ := encodeVec_spec h.laws em eg r
  have efst := elemAt_lt ec
  have esnd := fun j => elemAt_lt ec (r + j)
  have hmessage : ∀ j : Fin r, elemAt (encodeVec P m g r) j = elemAt m j := fun j => elemAt_encodeVec_message j.isLt
  have hparity : ∀ j : Fin r, elemAt (encodeVec P m g r) (r + j) = parityAt P m g r j := fun j =>
    elemAt_encodeVec_parity j.isLt
  have hfst : φ (blockSum P h0 (elemAt (encodeVec P m g r)) r k) =
      ∑ j, ringElem φ r h0 (j - k) * ringElem φ r m j := by
    simp only [map_blockSum F h.laws e0 efst k, hmessage, ringElem]
  have hsnd : φ (blockSum P h1 (fun j => elemAt (encodeVec P m g r) (r + j)) r k) =
      ∑ j, ringElem φ r h0 (j - k) * ringElem φ r m j := by
    simp only [map_blockSum F h.laws e1 esnd k, hparity, map_parityAt F h.laws em eg]
    exact sum_correlation_of_convolution (ringElem_of_key h F e1 eg l1 lg hkey) _ k
  have lfst := blockSum_lt (r := r) h.laws e0 efst k
  have lsnd := blockSum_lt (r := r) h.laws e1 esnd k
  rw [syndromeAt_eq_blockSums]
  refine F.inj _ (fplus_lt lfst lsnd) 0 card_pos ?_
  rw [F.plus _ lfst _ lsnd, hfst, hsnd, F.add_self, F.zero]

/-- Every codeword has syndrome zero (R212). -/
theorem syndromeVec_encodeVec (h : ParamsOk P) (e0 : elemsOk P h0) (e1 : elemsOk P h1) (eg : elemsOk P g)
    (em : elemsOk P m) (hr : r ≠ 0) (l1 : h1.length = r) (lg : g.length = r)
    (hkey : (divRem P (polyMul P (polyOfVec h1) (polyOfVec g)) (ringModulus r)).2 = polyOfVec h0) :
    syndromeVec P h0 h1 (encodeVec P m g r) r = zeroVec r := by
  have : NeZero r := ⟨hr⟩
  refine List.eq_replicate_iff.2 ⟨length_syndromeVec .., fun c hc => ?_⟩
  obtain ⟨k, hk, rfl⟩ := List.mem_map.1 hc
  exact syndromeAt_encodeVec h e0 e1 eg em l1 lg hkey ⟨k, List.mem_range.1 hk⟩

/-- A key that `derive` answers has R elements and h1 · g = h0 in the ring: a rejection is the other case (R200). -/
theorem derive_eq_key (h : ParamsOk P) (e0 : elemsOk P h0) (e1 : elemsOk P h1) (hr : r ≠ 0) (l0 : h0.length = r)
    (hd : derive P h0 h1 r = .key g) : g.length = r ∧ elemsOk P g ∧
      (divRem P (polyMul P (polyOfVec h1) (polyOfVec g)) (ringModulus r)).2 = polyOfVec h0 := by
  obtain ⟨hkey, hreject⟩ := derive_spec h e0 e1 hr l0
  by_cases hinv : ∃ q, IsInverse P (polyOfVec h1) (ringModulus r) q
  · obtain ⟨g', hg', hspec⟩ := hkey hinv
    obtain rfl := Derived.key.inj (hg'.symm.trans hd)
    exact hspec
  · exact nomatch (hreject hinv).symm.trans hd

/-- A KDER that raised nothing and rejected nothing has written the key of `derive`. -/
theorem kder_accepted (s : State) : Ensures (fun t => t.err = none → t.krej = false → s.bsize ≠ 0 ∧
    s.h0.length = s.bsize ∧ s.h1.length = s.bsize ∧
    ∃ g, derive s.cfg s.h0 s.h1 s.bsize = .key g ∧ t = (s.setKrej false).setBuf .g g) (exec .kder s) := by
  refine .guard (fun he => nomatch he) fun hr => .guard (fun he => nomatch he) fun hl => ?_
  simp only [not_or, not_not] at hl
  obtain ⟨l0, l1⟩ := hl
  cases hd : derive s.cfg s.h0 s.h1 s.bsize with
  | reject => exact ensures_next fun _ hk => nomatch hk
  | inverterBug => exact ensures_next fun he => nomatch he
  | key g => exact ensures_next fun _ _ => ⟨hr, l0, l1, g, rfl, rfl⟩

theorem omega_setSyndrome_zeroVec (s : State) (n : Nat) : (s.setSyndrome (zeroVec n)).omega = 0 := by
  have hw : weight (zeroVec n) = 0 := by simp [weight, zeroVec]
  exact congrArg (BitVec.ofNat 16) hw

/-- SYND and DECODE of a received word with syndrome zero (R206, R209, R211). -/
theorem zero_syndrome_decodes (hs : SyndReady s) (herr : s.err = none)
    (hz : syndromeVec s.cfg s.h0 s.h1 s.cw s.bsize = zeroVec s.bsize) :
    (∃ t, exec .synd s = .next t ∧ t.sy = List.replicate s.bsize 0 ∧ t.omega = 0 ∧ t.err = none) ∧
      ∀ k : Nat, ∃ t, exec (.decodeCw k) s = .next t ∧ t.ev = List.replicate (2 * s.bsize) 0 ∧ t.iter = 0 ∧
        t.dfail = false ∧ t.err = none := by
  have homega : s.syndrome.omega = 0 := by
    rw [State.syndrome, hz]
    exact omega_setSyndrome_zeroVec s _
  exact ⟨⟨_, exec_synd_ready hs, hz, homega, herr⟩,
    fun k => ⟨_, exec_decode_zero_syndrome hs homega k, rfl, rfl, rfl, herr⟩⟩

/-- Settles O59: the key KDER accepted makes every codeword's syndrome zero, and DECODE stops there. -/
theorem encodedMessagesHaveZeroSyndrome : Obligations.EncodedMessagesHaveZeroSyndrome := by
  intro s s1 s2 h herr _ lm hk herr1 hkrej henc
  obtain ⟨hr, l0, l1, g, hd, rfl⟩ := kder_accepted s s1 hk herr1 hkrej
  have e0 := (h.storage.buf .h0).1
  have e1 := (h.storage.buf .h1).1
  obtain ⟨lg, eg, hkey⟩ := derive_eq_key h.params e0 e1 hr l0 hd
  obtain rfl := Host.Outcome.next.inj (henc.symm.trans (exec_encode_ready hr lg lm))
  have hz := syndromeVec_encodeVec h.params e0 e1 eg (h.storage.buf .msg).1 hr l1 lg hkey
  exact zero_syndrome_decodes ⟨hr, l0, l1, length_encodeVec ..⟩ herr hz

end Sys2Proof.CodecRules

/-! # Proofs: the system (46_system.md). A step runs the word it decodes; NOP changes nothing, and has one word. -/

namespace Sys2Proof.SystemRules

open Sys2Proof.Machine Sys2Proof.Statements Sys2Proof.Encoding

variable {s : State} {w : Word} {i : Instr}

/-! ## The engine step of a command's word (R233) -/

/-- The engine step of a word that decodes: counted, then run. -/
theorem engineStep_legal (hs : s.err = none) (hd : decode w = .ok i) : engineStep w s = exec i s.tick := by
  obtain ⟨h, -, -⟩ | ⟨h, -, -⟩ | ⟨-, ⟨e, he⟩, -⟩ | ⟨-, j, hj, h⟩ := engineStep_cases w s
  · exact absurd hs h
  · exact absurd hs h
  · exact nomatch hd.symm.trans he
  · obtain rfl := Except.ok.inj (hd.symm.trans hj)
    exact h

/-- Settles O7: the word is taken off the list, then the engine step counts and runs it. -/
theorem stepRunsTheDecodedCommand : Obligations.StepRunsTheDecodedCommand := fun _ _ _ _ hp hs hd =>
  (step_action hp).trans (engineStep_legal hs hd)

/-! ## NOP (R230) -/

/-- A well-formed command is decoded from its own word and from no other (R89). -/
theorem decode_eq_ok_iff (h : i.wellFormed = true) : decode w = .ok i ↔ w = encode i :=
  ⟨fun hd => (encode_of_decode hd).symm, fun hw => hw ▸ decode_encode h⟩

/-- The decoder's line of opcode 0x00 answers no command but NOP. -/
theorem eq_nop_of_decode (hop : opField w = 0) (hd : decode w = .ok i) : i = .nop := by
  have hline : decode w = shapeNone w .nop := by simp only [decode, hop]
  exact (shapeNone_eq_ok.1 (hline.symm.trans hd)).2.symm

/-- Settles O23: a word with opcode 0x00 that decodes is NOP's, which is the zero word. -/
theorem nopChangesNothing : Obligations.NopChangesNothing := by
  have hword : ∀ w : Word, decode w = .ok .nop ↔ w = 0x00000000 := fun w => decode_eq_ok_iff rfl
  refine ⟨fun s => ⟨s, rfl, .refl [] s, rfl⟩, hword, fun w hop hw => ?_⟩
  cases hd : decode w with
  | error e => exact ⟨e, rfl⟩
  | ok i =>
    obtain rfl := eq_nop_of_decode hop hd
    exact absurd ((hword w).1 hd) hw

end Sys2Proof.SystemRules

/-! # Proofs: the exceptions (60_exceptions.md). What a raise records and leaves, and how the halted state is left. -/

namespace Sys2Proof.ExceptionRules

open Sys2Proof.Machine Sys2Proof.Statements Sys2Proof.StateRules Sys2Proof.Encoding Sys2Proof.SystemRules

variable {s t : State} {w : Word} {i : Instr}

/-! ## Raising an error (R240, R241) -/

/-- STATUS[3:0] is the code of the error: no code is above 8, and the flags begin at bit 4 (R27, R240). -/
theorem status_mod_16 (s : State) : s.status.toNat % 16 = errCode s.err := by
  have hle := errCode_le s.err
  rw [toNat_status]
  omega

/-- The other bits of STATUS are the five flags, whatever the error (R27). -/
theorem status_div_16 (s : State) : s.status.toNat / 16 =
    s.z.toNat + s.o.toNat * 2 + s.noinv.toNat * 4 + s.dfail.toNat * 8 + s.krej.toNat * 16 := by
  have hle := errCode_le s.err
  rw [toNat_status]
  omega

/-- Settles O15: the row of R240 gives the kind's code, which takes STATUS[3:0] alone. -/
theorem raiseRecordsTheCodeAndTheWord : Obligations.RaiseRecordsTheCodeAndTheWord := by
  intro s w e n hrow
  have hcode : e.code = n := by cases e <;> simpa [ErrorKind.code, eq_comm] using hrow
  refine ⟨(status_mod_16 _).trans hcode, ?_, rfl, same_raise s e w, rfl⟩
  exact (status_div_16 (s.raise e w)).trans (status_div_16 s).symm

/-! ## Errors are precise (R241, R243) -/

/-- No command's row names ERR: a command writes it only by raising. -/
theorem err_not_written (i : Instr) : .err ∉ writtenBy i := by
  cases i <;> simp [writtenBy]

/-- A command that starts with no error and ends with one has written what `raise` writes, and nothing else. -/
theorem exec_eq_raise (hs : s.err = none) (ht : exec i s = .next t) (herr : t.err ≠ none) :
    ∃ e, t = s.raise e (encode i) := by
  have hi : i ≠ .sreset := by
    rintro rfl
    exact herr (Host.Outcome.next.inj ht ▸ resetState_err s)
  obtain hraise | hwrote := exec_writes i s hi t ht
  · exact hraise
  · exact absurd ((hwrote .err (err_not_written i)).trans hs) herr

/-- An engine step that raises has counted the word and recorded it: an illegal word itself, or the encoder's word of
the command, which is the word it was decoded from (R29). -/
theorem engineStep_eq_raise (hs : s.err = none) (ht : engineStep w s = .next t) (herr : t.err ≠ none) :
    ∃ e, t = s.tick.raise e w := by
  cases hd : decode w with
  | error e => exact ⟨_, (Host.Outcome.next.inj ((engineStep_illegal hs hd).symm.trans ht)).symm⟩
  | ok i =>
    obtain ⟨e, h⟩ := exec_eq_raise (s := s.tick) hs ((engineStep_legal hs hd).symm.trans ht) herr
    exact ⟨e, encode_of_decode hd ▸ h⟩

/-- Settles O16: the word is taken off the list and counted, and the rest is the raise. -/
theorem errorsArePrecise : Obligations.ErrorsArePrecise := by
  intro s t w rest hp hs ht herr
  obtain ⟨e, rfl⟩ := engineStep_eq_raise (s := s.setPending rest) hs ((step_action hp).symm.trans ht) herr
  exact ⟨rfl, rfl, rfl, (((same_setPending s rest).trans (same_tick _)).trans (same_raise _ e w)).mono (by decide)⟩

/-! ## The halted state (R242, R248) -/

/-- The engine step of a word other than SRESET's while halted: counted only. -/
theorem engineStep_halted (hs : s.err ≠ none) (hw : w ≠ sresetWord) : engineStep w s = .next s.tick := by
  obtain ⟨-, h, -⟩ | ⟨-, -, h⟩ | ⟨h, -, -⟩ | ⟨h, -⟩ := engineStep_cases w s
  · exact absurd h hw
  · exact h
  · exact absurd h hs
  · exact absurd h hs

/-- Settles O9: the word is taken off the list and counted. -/
theorem haltedEngineIgnoresEveryOtherWord : Obligations.HaltedEngineIgnoresEveryOtherWord := fun s _ rest hp hs hw =>
  ⟨_, (step_action hp).trans (engineStep_halted hs hw), rfl, rfl,
    ((same_setPending s rest).trans (same_tick _)).mono (by decide)⟩

/-- Settles O10: by the host's next action. To idle, to read a CSR and to ignore a word leave ERR and ERRCMD alone;
SRESET's word and the hardware reset are the two ways out. -/
theorem haltedStateIsLeftOnlyByReset : Obligations.HaltedStateIsLeftOnlyByReset := by
  intro s t hs ht
  obtain ⟨-, rfl⟩ | ⟨w, rest, hp, h⟩ | ⟨n, rest, -, rfl⟩ | ⟨rest, hp, -⟩ := step_cases ht
  · exact .inl ⟨rfl, rfl⟩
  · by_cases hw : w = sresetWord
    · subst hw
      exact .inr ⟨rest, .inl hp⟩
    · have hcounted := engineStep_halted (s := s.setPending rest) hs hw
      obtain rfl := Host.Outcome.next.inj (hcounted.symm.trans h)
      exact .inl ⟨rfl, rfl⟩
  · exact .inl ⟨rfl, rfl⟩
  · exact .inr ⟨rest, .inr hp⟩

end Sys2Proof.ExceptionRules
